-- ==== Sys2Proof/Word.lean ====
section
/-! DEFINITION. The widths of the values the block moves (spec/00_scope.md R8) and the two small sets of names that are
registers of the machine: the protocol state (spec/10_state.md R21) and the accelerator mode (spec/10_state.md R30). -/

namespace Sys2Proof

/-- A u32: a mail word, a guest address, an accelerator unit address, an accumulator (R8). -/
abbrev Word := BitVec 32

/-- A u16 (R8): `input_size`, `rot_base`, `step_counter`, one accelerator word. -/
abbrev Half := BitVec 16

/-- A byte of guest memory or of the working buffer. -/
abbrev Byte := BitVec 8

/-- A u4 (R13): the unit of the accelerator's nibble mode. -/
abbrev Nibble := BitVec 4

/-- `PSTATE` (R14, R21). The fourth code of the two-bit encoding is reserved and never held, so it is no value here. -/
inductive PState where
  /-- AwaitingUnlockRequest, code 0. -/
  | aur
  /-- AwaitingParameterAddress, code 1. -/
  | apa
  /-- AwaitingNextCommand, code 2. -/
  | anc
  deriving DecidableEq, Repr

/-- `ACC.MODE` (R30): `WORD = 0`, `NIBBLE = 1`. -/
inductive AccMode where
  /-- A unit is a 16-bit word (R150). -/
  | word
  /-- A unit is a nibble (R150). -/
  | nibble
  deriving DecidableEq, Repr

end Sys2Proof
end

