-- ==== Sys2Proof/Config.lean ====
section
/-! DEFINITION. What is fixed when the block is constructed (spec/70_reset_and_hazards.md R271) and left open by the spec
(spec/00_scope.md R7). A constructed block carries these values in its state; the ones `State.reset` carries are opaque
constants, so that no proof can see them. -/

namespace Sys2Proof

/-- The two values `ADDR_MASK` may take (R3, R23); which console variant takes which is not in the spec (D2). -/
inductive AddrMask where
  /-- `0x0FFF_FFFF`. -/
  | low28
  /-- `0x3FFF_FFFF`. -/
  | low30
  deriving DecidableEq, Repr, Inhabited

/-- The identity a `Switch` event carries (R7, D5). DESIGN CHOICE (notes/assumptions/2.md): a natural number stands for
the opaque identity; safe, because nothing computes with it. -/
abbrev ModuleId := Nat

/-- The construction arguments of R271 but for the two memories, which are state. -/
structure Construction where
  /-- `ADDR_MASK` (R23). -/
  addrMask : AddrMask
  /-- `INIT_MAIL` (R7, R87). -/
  initMail : Word
  /-- `DONE_MAIL` (R7, R87). -/
  doneMail : Word
  /-- `DEFAULT_MODULE_ID` (R7, R120). -/
  defaultModuleId : ModuleId
  /-- `WBUF_BYTES` (R7, R55). -/
  wbufBytes : Nat
  deriving DecidableEq, Repr

/-- The range R7 gives `WBUF_BYTES`: 1 to 2^26. -/
abbrev Construction.wf (c : Construction) : Prop := 1 ≤ c.wbufBytes ∧ c.wbufBytes ≤ 67108864

/-- `ADDR_MASK` of the block that `State.reset` describes: one of the two values, not said which (D2). -/
opaque Config.addrMask : AddrMask

/-- `INIT_MAIL` of the block that `State.reset` describes: any u32 (D3). -/
opaque Config.initMail : Word

/-- `DONE_MAIL` of the block that `State.reset` describes: any u32 (D4). -/
opaque Config.doneMail : Word

/-- `DEFAULT_MODULE_ID` of the block that `State.reset` describes (D5). -/
opaque Config.defaultModuleId : ModuleId

/-- One less than `WBUF_BYTES` of the block that `State.reset` describes: R7 bounds the size by 2^26 (D6). -/
opaque Config.wbufLastIndex : Fin 67108864

/-- The construction arguments of the block that `State.reset` describes (notes/assumptions/1.md). -/
def Config.construction : Construction :=
  { addrMask := Config.addrMask
    initMail := Config.initMail
    doneMail := Config.doneMail
    defaultModuleId := Config.defaultModuleId
    wbufBytes := Config.wbufLastIndex.val + 1 }

end Sys2Proof
end

