-- ==== Sys2Proof/Syntax.lean ====
section
/-! DEFINITION. The instructions: one constructor for each row of spec/opcode_table.json, in the table's order
(spec/30_encoding.md R80, R82). -/

namespace Sys2Proof

/-- The 23 rows of the opcode table: seven mail words, five host port operations, four sub-operations of `PARAMS`, and the
seven accelerator operations. -/
inductive Instr where
  /-- `FORWARD` (R112): the whole mail word, payload. -/
  | forward (w : Word)
  /-- `UNLOCK` (R113). -/
  | unlock
  /-- `IGN_AUR` (R114): the ignored mail word. -/
  | ignAur (w : Word)
  /-- `PARAMS` (R116): the whole mail word, not yet masked. -/
  | params (w : Word)
  /-- `NEWUC` (R118). -/
  | newuc
  /-- `RESETUC` (R120). -/
  | resetuc
  /-- `IGN_ANC` (R119): the ignored mail word. -/
  | ignAnc (w : Word)
  /-- `POLL` (R224). -/
  | poll
  /-- `POP` (R225). -/
  | pop
  /-- `SAVE` (R221). -/
  | save
  /-- `RESTORE` (R222): the `SNAP` value to load. -/
  | restore (snap : Word)
  /-- `RESET` (R270). -/
  | reset
  /-- `run_request` (R115): the record's guest address. -/
  | runRequest (addr : Word)
  /-- `read_parameters` (R140): the record's guest address. -/
  | readParameters (addr : Word)
  /-- `compute_hash` (R180): its operand is the parameter latch `P`, which is state. -/
  | computeHash
  /-- `combine` (R190): the four nibbles. -/
  | combine (prev1 prev2 new1 new2 : Nibble)
  /-- `ACC_SET_GRANULARITY` (R151). -/
  | accSetGranularity (mode : AccMode)
  /-- `ACC_SET_BOUNDS` (R152): the window's first and last unit. -/
  | accSetBounds (first last : Word)
  /-- `ACC_SET_CURSOR` (R153). -/
  | accSetCursor (cursor : Word)
  /-- `ACC_READ_WORD` (R154): `read_next` in word mode. -/
  | accReadWord
  /-- `ACC_READ_NIBBLE` (R155): `read_next` in nibble mode. -/
  | accReadNibble
  /-- `ACC_WRITE_WORD` (R156): `write_next` in word mode. -/
  | accWriteWord (v : Half)
  /-- `ACC_WRITE_NIBBLE` (R157): `write_next` in nibble mode. -/
  | accWriteNibble (v : Nibble)
  deriving DecidableEq, Repr

end Sys2Proof
end

