-- ==== Sys2Proof/Decode.lean ====
section
/-! DEFINITION. Decoding (spec/30_encoding.md): mail words in their context (R81, R82), the host's requests (R80, R226), the
accelerator's five requests in their mode (R80), the byte form of a mail word (R57); and the encoder of each. Decoding a
mail word is total: no word is illegal (R85). Bytes are rejected, by name, where there are too few of them for a word. -/

namespace Sys2Proof

/-- The decode context of R81, read when `handle_mail` is entered. -/
structure Context where
  /-- `UPLOAD`. -/
  upload : Bool
  /-- `PSTATE`. -/
  pstate : PState
  deriving DecidableEq, Repr

/-- The unlock request (R82, R83). -/
def unlockWord : Word := 0xFF000000#32

/-- The next-firmware command (R82, R83). -/
def newucWord : Word := 0xCDD10001#32

/-- The revert command (R82, R83). -/
def resetucWord : Word := 0xCDD10002#32

/-- R82, R110: which instruction a mail word is, in its context. `UPLOAD` is tested before `PSTATE` (R111), the exact
matches before "any other word". -/
def decodeMail (c : Context) (w : Word) : Instr :=
  if c.upload then .forward w
  else match c.pstate with
    | .aur => if w = unlockWord then .unlock else .ignAur w
    | .apa => .params w
    | .anc => if w = newucWord then .newuc else if w = resetucWord then .resetuc else .ignAnc w

/-! ## The decode table of R82, as it stands there -/

/-- One row of R82's table. A word is in the row when the context fits and `w & mask = pattern`. -/
structure MailRow where
  /-- The row's `UPLOAD`. -/
  upload : Bool
  /-- The row's `PSTATE`; none where the row says "any". -/
  pstate : Option PState
  /-- The row's `match` column; 0 with mask 0 for "any other word". -/
  pattern : Word
  /-- The row's `mask` column. -/
  mask : Word
  /-- The instruction of the row, from the whole word. -/
  instr : Word → Instr

/-- R82's rows in the order in which they are tried. -/
def mailRows : List MailRow :=
  [ { upload := true,  pstate := none,      pattern := 0x00000000#32, mask := 0x00000000#32, instr := .forward },
    { upload := false, pstate := some .aur, pattern := 0xFF000000#32, mask := 0xFFFFFFFF#32, instr := fun _ => .unlock },
    { upload := false, pstate := some .aur, pattern := 0x00000000#32, mask := 0x00000000#32, instr := .ignAur },
    { upload := false, pstate := some .apa, pattern := 0x00000000#32, mask := 0x00000000#32, instr := .params },
    { upload := false, pstate := some .anc, pattern := 0xCDD10001#32, mask := 0xFFFFFFFF#32, instr := fun _ => .newuc },
    { upload := false, pstate := some .anc, pattern := 0xCDD10002#32, mask := 0xFFFFFFFF#32, instr := fun _ => .resetuc },
    { upload := false, pstate := some .anc, pattern := 0x00000000#32, mask := 0x00000000#32, instr := .ignAnc } ]

/-- Whether a row admits a word in a context. -/
def MailRow.admits (r : MailRow) (c : Context) (w : Word) : Bool :=
  (r.upload == c.upload) && (r.pstate == none || r.pstate == some c.pstate) && (w &&& r.mask == r.pattern)

/-- Decoding by the table alone (R82): the first row that admits the word. -/
def tableDecode (c : Context) (w : Word) : Option Instr :=
  (mailRows.find? fun r => r.admits c w).map fun r => r.instr w

/-! ## Requests on the host's port and on the accelerator's interface -/

/-- The operations the host may request (R80, R226). -/
inductive HostOp where
  /-- `handle_mail(w)`. -/
  | mail (w : Word)
  | poll
  | pop
  | save
  | restore (snap : Word)
  | reset
  deriving DecidableEq, Repr

/-- Which instruction a host request is. -/
def decodeOp (c : Context) : HostOp → Instr
  | .mail w => decodeMail c w
  | .poll => .poll
  | .pop => .pop
  | .save => .save
  | .restore v => .restore v
  | .reset => .reset

/-- The accelerator's five operations (R11, R80), which only the hash engine issues. -/
inductive AccOp where
  | setGranularity (mode : AccMode)
  | setBounds (first last : Word)
  | setCursor (cursor : Word)
  | readNext
  /-- The value is a u16 in word mode and its low four bits in nibble mode. -/
  | writeNext (v : Half)
  deriving DecidableEq, Repr

/-- Which row of the opcode table an accelerator operation is: `read_next` and `write_next` have one row per mode (R80).
With the mode unconfigured either row raises `ACC_UNCONFIGURED` (R158); the word row is taken. -/
def decodeAcc (mode : Option AccMode) : AccOp → Instr
  | .setGranularity m => .accSetGranularity m
  | .setBounds a b => .accSetBounds a b
  | .setCursor c => .accSetCursor c
  | .readNext => if mode = some .nibble then .accReadNibble else .accReadWord
  | .writeNext v => if mode = some .nibble then .accWriteNibble (v.setWidth 4) else .accWriteWord v

/-! ## The encoder -/

/-- The mail word of a mail instruction; a port operation has none (R80). -/
def encode : Instr → Option Word
  | .forward w => some w
  | .unlock => some unlockWord
  | .ignAur w => some w
  | .params w => some w
  | .newuc => some newucWord
  | .resetuc => some resetucWord
  | .ignAnc w => some w
  | .poll => none
  | .pop => none
  | .save => none
  | .restore _ => none
  | .reset => none
  | .runRequest _ => none
  | .readParameters _ => none
  | .computeHash => none
  | .combine _ _ _ _ => none
  | .accSetGranularity _ => none
  | .accSetBounds _ _ => none
  | .accSetCursor _ => none
  | .accReadWord => none
  | .accReadNibble => none
  | .accWriteWord _ => none
  | .accWriteNibble _ => none

/-- The host request that makes an instruction; none for the sub-operations, which the host cannot request (R36). -/
def encodeOp (i : Instr) : Option HostOp :=
  match i with
  | .poll => some .poll
  | .pop => some .pop
  | .save => some .save
  | .restore v => some (.restore v)
  | .reset => some .reset
  | .forward _ => (encode i).map .mail
  | .unlock => (encode i).map .mail
  | .ignAur _ => (encode i).map .mail
  | .params _ => (encode i).map .mail
  | .newuc => (encode i).map .mail
  | .resetuc => (encode i).map .mail
  | .ignAnc _ => (encode i).map .mail
  | .runRequest _ => none
  | .readParameters _ => none
  | .computeHash => none
  | .combine _ _ _ _ => none
  | .accSetGranularity _ => none
  | .accSetBounds _ _ => none
  | .accSetCursor _ => none
  | .accReadWord => none
  | .accReadNibble => none
  | .accWriteWord _ => none
  | .accWriteNibble _ => none

/-- The accelerator operation that is an instruction's row when the accelerator is in a mode; none for a row that is not tried in that mode,
and for every instruction that is no accelerator operation (R80). -/
def encodeAcc (mode : Option AccMode) : Instr → Option AccOp
  | .forward _ => none
  | .unlock => none
  | .ignAur _ => none
  | .params _ => none
  | .newuc => none
  | .resetuc => none
  | .ignAnc _ => none
  | .poll => none
  | .pop => none
  | .save => none
  | .restore _ => none
  | .reset => none
  | .runRequest _ => none
  | .readParameters _ => none
  | .computeHash => none
  | .combine _ _ _ _ => none
  | .accSetGranularity m => some (.setGranularity m)
  | .accSetBounds a b => some (.setBounds a b)
  | .accSetCursor c => some (.setCursor c)
  | .accReadWord => if mode = some .word then some .readNext else none
  | .accReadNibble => if mode = some .nibble then some .readNext else none
  | .accWriteWord v => if mode = some .word then some (.writeNext v) else none
  | .accWriteNibble v => if mode = some .nibble then some (.writeNext (v.setWidth 16)) else none

/-- The contexts in which a mail instruction's row is tried (R82). -/
def Instr.inContext (i : Instr) (c : Context) : Bool :=
  match i with
  | .forward _ => c.upload
  | .unlock => !c.upload && c.pstate == .aur
  | .ignAur _ => !c.upload && c.pstate == .aur
  | .params _ => !c.upload && c.pstate == .apa
  | .newuc => !c.upload && c.pstate == .anc
  | .resetuc => !c.upload && c.pstate == .anc
  | .ignAnc _ => !c.upload && c.pstate == .anc
  | .poll => true
  | .pop => true
  | .save => true
  | .restore _ => true
  | .reset => true
  | .runRequest _ => true
  | .readParameters _ => true
  | .computeHash => true
  | .combine _ _ _ _ => true
  | .accSetGranularity _ => true
  | .accSetBounds _ _ => true
  | .accSetCursor _ => true
  | .accReadWord => true
  | .accReadNibble => true
  | .accWriteWord _ => true
  | .accWriteNibble _ => true

/-! ## The byte form of a mail word -/

/-- R10: four bytes, the most significant first, as one 32-bit value. -/
def be32 (b0 b1 b2 b3 : Byte) : Word := b0 ++ b1 ++ b2 ++ b3

/-- R10: two bytes, the most significant first, as one 16-bit value. -/
def be16 (b0 b1 : Byte) : Half := b0 ++ b1

/-- The bytes of a 32-bit value, most significant first (R52, R57). -/
def bytesOfWord (w : Word) : List Byte :=
  [w.extractLsb' 24 8, w.extractLsb' 16 8, w.extractLsb' 8 8, w.extractLsb' 0 8]

/-- Why bytes are no mail word. -/
inductive DecodeError where
  /-- Fewer than the four bytes of a mail word (R80: every mail word is exactly 32 bits); how many there are. -/
  | truncated (have_ : Nat)
  deriving DecidableEq, Repr

/-- One mail word from a transport that carries it as bytes, most significant first (R57), with the bytes after it. -/
def decodeBytes (c : Context) : List Byte → Except DecodeError (Instr × List Byte)
  | b0 :: b1 :: b2 :: b3 :: rest => .ok (decodeMail c (be32 b0 b1 b2 b3), rest)
  | short => .error (.truncated short.length)

/-- The bytes of a mail instruction (R57). -/
def encodeBytes (i : Instr) : Option (List Byte) := (encode i).map bytesOfWord

/-! ## The host's numbering of a table row's bits -/

/-- The context in which a word of the opcode table is tried: the one in which it is a command of its own, and for every
other word the context right after reset (R273). DESIGN CHOICE (notes/assumptions/9.md): the table's rows share their bits and
differ by context, which a bare word does not carry; safe, since no rule of the machine reads this. -/
def tableContext (w : Word) : Context :=
  if w = newucWord then ⟨false, .anc⟩
  else if w = resetucWord then ⟨false, .anc⟩
  else ⟨false, .aur⟩

/-- The 32-bit word whose low `nbits` bits are `w` and whose other bits are 0. -/
def tableWord (nbits w : Nat) : Word := BitVec.ofNat 32 (w % 2 ^ nbits)

/-- The instruction the decoder reads from a word numbered as the opcode table numbers it, in `tableContext`. A row of no bits
is a port operation, which has no word (R80), and no mail word is longer than 32 bits. -/
def decodeTableWord (nbits w : Nat) : Option Instr :=
  if nbits = 0 then none
  else if 32 < nbits then none
  else match decodeBytes (tableContext (tableWord nbits w)) (bytesOfWord (tableWord nbits w)) with
    | .ok (i, []) => some i
    | .ok (_, _ :: _) => none
    | .error _ => none

end Sys2Proof
end

