-- ==== Sys2Proof/WellFormed.lean ====
section
/-! DEFINITION. Which instructions a decoder can produce: the two "ignored word" rows hold every word but the ones that are
commands in their context (spec/30_encoding.md R82, R83). Every other operand is bounded by its type. -/

namespace Sys2Proof

/-- R82: `IGN_AUR` and `IGN_ANC` never hold the words their context matches exactly. -/
def Instr.wellFormed : Instr → Bool
  | .ignAur w => w != unlockWord
  | .ignAnc w => w != newucWord && w != resetucWord
  | .forward _ => true
  | .unlock => true
  | .params _ => true
  | .newuc => true
  | .resetuc => true
  | .poll => true
  | .pop => true
  | .save => true
  | .restore _ => true
  | .reset => true
  | .runRequest _ => true
  | .readParameters _ => true
  | .computeHash => true
  | .combine _ _ _ _ => true
  | .accSetGranularity _ => true
  | .accSetBounds _ _ => true
  | .accSetCursor _ => true
  | .accReadWord => true
  | .accReadNibble => true
  | .accWriteWord _ => true
  | .accWriteNibble _ => true

end Sys2Proof
end

