-- ==== Sys2Proof/Machine/State.lean ====
section
/-! DEFINITION. The state of the block (spec/10_state.md R20 to R36), the ports of spec/00_scope.md R5 as plain data, and the
state after the first RESET (spec/70_reset_and_hazards.md R271, R272). -/

namespace Sys2Proof.Machine

/-- Why a step stops without a next state. No rule of the spec stops the machine so: a fault of the block (R240) is a NEXT state
with `State.fault` set, because the effects before it stay and `POP` still runs (R117, R246). So there is no such reason, and
the type is empty (notes/assumptions/12.md). -/
inductive Fault where
  deriving DecidableEq, Repr

/-- Why an instruction has no meaning. -/
inductive Refusal where
  /-- Raised by `exec`'s arm of an instruction that has no meaning yet; safe. No arm raises it. -/
  | notModelled (mnemonic : String)
  deriving DecidableEq, Repr

/-- The fault codes of R241 with the info each records; the latch `FAULT` holds one of them (R32). -/
inductive BlockFault where
  /-- Code 1: a data access at the last unit of the window; the info is `ACC.END` (R160). -/
  | accEndOfRange (last : Word)
  /-- Code 2: a data access with the cursor outside the window; the info is `ACC.CUR` (R159). -/
  | accOutOfWindow (cursor : Word)
  /-- Code 3: `set_bounds` with the end before the start; the info is both (R152). -/
  | accBadBounds (first last : Word)
  /-- Code 4: a data access before mode, bounds and cursor are set (R158). -/
  | accUnconfigured
  /-- Code 5: `write_next` in nibble mode (R157). -/
  | accUnsupported
  /-- Code 6: a working-buffer byte index at or past `WBUF_BYTES`; the info is the index (R56, R156). -/
  | wbufOutOfRange (index : Nat)
  /-- Code 7: `RESTORE` of a value no save produces; the info is the value (R222). -/
  | snapBadValue (snap : Word)
  deriving DecidableEq, Repr

/-- The hash engine's six registers (R26). -/
structure HashRegs where
  accA : Word
  accB : Word
  accC : Word
  accD : Word
  rotBase : Half
  stepCounter : Half
  deriving DecidableEq, Repr

/-- The hash engine's transient values (R27). -/
structure Transients where
  /-- `byte_sum`. -/
  byteSum : Word
  /-- `LBUF`, the local copy of the input. -/
  lbuf : List Byte
  /-- The previous nibble pair. -/
  prev1 : Nibble
  prev2 : Nibble
  /-- `pair_count` (R187). -/
  pairCount : Half
  /-- The loop index of R188's outer loop: iterations finished. -/
  pairIndex : Half
  /-- The loop index of R188's inner loop: which of the two combining steps of an iteration. -/
  subIndex : BitVec 1
  deriving DecidableEq, Repr

/-- The parameter latch `P` (R28). -/
structure RequestParams where
  sourceAddress : Word
  reserved : Half
  inputSize : Half
  workAddress : Word
  outputAddress : Word
  deriving DecidableEq, Repr

/-- The accelerator's registers (R30). `none` is the spec's own "unconfigured". -/
structure AccRegs where
  mode : Option AccMode
  start : Option Word
  /-- `ACC.END`. -/
  stop : Option Word
  cur : Option Word
  deriving DecidableEq, Repr

/-- The output events of R11. -/
inductive Event where
  | hostIrq
  | switch (id : ModuleId)
  | forward (w : Word)
  | warn (w : Word)
  deriving DecidableEq, Repr

/-- What the last operation returned to its caller. -/
inductive OpResult where
  /-- The operation returns nothing, or a fault ended it (R160: a read's value is discarded). -/
  | noValue
  /-- `SAVE` (R221), `POP` (R225). -/
  | word (w : Word)
  /-- `POP` with nothing pending (R225). -/
  | empty
  /-- `ACC_READ_WORD` (R154). -/
  | half (h : Half)
  /-- `ACC_READ_NIBBLE` (R155). -/
  | nibble (n : Nibble)
  /-- `read_parameters` (R140). -/
  | record (p : RequestParams)
  /-- The block is stopped by a fault and refuses the operation, with no effect (R246). -/
  | refused
  deriving DecidableEq, Repr

/-- One access the block made, for the traces R141 and R198 speak of. -/
inductive TraceEntry where
  /-- `MemRead(addr, n)` (R52). -/
  | guestRead (addr : Word) (n : Nat)
  /-- `MemReadBytes(addr, n)` of at least one byte (R53). -/
  | guestBulkRead (addr : Word) (n : Nat)
  /-- `MemWrite(addr, 4, v)` (R52). -/
  | guestWrite (addr : Word) (v : Word)
  /-- A word write at a unit (R156). -/
  | wordWrite (u : Word)
  /-- A word read at a unit (R154). -/
  | wordRead (u : Word)
  /-- A nibble read at a unit (R155). -/
  | nibbleRead (u : Word)
  /-- One combining step (R190). -/
  | combined
  /-- `MailPush(w)` (R29). -/
  | pushed (w : Word)
  deriving DecidableEq, Repr

/-- What the host may do next at the incoming port: request an operation (R226), or, between operations, change a byte of guest
memory (R227) or of the working buffer it sets up (R275 item 4). -/
inductive HostAction where
  | request (op : HostOp)
  | storeGuest (addr : Word) (b : Byte)
  | storeWbuf (index : Nat) (b : Byte)
  deriving DecidableEq, Repr

/-- A byte memory as (address, byte) pairs, addresses strictly rising, no pair holding what an unlisted address reads as. -/
abbrev Memory := List Host.Cell

/-- What an unlisted byte reads as. DESIGN CHOICE (notes/assumptions/3.md, 4.md): the spec leaves `WBUF_INIT` and `GUEST_MEM` to the
host; a list over this default can hold any contents of either memory, so only `State.reset` fixes one; unsafe there. -/
def Memory.unlisted : Byte := 0#8

/-- The canonical form. -/
abbrev Memory.wf (m : Memory) : Prop :=
  m.Pairwise (fun x y => x.1 < y.1) ∧ ∀ c ∈ m, c.2 ≠ Memory.unlisted

/-- The whole state. -/
structure State where
  /-- The construction arguments (R7, R23, R271). -/
  cfg : Construction
  /-- `PSTATE` (R21). -/
  pstate : PState
  /-- `UPLOAD` (R22). -/
  upload : Bool
  /-- The hash registers (R26). -/
  he : HashRegs
  /-- The hash transients (R27). -/
  tr : Transients
  /-- The parameter latch `P` (R28). -/
  req : RequestParams
  /-- `OUTQ`, head first (R29). -/
  outq : List Word
  /-- The accelerator registers (R30). -/
  acc : AccRegs
  /-- `WBUF` (R31). -/
  wbuf : Memory
  /-- Guest memory (R50). -/
  guest : Memory
  /-- `FAULT` (R32). -/
  fault : Option BlockFault
  /-- The incoming port: what the host does next, oldest first (R226, R227). -/
  inbox : List HostAction
  /-- The events emitted, oldest first (R11, R285). -/
  events : List Event
  /-- What the last operation returned. -/
  result : OpResult
  /-- The accesses made, newest first (R141, R198). -/
  trace : List TraceEntry
  deriving DecidableEq, Repr

/-- The state after construction and the first RESET (R271, R272): what `RESET` leaves of `State.constructed`. The hash registers, the transients and `P` are unspecified
there; DESIGN CHOICE (notes/assumptions/5.md, 6.md, 7.md): zero, unsafe. -/
def State.reset : State where
  cfg := Config.construction
  pstate := .aur
  upload := false
  he := ⟨0#32, 0#32, 0#32, 0#32, 0#16, 0#16⟩
  tr := ⟨0#32, [], 0#4, 0#4, 0#16, 0#16, 0#1⟩
  req := ⟨0#32, 0#16, 0#16, 0#32, 0#32⟩
  outq := [Config.construction.initMail]
  acc := ⟨none, none, none, none⟩
  wbuf := []
  guest := []
  fault := none
  inbox := []
  events := []
  result := .noValue
  trace := [.pushed Config.construction.initMail]

end Sys2Proof.Machine
end

