-- ==== Sys2Proof/Machine/Operands.lean ====
section
/-! DEFINITION. Operand forms: the masked record address (spec/30_encoding.md R84), the record's layout (R89), the accelerator's
units (spec/42_accelerator.md R150), the sizes, counts and cursors of the hash (spec/43_hash_engine.md R181, R185, R187). -/

namespace Sys2Proof.Machine

/-- `ADDR_MASK` as the 32-bit value (R3). -/
def addrMaskWord : AddrMask → Word
  | .low28 => 0x0FFFFFFF#32
  | .low30 => 0x3FFFFFFF#32

/-- R84: the record address of a parameter-address word. -/
def recordAddress (c : Construction) (w : Word) : Word := w &&& addrMaskWord c.addrMask

/-- R51: the address of byte `k` of a guest access at `addr`, mod 2^32. -/
def guestAddr (addr : Word) (k : Nat) : Nat := (addr + BitVec.ofNat 32 k).toNat

/-- R89: the record's field offsets. -/
def sourceOffset : Word := 0#32
def reservedOffset : Word := 4#32
def sizeOffset : Word := 6#32
def workOffset : Word := 8#32
def outputOffset : Word := 12#32

/-- R150: the bytes of word unit `c`, unbounded naturals. -/
def wordHighIndex (c : Word) : Nat := 2 * c.toNat
def wordLowIndex (c : Word) : Nat := 2 * c.toNat + 1

/-- R150: the byte of nibble unit `n`. -/
def nibbleIndex (n : Word) : Nat := n.toNat / 2

/-- R13: the high nibble of a byte. -/
def highNibble (b : Byte) : Nibble := b.extractLsb' 4 4

/-- R13: the low nibble of a byte. -/
def lowNibble (b : Byte) : Nibble := b.extractLsb' 0 4

/-- R150: which nibble of its byte a nibble unit is: the high one at an even unit. -/
def nibbleOf (n : Word) (b : Byte) : Nibble := if n.toNat % 2 = 0 then highNibble b else lowNibble b

/-- The bytes of a u16, high byte first (R58, R156). -/
def highByte (v : Half) : Byte := v.extractLsb' 8 8
def lowByte (v : Half) : Byte := v.extractLsb' 0 8

/-- R181: `input_size` rounded up to a multiple of 4, with no 16-bit wrap. -/
def round4 (n : Half) : Nat := (n.toNat + 3) / 4 * 4

/-- R187: the pair count; the value for size 0 is the source's own, not derived. -/
def pairCount (n : Half) : Half := if n = 0#16 then 0xFFFF#16 else (n - 1#16) / 2#16

/-- R182, R91: the word window is units 0 to this one. -/
def wordWindowEnd : Word := 0x01FFFFFF#32

/-- R185, R91: the nibble window is units 0 to this one. -/
def nibbleWindowEnd : Word := 0x07FFFFFF#32

/-- R185: the nibble cursor of step 4, `4 × wa mod 2^32`. -/
def nibbleCursor (wa : Word) : Word := wa <<< 2

end Sys2Proof.Machine
end

