-- ==== Sys2Proof/Machine/Flags.lean ====
section
/-! DEFINITION. The block has no condition codes (spec/10_state.md R34). Its Boolean state and its derived views: the fault codes
(spec/60_exceptions.md R241), the codes of the accelerator's mode (spec/30_encoding.md R91), the pending interrupt (R249), and the
snapshot register `SNAP`, a view of `PSTATE` and `UPLOAD` (R33, spec/30_encoding.md R88). -/

namespace Sys2Proof.Machine

/-- R241: the code of a fault. -/
def faultCode : BlockFault → Nat
  | .accEndOfRange _ => 1
  | .accOutOfWindow _ => 2
  | .accBadBounds _ _ => 3
  | .accUnconfigured => 4
  | .accUnsupported => 5
  | .wbufOutOfRange _ => 6
  | .snapBadValue _ => 7

/-- The decode context of R81. -/
def State.context (s : State) : Context := ⟨s.upload, s.pstate⟩

/-- R249: `HostIRQ` is pending exactly while `OUTQ` is not empty. -/
def State.irqPending (s : State) : Bool := !s.outq.isEmpty

/-- R21: the code of a protocol state. -/
def pstateCode : PState → Word
  | .aur => 0#32
  | .apa => 1#32
  | .anc => 2#32

/-- R30, R91: the code of an accelerator mode. -/
def accModeCode : AccMode → Word
  | .word => 0#32
  | .nibble => 1#32

/-- R221: the value a save of these two fields returns. -/
def snapValue (p : PState) (upload : Bool) : Word :=
  ((if upload then 1#32 else 0#32) <<< 2) ||| pstateCode p

/-- R33: the snapshot register as a view of the state. -/
def State.snap (s : State) : Word := snapValue s.pstate s.upload

/-- R222: a value no save produces. -/
def snapBad (v : Word) : Bool := v.extractLsb' 3 29 != 0#29 || v.extractLsb' 0 2 == 3#2

/-- R222: the protocol state a legal snapshot value names. -/
def snapPState (v : Word) : PState :=
  if v.extractLsb' 0 2 = 0#2 then .aur else if v.extractLsb' 0 2 = 1#2 then .apa else .anc

/-- R222: the upload flag a snapshot value names. -/
def snapUpload (v : Word) : Bool := v.getLsbD 2

end Sys2Proof.Machine
end

