-- ==== Sys2Proof/Machine/Ops.lean ====
section
/-! DEFINITION. The named operations every meaning is built from: the two byte memories (spec/20_memory.md R52 to R56), the ports
(spec/00_scope.md R11), raising a fault (spec/60_exceptions.md R240) and refusing an operation after one (R246), and taking the next
host action from the incoming port (spec/44_persistence_and_host.md R226). -/

namespace Sys2Proof.Machine

/-! ## Effects that may raise a fault -/

/-- What a part of an operation leaves: a value and the state, or, after a raised fault, only the state. -/
inductive Eff (α : Type) where
  | ok (v : α) (s : State)
  | raised (s : State)

/-- One part after another: nothing after a raised fault starts (R240, R244). -/
def Eff.bind {α β : Type} (e : Eff α) (k : α → State → Eff β) : Eff β :=
  match e with
  | .ok v s => k v s
  | .raised s => .raised s

/-- RAISING A FAULT (R240): `FAULT` takes the code and the info, everything done before stays, the rest is abandoned. The block has no
trap entry, no saved state, no handler and no return (R247, R248). -/
def raise {α : Type} (f : BlockFault) (s : State) : Eff α := .raised { s with fault := some f }

/-- The end of an operation: the returned value goes to the caller; a fault returns none (R160). -/
def finish (e : Eff OpResult) : Host.Outcome State Fault Refusal :=
  match e with
  | .ok r s => .next { s with result := r }
  | .raised s => .next { s with result := .noValue }

/-- An operation of the block (R110, R246): while `FAULT` is set it is refused with no effect; otherwise it runs to completion (R60). -/
def operation (body : State → Eff OpResult) (s : State) : Host.Outcome State Fault Refusal :=
  match s.fault with
  | some _ => .next { s with result := .refused }
  | none => finish (body s)

/-- An operation that returns nothing. -/
def command (body : State → Eff Unit) (s : State) : Host.Outcome State Fault Refusal :=
  operation (fun t => (body t).bind fun _ u => .ok .noValue u) s

/-! ## Byte memories -/

/-- One byte of a memory. -/
def Memory.read : Memory → Nat → Byte
  | [], _ => Memory.unlisted
  | (k, b) :: m, a => if k = a then b else Memory.read m a

/-- A memory without the pair of one address. -/
def Memory.erase (m : Memory) (a : Nat) : Memory := m.filter fun c => c.1 != a

/-- A pair put before the first greater address. -/
def Memory.insert : Memory → Nat → Byte → Memory
  | [], a, b => [(a, b)]
  | (k, v) :: m, a, b => if a < k then (a, b) :: (k, v) :: m else (k, v) :: Memory.insert m a b

/-- One byte written; the canonical form is kept. -/
def Memory.write (m : Memory) (a : Nat) (b : Byte) : Memory :=
  if b = Memory.unlisted then Memory.erase m a else Memory.insert (Memory.erase m a) a b

/-- The `n` bytes at `addr`, each address mod 2^32 (R51, R53). -/
def guestBytes (m : Memory) (addr : Word) (n : Nat) : List Byte :=
  (List.range n).map fun k => m.read (guestAddr addr k)

/-- `MemRead` of one byte (R52). -/
def guestByte (m : Memory) (addr : Word) : Byte := m.read (guestAddr addr 0)

/-- `MemRead` of two bytes, big-endian (R52). -/
def guestHalf (m : Memory) (addr : Word) : Half :=
  be16 (m.read (guestAddr addr 0)) (m.read (guestAddr addr 1))

/-- `MemRead` of four bytes, big-endian (R52). -/
def guestWord (m : Memory) (addr : Word) : Word :=
  be32 (m.read (guestAddr addr 0)) (m.read (guestAddr addr 1)) (m.read (guestAddr addr 2)) (m.read (guestAddr addr 3))

/-- `MemWrite` of four bytes, big-endian (R52). -/
def storeWord (m : Memory) (addr : Word) (v : Word) : Memory :=
  ((((m.write (guestAddr addr 0) (v.extractLsb' 24 8)).write (guestAddr addr 1) (v.extractLsb' 16 8)).write
    (guestAddr addr 2) (v.extractLsb' 8 8)).write (guestAddr addr 3) (v.extractLsb' 0 8))

/-! ## The ports -/

/-- The access trace of R141 and R198. -/
def State.traced (s : State) (e : TraceEntry) : State := { s with trace := e :: s.trace }

/-- `MemWrite(addr, 4, v)` on the guest-memory port (R52). -/
def memWrite (addr : Word) (v : Word) (s : State) : State :=
  { s with guest := storeWord s.guest addr v, trace := .guestWrite addr v :: s.trace }

/-- `MailPush(w)` (R11, R29). -/
def mailPush (w : Word) (s : State) : State :=
  { s with outq := s.outq ++ [w], trace := .pushed w :: s.trace }

/-- `Emit` (R11). -/
def emit (e : Event) (s : State) : State := { s with events := s.events ++ [e] }

/-! ## The working buffer -/

/-- `WbRead(i)` (R56). -/
def wbRead (i : Nat) (s : State) : Eff Byte :=
  if s.cfg.wbufBytes ≤ i then raise (.wbufOutOfRange i) s else .ok (s.wbuf.read i) s

/-- `WbWrite(i, b)` (R56). -/
def wbWrite (i : Nat) (b : Byte) (s : State) : Eff Unit :=
  if s.cfg.wbufBytes ≤ i then raise (.wbufOutOfRange i) s else .ok () { s with wbuf := s.wbuf.write i b }

/-! ## The incoming port -/

/-- The host writes one byte of guest memory between operations (R227). -/
def hostStoreGuest (addr : Word) (b : Byte) (s : State) : State :=
  { s with guest := s.guest.write (guestAddr addr 0) b }

/-- The host sets up one byte of the working buffer (R275 item 4); a byte past the buffer's end does not exist, and nothing
changes. DESIGN CHOICE (notes/assumptions/8.md); safe. -/
def hostStoreWbuf (i : Nat) (b : Byte) (s : State) : State :=
  if s.cfg.wbufBytes ≤ i then s else { s with wbuf := s.wbuf.write i b }

/-- What the next step does. -/
inductive Fetched where
  /-- Nothing is delivered: the block holds its state (R256). -/
  | idle
  /-- The host changed a memory between operations (R227). -/
  | hosted (t : State)
  /-- An operation: its instruction, decoded in the context read at entry (R81), and the state it starts in. -/
  | run (i : Instr) (t : State)

/-- The next host action, taken from the incoming port. -/
def fetch (s : State) : Fetched :=
  match s.inbox with
  | [] => .idle
  | .storeGuest a b :: rest => .hosted (hostStoreGuest a b { s with inbox := rest })
  | .storeWbuf i b :: rest => .hosted (hostStoreWbuf i b { s with inbox := rest })
  | .request op :: rest => .run (decodeOp s.context op) { s with inbox := rest }

end Sys2Proof.Machine
end

