-- ==== Sys2Proof/Machine/HostPort.lean ====
section
/-! DEFINITION. The host's port operations (spec/44_persistence_and_host.md R221 to R225, spec/70_reset_and_hazards.md R270) and
the construction of a block (R271). -/

namespace Sys2Proof.Machine

/-- `POLL` (R224): one `HostIRQ` while outgoing mail is pending. -/
def execPoll (s : State) : Host.Outcome State Fault Refusal :=
  command (fun s => .ok () (if s.irqPending then emit .hostIrq s else s)) s

/-- `POP` (R225): the transport's, so it runs after a fault too (R246). -/
def execPop (s : State) : Host.Outcome State Fault Refusal :=
  match s.outq with
  | [] => .next { s with result := .empty }
  | w :: rest => .next { s with outq := rest, result := .word w }

/-- `SAVE` (R221): the snapshot view. -/
def execSave (s : State) : Host.Outcome State Fault Refusal :=
  operation (fun s => .ok (.word s.snap) s) s

/-- `RESTORE` (R222): the two persisted fields, or the fault of a value no save produces. -/
def execRestore (v : Word) (s : State) : Host.Outcome State Fault Refusal :=
  command (fun s =>
    if snapBad v then raise (.snapBadValue v) s
    else .ok () { s with pstate := snapPState v, upload := snapUpload v }) s

/-- The four writes of `RESET` (R270): `MailPush(INIT_MAIL)`, the state, the upload flag, the accelerator. -/
def restart (s : State) : State :=
  { s with
    outq := s.outq ++ [s.cfg.initMail]
    trace := .pushed s.cfg.initMail :: s.trace
    pstate := .aur
    upload := false
    acc := ⟨none, none, none, none⟩ }

/-- `RESET` (R270). -/
def execReset (s : State) : Host.Outcome State Fault Refusal :=
  command (fun s => .ok () (restart s)) s

/-- The block as it is created, before its first RESET (R271): the arguments, the two memories, nothing in `OUTQ`, no fault. What the
first RESET writes or leaves unspecified stands as in `State.reset`. -/
def State.constructed (c : Construction) (wbufInit guestMem : Memory) : State :=
  { State.reset with cfg := c, outq := [], wbuf := wbufInit, guest := guestMem, trace := [] }

end Sys2Proof.Machine
end

