-- ==== Sys2Proof/Machine/Accel.lean ====
section
/-! DEFINITION. The accelerator (spec/42_accelerator.md): its operations, as the hash engine issues them, and the meanings of its seven
rows of the opcode table. -/

namespace Sys2Proof.Machine

/-! ## Configuration -/

/-- `set_granularity(m)` (R151): the mode alone; the units are not rescaled (R277). -/
def setGranularity (m : AccMode) (s : State) : Eff Unit := .ok () { s with acc := { s.acc with mode := some m } }

/-- `set_bounds(s, e)` (R152). -/
def setBounds (first last : Word) (s : State) : Eff Unit :=
  if last < first then raise (.accBadBounds first last) s
  else .ok () { s with acc := { s.acc with start := some first, stop := some last } }

/-- `set_cursor(c)` (R153). -/
def setCursor (c : Word) (s : State) : Eff Unit := .ok () { s with acc := { s.acc with cur := some c } }

/-! ## Checks and advance -/

/-- The window and the cursor of a configured accelerator. -/
structure AccWindow where
  start : Word
  stop : Word
  cur : Word
  deriving DecidableEq, Repr

/-- `access_prologue()` (R158, R159): configured, then inside the window. -/
def accPrologue (s : State) : Eff AccWindow :=
  match s.acc.mode, s.acc.start, s.acc.stop, s.acc.cur with
  | some _, some a, some e, some c =>
    if c < a ∨ e < c then raise (.accOutOfWindow c) s else .ok ⟨a, e, c⟩ s
  | _, _, _, _ => raise .accUnconfigured s

/-- `advance()` (R160): at the window's end the cursor wraps and the end-of-range fault is raised after it. -/
def accAdvance (w : AccWindow) (s : State) : Eff Unit :=
  if w.cur = w.stop then
    raise (.accEndOfRange w.stop) { s with acc := { s.acc with cur := some w.start } }
  else .ok () { s with acc := { s.acc with cur := some (w.cur + 1#32) } }

/-! ## Data operations, checks in the order of R161 -/

/-- `read_next()` in word mode (R154). -/
def readWord (s : State) : Eff Half :=
  (accPrologue s).bind fun w s =>
  (wbRead (wordHighIndex w.cur) s).bind fun hi s =>
  (wbRead (wordLowIndex w.cur) s).bind fun lo s =>
  (accAdvance w (s.traced (.wordRead w.cur))).bind fun _ s =>
  .ok (be16 hi lo) s

/-- `read_next()` in nibble mode (R155). -/
def readNibble (s : State) : Eff Nibble :=
  (accPrologue s).bind fun w s =>
  (wbRead (nibbleIndex w.cur) s).bind fun b s =>
  (accAdvance w (s.traced (.nibbleRead w.cur))).bind fun _ s =>
  .ok (nibbleOf w.cur b) s

/-- `write_next(v)` in word mode (R156): both bytes are checked before either is written. -/
def writeWord (v : Half) (s : State) : Eff Unit :=
  (accPrologue s).bind fun w s =>
  if s.cfg.wbufBytes ≤ wordLowIndex w.cur then raise (.wbufOutOfRange (wordLowIndex w.cur)) s
  else
    (wbWrite (wordHighIndex w.cur) (highByte v) s).bind fun _ s =>
    (wbWrite (wordLowIndex w.cur) (lowByte v) s).bind fun _ s =>
    accAdvance w (s.traced (.wordWrite w.cur))

/-- `write_next(v)` in nibble mode (R157): refused by a fault after the prologue; nothing is written. -/
def writeNibble (_v : Nibble) (s : State) : Eff Unit :=
  (accPrologue s).bind fun _ s => raise .accUnsupported s

/-! ## Meanings -/

/-- `ACC_SET_GRANULARITY` (R151). -/
def execAccSetGranularity (m : AccMode) (s : State) : Host.Outcome State Fault Refusal := command (setGranularity m) s

/-- `ACC_SET_BOUNDS` (R152). -/
def execAccSetBounds (first last : Word) (s : State) : Host.Outcome State Fault Refusal := command (setBounds first last) s

/-- `ACC_SET_CURSOR` (R153). -/
def execAccSetCursor (c : Word) (s : State) : Host.Outcome State Fault Refusal := command (setCursor c) s

/-- `ACC_READ_WORD` (R154). -/
def execAccReadWord (s : State) : Host.Outcome State Fault Refusal :=
  operation (fun s => (readWord s).bind fun h s => .ok (.half h) s) s

/-- `ACC_READ_NIBBLE` (R155). -/
def execAccReadNibble (s : State) : Host.Outcome State Fault Refusal :=
  operation (fun s => (readNibble s).bind fun n s => .ok (.nibble n) s) s

/-- `ACC_WRITE_WORD` (R156). -/
def execAccWriteWord (v : Half) (s : State) : Host.Outcome State Fault Refusal := command (writeWord v) s

/-- `ACC_WRITE_NIBBLE` (R157). -/
def execAccWriteNibble (v : Nibble) (s : State) : Host.Outcome State Fault Refusal := command (writeNibble v) s

end Sys2Proof.Machine
end

