-- ==== Sys2Proof/Machine/Params.lean ====
section
/-! DEFINITION. The parameter decoder (spec/41_parameters.md): the 16-byte request record of spec/30_encoding.md R89. -/

namespace Sys2Proof.Machine

/-- The record's five fields at a guest address, all big-endian (R89, R140). -/
def recordAt (m : Memory) (addr : Word) : RequestParams :=
  { sourceAddress := guestWord m (addr + sourceOffset)
    reserved := guestHalf m (addr + reservedOffset)
    inputSize := guestHalf m (addr + sizeOffset)
    workAddress := guestWord m (addr + workOffset)
    outputAddress := guestWord m (addr + outputOffset) }

/-- `read_parameters(ADDR)` (R140): five reads, in offset order, the reserved field's among them (R141), latched in `P`. -/
def readRecord (addr : Word) (s : State) : State :=
  { s with
    req := recordAt s.guest addr
    trace := .guestRead (addr + outputOffset) 4 :: .guestRead (addr + workOffset) 4 :: .guestRead (addr + sizeOffset) 2 ::
      .guestRead (addr + reservedOffset) 2 :: .guestRead (addr + sourceOffset) 4 :: s.trace }

/-- `read_parameters` (R140); it returns `P`. -/
def execReadParameters (addr : Word) (s : State) : Host.Outcome State Fault Refusal :=
  operation (fun s => .ok (.record (readRecord addr s).req) (readRecord addr s)) s

end Sys2Proof.Machine
end

