-- ==== Sys2Proof/Machine/Hash.lean ====
section
/-! DEFINITION. The hash engine (spec/43_hash_engine.md): the combining step (R190 to R194), the nine steps of a hash (R181 to R189, R197),
and run_request, which is the decoder and then the hash (spec/40_protocol.md R115). -/

namespace Sys2Proof.Machine

/-! ## The combining step -/

/-- The 16-bit mixing value of R190: the new low and the old low nibble, bit 7 copied into bits 15 to 8, then the other two
nibbles xored in. -/
def mixed (prev1 prev2 new1 new2 : Nibble) : Half :=
  let m0 : Half := (new2.setWidth 16 <<< 4) ||| prev2.setWidth 16
  let m1 : Half := if m0 &&& 0x0080#16 ≠ 0#16 then m0 ||| 0xFF00#16 else m0
  let m2 : Half := m1 ^^^ (prev1.setWidth 16 <<< 8)
  m2 ^^^ (new1.setWidth 16 <<< 12)

/-- R9, R192: the 32-bit right rotation by `r mod 32` places. -/
def rotr32 (x : Word) (r : Nat) : Word := (x >>> (r % 32)) ||| (x <<< (32 - r % 32))

/-- R190, R193: one combining step on the six registers. -/
def combineRegs (r : HashRegs) (prev1 prev2 new1 new2 : Nibble) : HashRegs :=
  let a : Word := r.accA + (mixed prev1 prev2 new1 new2).setWidth 32
  let combined : Word := (r.accC ^^^ r.accD) + a
  let steps : Half := r.stepCounter + 1#16
  let rotate : Nat := (r.rotBase.toNat + steps.toNat) % 32
  let b : Word := r.accB + rotr32 combined rotate
  let c : Word := (~~~a &&& b) ||| (a &&& r.accD)
  let d : Word := a ^^^ b ^^^ c
  { accA := a, accB := b, accC := c, accD := d, rotBase := r.rotBase, stepCounter := steps }

/-- `combine` (R190) in the state. -/
def combineStep (prev1 prev2 new1 new2 : Nibble) (s : State) : State :=
  { s with he := combineRegs s.he prev1 prev2 new1 new2, trace := .combined :: s.trace }

/-! ## Steps 1 to 3: copy, load, initial state -/

/-- Step 1 (R181): one bulk read of exactly the rounded length into `LBUF`; none for size 0 (R196). -/
def copyInput (s : State) : State :=
  let len := round4 s.req.inputSize
  { s with
    tr := { s.tr with lbuf := guestBytes s.guest s.req.sourceAddress len }
    trace := if len = 0 then s.trace else .guestBulkRead s.req.sourceAddress len :: s.trace }

/-- R182, R185: one accelerator configuration of the hash. -/
def configure (m : AccMode) (last cursor : Word) (s : State) : Eff Unit :=
  (setGranularity m s).bind fun _ s => (setBounds 0#32 last s).bind fun _ s => setCursor cursor s

/-- `byte_sum <- byte_sum + v` (R183). -/
def addByteSum (v : Word) (s : State) : State := { s with tr := { s.tr with byteSum := s.tr.byteSum + v } }

/-- The loop of `load_words` (R183) over what is left of `LBUF`, with `n` input bytes left: two bytes a word, and for an odd
size one word more of the last input byte and the padding byte after it, which is not summed. -/
def loadFrom : List Byte → Nat → State → Eff Unit
  | hi :: lo :: rest, n + 2, s =>
    (writeWord (be16 hi lo) s).bind fun _ s => loadFrom rest n (addByteSum (hi.setWidth 32 + lo.setWidth 32) s)
  | hi :: lo :: _, 1, s =>
    (writeWord (be16 hi lo) s).bind fun _ s => .ok () (addByteSum (hi.setWidth 32) s)
  | _, _, s => .ok () s

/-- `load_words` (R183). -/
def loadWords (s : State) : Eff Unit :=
  loadFrom s.tr.lbuf s.req.inputSize.toNat { s with tr := { s.tr with byteSum := 0#32 } }

/-- R184: the four seeds. -/
def seedA : Word := 0x170A7489#32
def seedB : Word := 0x05EFE0AA#32
def seedC : Word := 0xDAF4B157#32
def seedD : Word := 0x6BBEC3B6#32

/-- R184: the six registers at the start of a hash. (The sums commute; with the constant first no proof unrolls it.) -/
def initRegs (byteSum : Word) : HashRegs :=
  { accA := seedA + byteSum
    accB := seedB
    accC := seedC
    accD := seedD
    rotBase := (8#32 + byteSum).setWidth 16
    stepCounter := 0#16 }

/-- Step 3 (R184). -/
def initState (s : State) : State := { s with he := initRegs s.tr.byteSum }

/-! ## Steps 5 to 8: the nibbles -/

/-- Step 5 (R186): the first nibble pair. -/
def readFirstPair (s : State) : Eff Unit :=
  (readNibble s).bind fun p1 s =>
  (readNibble { s with tr := { s.tr with prev1 := p1 } }).bind fun p2 s =>
  .ok () { s with tr := { s.tr with prev2 := p2 } }

/-- Two fresh nibbles and one combining step with the previous pair (R188, R189); the new pair is returned. -/
def combineNext (s : State) : Eff (Nibble × Nibble) :=
  (readNibble s).bind fun n1 s =>
  (readNibble s).bind fun n2 s =>
  .ok (n1, n2) (combineStep s.tr.prev1 s.tr.prev2 n1 n2 s)

/-- One pass of R188's inner loop: a combining step, then the new pair becomes the previous one. -/
def innerStep (k : BitVec 1) (s : State) : Eff Unit :=
  (combineNext { s with tr := { s.tr with subIndex := k } }).bind fun p s =>
  .ok () { s with tr := { s.tr with prev1 := p.1, prev2 := p.2 } }

/-- Step 7 (R188): what is left of the outer loop. -/
def mainLoop : Nat → State → Eff Unit
  | 0, s => .ok () s
  | k + 1, s =>
    (innerStep 0#1 s).bind fun _ s =>
    (innerStep 1#1 s).bind fun _ s =>
    mainLoop k { s with tr := { s.tr with pairIndex := s.tr.pairIndex + 1#16 } }

/-- Step 8 (R189): one more combining step for an even size, with no update of the previous pair. -/
def finalStep (s : State) : Eff Unit :=
  if s.req.inputSize.toNat % 2 = 0 then (combineNext s).bind fun _ s => .ok () s else .ok () s

/-- Step 6 (R187), and the outer loop's index at its start. -/
def setPairCount (s : State) : State :=
  { s with tr := { s.tr with pairCount := pairCount s.req.inputSize, pairIndex := 0#16 } }

/-- Steps 5 to 8 on a configured accelerator. -/
def hashNibbles (s : State) : Eff Unit :=
  (readFirstPair s).bind fun _ s =>
  (mainLoop (setPairCount s).tr.pairCount.toNat (setPairCount s)).bind fun _ s =>
  finalStep s

/-! ## The whole hash -/

/-- Steps 1 to 8: everything but the result write. -/
def hashBody (s : State) : Eff Unit :=
  (configure .word wordWindowEnd s.req.workAddress (copyInput s)).bind fun _ s =>
  (loadWords s).bind fun _ s =>
  (configure .nibble nibbleWindowEnd (nibbleCursor s.req.workAddress) (initState s)).bind fun _ s =>
  hashNibbles s

/-- `compute_hash(P)` (R180): steps 1 to 8, then the result write of step 9 (R197). DESIGN CHOICE (notes/assumptions/17.md): the hash
registers, the transients and `P`, which R20 leaves unspecified between hashes, keep what this hash wrote; unsafe for claims about them
there. -/
def hashRequest (s : State) : Eff Unit :=
  (hashBody s).bind fun _ s => .ok () (memWrite s.req.outputAddress s.he.accB s)

/-- `run_request(ADDR)` (R115). -/
def runRequest (addr : Word) (s : State) : Eff Unit := hashRequest (readRecord addr s)

/-! ## Meanings -/

/-- `combine` (R190). -/
def execCombine (prev1 prev2 new1 new2 : Nibble) (s : State) : Host.Outcome State Fault Refusal :=
  command (fun s => .ok () (combineStep prev1 prev2 new1 new2 s)) s

/-- `compute_hash` (R180). -/
def execComputeHash (s : State) : Host.Outcome State Fault Refusal := command hashRequest s

/-- `run_request` (R115). -/
def execRunRequest (addr : Word) (s : State) : Host.Outcome State Fault Refusal := command (runRequest addr) s

end Sys2Proof.Machine
end

