-- ==== Sys2Proof/Machine/Protocol.lean ====
section
/-! DEFINITION. The mail instructions of the protocol state machine (spec/40_protocol.md R112 to R120). Each is the row's own effect; that the
row's context holds is the decoder's business (R110). -/

namespace Sys2Proof.Machine

/-- `FORWARD` (R112). -/
def execForward (w : Word) (s : State) : Host.Outcome State Fault Refusal :=
  command (fun s => .ok () (emit (.forward w) s)) s

/-- `UNLOCK` (R113). -/
def execUnlock (s : State) : Host.Outcome State Fault Refusal :=
  command (fun s => .ok () { s with pstate := .apa }) s

/-- `IGN_AUR` (R114): the warning and nothing else. -/
def execIgnAur (w : Word) (s : State) : Host.Outcome State Fault Refusal :=
  command (fun s => .ok () (emit (.warn w) s)) s

/-- `PARAMS` (R116): the hash, then the done word, then the next state; a fault of the hash stops it before both (R117). -/
def execParams (w : Word) (s : State) : Host.Outcome State Fault Refusal :=
  command (fun s => (runRequest (recordAddress s.cfg w) s).bind fun _ s =>
    .ok () { mailPush s.cfg.doneMail s with pstate := .anc }) s

/-- `NEWUC` (R118). -/
def execNewuc (s : State) : Host.Outcome State Fault Refusal :=
  command (fun s => .ok () { s with upload := true }) s

/-- `RESETUC` (R120): one `Switch`; the state stays (R121). -/
def execResetuc (s : State) : Host.Outcome State Fault Refusal :=
  command (fun s => .ok () (emit (.switch s.cfg.defaultModuleId) s)) s

/-- `IGN_ANC` (R119): the warning and nothing else. -/
def execIgnAnc (w : Word) (s : State) : Host.Outcome State Fault Refusal :=
  command (fun s => .ok () (emit (.warn w) s)) s

end Sys2Proof.Machine
end

