-- ==== Sys2Proof/Machine/Dispatch.lean ====
section
/-! DEFINITION. One arm per instruction, each a direct call of its meaning. -/

namespace Sys2Proof.Machine

def exec (i : Instr) (s : State) : Host.Outcome State Fault Refusal :=
  match i with
  | .forward w => Sys2Proof.Machine.execForward w s
  | .unlock => Sys2Proof.Machine.execUnlock s
  | .ignAur w => Sys2Proof.Machine.execIgnAur w s
  | .params w => Sys2Proof.Machine.execParams w s
  | .newuc => Sys2Proof.Machine.execNewuc s
  | .resetuc => Sys2Proof.Machine.execResetuc s
  | .ignAnc w => Sys2Proof.Machine.execIgnAnc w s
  | .poll => Sys2Proof.Machine.execPoll s
  | .pop => Sys2Proof.Machine.execPop s
  | .save => Sys2Proof.Machine.execSave s
  | .restore snap => Sys2Proof.Machine.execRestore snap s
  | .reset => Sys2Proof.Machine.execReset s
  | .runRequest addr => Sys2Proof.Machine.execRunRequest addr s
  | .readParameters addr => Sys2Proof.Machine.execReadParameters addr s
  | .computeHash => Sys2Proof.Machine.execComputeHash s
  | .combine prev1 prev2 new1 new2 => Sys2Proof.Machine.execCombine prev1 prev2 new1 new2 s
  | .accSetGranularity mode => Sys2Proof.Machine.execAccSetGranularity mode s
  | .accSetBounds first last => Sys2Proof.Machine.execAccSetBounds first last s
  | .accSetCursor cursor => Sys2Proof.Machine.execAccSetCursor cursor s
  | .accReadWord => Sys2Proof.Machine.execAccReadWord s
  | .accReadNibble => Sys2Proof.Machine.execAccReadNibble s
  | .accWriteWord v => Sys2Proof.Machine.execAccWriteWord v s
  | .accWriteNibble v => Sys2Proof.Machine.execAccWriteNibble v s

end Sys2Proof.Machine
end

