-- ==== Sys2Proof/Machine/Step.lean ====
section
/-! DEFINITION. One step: the next host action, run to completion (spec/20_memory.md R60, spec/44_persistence_and_host.md R226), and how a bare
mail word is placed where the next step takes it. -/

namespace Sys2Proof.Machine

/-- One host action. With nothing delivered the block holds its state (R256). -/
def step (s : State) : Host.Outcome State Fault Refusal :=
  match fetch s with
  | .idle => .next s
  | .hosted t => .next t
  | .run i t => exec i t

/-- The state whose next step is the delivery of this mail word, in the context in which the opcode table's row is tried: the word
stands first at the incoming port, and `UPLOAD` and `PSTATE`, which select the row (R82), are that context's
(notes/assumptions/9.md). -/
def State.withFetchWord (s : State) (nbits w : Nat) : State :=
  { s with
    inbox := .request (.mail (tableWord nbits w)) :: s.inbox
    upload := (tableContext (tableWord nbits w)).upload
    pstate := (tableContext (tableWord nbits w)).pstate }

end Sys2Proof.Machine
end

