-- ==== Sys2Proof/Safety.lean ====
section
/-! DEFINITION. What claims are stated in: the architectural part of a state, the invariant of the machine, the condition of a
fault-free hash (spec/43_hash_engine.md R199), the checksum as a function of bytes, and the observation of a run
(spec/70_reset_and_hazards.md R285). -/

namespace Sys2Proof.Machine

/-! ## Parts of a state -/

/-- A state without the two fields that are the model's own, the last returned value and the access trace: two states with the same
architectural part agree on every item of R20 and on every port. -/
def State.arch (s : State) : State := { s with result := .noValue, trace := [] }

/-- A state without what R272 leaves unspecified after reset (hash registers, transients, `P`) and without the accelerator's
registers, on which no hash may rely (R164). -/
def State.visible (s : State) : State :=
  { s with he := State.reset.he, tr := State.reset.tr, req := State.reset.req, acc := State.reset.acc }

/-- The observation at the end of a run (R285). -/
structure Observation where
  guest : Memory
  outq : List Word
  events : List Event
  snap : Word
  wbuf : Memory
  fault : Option BlockFault
  deriving DecidableEq, Repr

/-- R285. -/
def State.observe (s : State) : Observation :=
  { guest := s.guest, outq := s.outq, events := s.events, snap := s.snap, wbuf := s.wbuf, fault := s.fault }

/-- R285: a run ends successfully only without a fault. -/
def State.endsWell (s : State) : Bool := s.fault.isNone

/-! ## The invariant -/

/-- Every listed address of a memory is below a bound. -/
abbrev Memory.below (m : Memory) (n : Nat) : Prop := ∀ c ∈ m, c.1 < n

/-- R152, R270: the window's two bounds are configured together, the end never before the start. -/
def AccRegs.boundsOk (a : AccRegs) : Bool :=
  match a.start, a.stop with
  | none, none => true
  | some x, some y => decide (x ≤ y)
  | _, _ => false

/-- What every reachable state satisfies: the parameters are in range (R7), both memories are canonical and inside their address spaces
(R50, R55), the accelerator's window is a window (R152), and `LBUF` is never longer than R181 allows. -/
def State.Inv (s : State) : Prop :=
  s.cfg.wf ∧ s.wbuf.wf ∧ s.wbuf.below s.cfg.wbufBytes ∧ s.guest.wf ∧ s.guest.below 4294967296 ∧
    s.acc.boundsOk = true ∧ s.tr.lbuf.length ≤ 65536

/-! ## Fault-free hashes (R199) -/

/-- The first byte the nibble reads of step 5 and after cover: `c0 >> 1` (R186, R196). -/
def firstHashedByte (wa : Word) : Nat := 4 * wa.toNat % 4294967296 / 2

/-- R199: exactly when a hash of this record makes no accelerator fault. -/
def hashFaultFree (c : Construction) (p : RequestParams) : Prop :=
  if p.inputSize.toNat = 0 then
    4 * p.workAddress.toNat % 4294967296 + 262144 ≤ 0x07FFFFFF ∧
      firstHashedByte p.workAddress + 131072 ≤ c.wbufBytes
  else
    p.workAddress.toNat + (p.inputSize.toNat + 1) / 2 ≤ 0x01FFFFFF ∧
      2 * p.workAddress.toNat + p.inputSize.toNat + p.inputSize.toNat % 2 ≤ c.wbufBytes

/-- R199: the fault of a run of word writes that meets an offending access: past the window, past the buffer, or at the window's end. -/
def wordFault (wbufBytes : Nat) (last u : Word) : BlockFault :=
  if last < u then .accOutOfWindow u
  else if max u.toNat (wbufBytes / 2) ≤ last.toNat then .wbufOutOfRange (2 * max u.toNat (wbufBytes / 2) + 1)
  else .accEndOfRange last

/-- R199: the same for a run of nibble reads. -/
def nibbleFault (wbufBytes : Nat) (last u : Word) : BlockFault :=
  if last < u then .accOutOfWindow u
  else if max u.toNat (2 * wbufBytes) ≤ last.toNat then .wbufOutOfRange (max u.toNat (2 * wbufBytes) / 2)
  else .accEndOfRange last

/-- R199: the fault of a hash that is not fault-free. Only a hash of size 0 can reach an offending nibble read, since the reads of
any other cover only bytes its own load wrote. -/
def hashFault (c : Construction) (p : RequestParams) : BlockFault :=
  if p.inputSize.toNat = 0 then nibbleFault c.wbufBytes nibbleWindowEnd (nibbleCursor p.workAddress)
  else wordFault c.wbufBytes wordWindowEnd p.workAddress

/-- Whether a run of accesses from unit `u` that meets an offending access meets it at the window's end: `limit` is the first unit that
is past the buffer (R160, R199). -/
abbrev stopsAtEnd (limit : Nat) (last u : Word) : Prop := ¬ last < u ∧ last.toNat < max u.toNat limit

/-- Where the cursor stands after a run of accesses from unit `u` that meets an offending access: on the offending unit, past the window
or past the buffer (R159, R56), or, after the access at the window's end, back at `START`, which is 0 in both windows (R160). -/
def stopCursor (limit : Nat) (last u : Word) : Word :=
  if last < u then u
  else if max u.toNat limit ≤ last.toNat then BitVec.ofNat 32 (max u.toNat limit)
  else 0#32

/-- How many words the load of a record writes, up to the offending write if there is one (R183, R117). -/
def writtenWords (c : Construction) (p : RequestParams) : Nat :=
  min ((p.inputSize.toNat + 1) / 2) (min (c.wbufBytes / 2) 0x02000000 - p.workAddress.toNat)

/-- How many of them `byte_sum` counts: the sum follows the write (R183), so not the one at the window's end, which raises. -/
def summedWords (c : Construction) (p : RequestParams) : Nat :=
  min ((p.inputSize.toNat + 1) / 2) (min (c.wbufBytes / 2) 0x01FFFFFF - p.workAddress.toNat)

/-- How many nibble pairs a run of nibble reads from unit `u` reads whole before an offending read: the reads at and past the window's
end and past the buffer return none (R160, R56). -/
def wholePairs (wbufBytes : Nat) (last u : Word) : Nat := (min (2 * wbufBytes) last.toNat - u.toNat) / 2

/-- The nibble pairs a size-0 hash that a fault ends has read whole. -/
def mixedPairs (c : Construction) (p : RequestParams) : Nat :=
  wholePairs c.wbufBytes nibbleWindowEnd (nibbleCursor p.workAddress)

/-! ## The checksum as a function of bytes -/

/-- The unsigned sum of bytes (R183). -/
def sumBytes (l : List Byte) : Word := l.foldl (fun acc b => acc + b.setWidth 32) 0#32

/-- One combining step for each byte after the first: the previous byte's nibbles are the old pair, its own the new pair (R188, R189). -/
def combineBytes (r : HashRegs) (prev : Byte) : List Byte → HashRegs
  | [] => r
  | b :: rest =>
    combineBytes (combineRegs r (highNibble prev) (lowNibble prev) (highNibble b) (lowNibble b)) b rest

/-- The six registers after a hash of these bytes that started from this byte sum. -/
def checksum (byteSum : Word) : List Byte → HashRegs
  | [] => initRegs byteSum
  | b :: rest => combineBytes (initRegs byteSum) b rest

/-- The bytes whose nibbles a hash of this record mixes: the input, or, for size 0, the working-buffer bytes of R196. -/
def mixedBytes (guest wbuf : Memory) (p : RequestParams) : List Byte :=
  if p.inputSize.toNat = 0 then (List.range 131072).map fun k => wbuf.read (firstHashedByte p.workAddress + k)
  else guestBytes guest p.sourceAddress p.inputSize.toNat

/-- The six registers a fault-free hash of this record leaves. -/
def hashRegsOf (guest wbuf : Memory) (p : RequestParams) : HashRegs :=
  checksum (sumBytes (guestBytes guest p.sourceAddress p.inputSize.toNat)) (mixedBytes guest wbuf p)

/-- What a working-buffer byte holds after the load of a record (R183): `LBUF`'s bytes from `2 × work_address` on, the padding byte of
an odd size among them, and every other byte as before. -/
def loadedByte (guest wbuf : Memory) (p : RequestParams) (i : Nat) : Byte :=
  if 2 * p.workAddress.toNat ≤ i ∧ i < 2 * p.workAddress.toNat + p.inputSize.toNat + p.inputSize.toNat % 2 then
    guest.read (guestAddr p.sourceAddress (i - 2 * p.workAddress.toNat))
  else wbuf.read i

/-- What a working-buffer byte holds after a hash that a fault ends: the words written before the fault stay (R117). -/
def partlyLoadedByte (c : Construction) (guest wbuf : Memory) (p : RequestParams) (i : Nat) : Byte :=
  if 2 * p.workAddress.toNat ≤ i ∧ i < 2 * p.workAddress.toNat + 2 * writtenWords c p then
    guest.read (guestAddr p.sourceAddress (i - 2 * p.workAddress.toNat))
  else wbuf.read i

/-! ## The accesses of a hash (R64, R198), newest first as in `State.trace` -/

/-- How many combining steps a hash makes (R198). -/
def combiningSteps (n : Nat) : Nat := if n = 0 then 131071 else n - 1

/-- The load's word writes: `k` of them from a unit on, in ascending order. -/
def loadTrace (u : Word) : Nat → List TraceEntry
  | 0 => []
  | k + 1 => .wordWrite (u + BitVec.ofNat 32 k) :: loadTrace u k

/-- `k` combining steps, each after two nibble reads, from a unit on in ascending order. -/
def stepTrace (u : Word) : Nat → List TraceEntry
  | 0 => []
  | k + 1 => .combined :: .nibbleRead (u + BitVec.ofNat 32 (2 * k + 1)) :: .nibbleRead (u + BitVec.ofNat 32 (2 * k)) ::
      stepTrace u k

/-- The bulk read of step 1, if it reads anything (R181, R196). -/
def copyTrace (p : RequestParams) : List TraceEntry :=
  if p.inputSize.toNat = 0 then [] else [.guestBulkRead p.sourceAddress (round4 p.inputSize)]

/-- Steps 1 to 8 of a fault-free hash of a record (R64 items 2 to 4): the bulk read, the word writes from `work_address` on, the first
nibble pair, and two nibble reads before each combining step. -/
def hashTrace (p : RequestParams) : List TraceEntry :=
  stepTrace (nibbleCursor p.workAddress + 2#32) (combiningSteps p.inputSize.toNat) ++
    .nibbleRead (nibbleCursor p.workAddress + 1#32) :: .nibbleRead (nibbleCursor p.workAddress) ::
      (loadTrace p.workAddress ((p.inputSize.toNat + 1) / 2) ++ copyTrace p)

/-- The reads of `k` nibble pairs from a unit on, each pair after the first followed by its combining step (R186, R188). -/
def pairsTrace (u : Word) : Nat → List TraceEntry
  | 0 => []
  | k + 1 => stepTrace (u + 2#32) k ++ [.nibbleRead (u + 1#32), .nibbleRead u]

/-- The two nibble reads that a run of them which runs into the window's end makes last: the second one raises after its access (R160). -/
def endTrace (limit : Nat) (last u : Word) : List TraceEntry :=
  if stopsAtEnd limit last u then [.nibbleRead last, .nibbleRead (last - 1#32)] else []

/-- The accesses of a hash that a fault ends (R64, R244): the bulk read and the word writes before the fault, the write at the window's end
among them; for size 0 the nibble reads and combining steps before it. -/
def hashStopTrace (c : Construction) (p : RequestParams) : List TraceEntry :=
  if p.inputSize.toNat = 0 then
    endTrace (2 * c.wbufBytes) nibbleWindowEnd (nibbleCursor p.workAddress) ++
      pairsTrace (nibbleCursor p.workAddress) (mixedPairs c p)
  else loadTrace p.workAddress (writtenWords c p) ++ copyTrace p

/-- The five reads of a record (R141), newest first. -/
def recordTrace (addr : Word) : List TraceEntry :=
  [.guestRead (addr + outputOffset) 4, .guestRead (addr + workOffset) 4, .guestRead (addr + sizeOffset) 2,
    .guestRead (addr + reservedOffset) 2, .guestRead (addr + sourceOffset) 4]

/-- A word write of the accelerator. -/
def TraceEntry.isWordWrite : TraceEntry → Bool
  | .wordWrite _ => true
  | _ => false

/-- A nibble read of the accelerator. -/
def TraceEntry.isNibbleRead : TraceEntry → Bool
  | .nibbleRead _ => true
  | _ => false

/-- A combining step. -/
def TraceEntry.isCombined : TraceEntry → Bool
  | .combined => true
  | _ => false

/-- A read of guest memory. -/
def TraceEntry.isGuestRead : TraceEntry → Bool
  | .guestRead _ _ => true
  | .guestBulkRead _ _ => true
  | _ => false

/-! ## What a whole hash leaves -/

/-- What a fault-free hash of record `p` from `s` leaves in `t` (R180, R197), but for `OUTQ` and `PSTATE`, which `PARAMS` alone
writes after it. That `P`, the hash registers and `LBUF` still hold it between hashes (`latch`, `registers`, `copy`), where R20 and R28
leave them unspecified, is the model's choice (notes/assumptions/17.md). -/
structure HashLeaves (s : State) (p : RequestParams) (t : State) : Prop where
  latch : t.req = p
  registers : t.he = hashRegsOf s.guest s.wbuf p
  output : t.guest = storeWord s.guest p.outputAddress (hashRegsOf s.guest s.wbuf p).accB
  buffer : ∀ i, t.wbuf.read i = loadedByte s.guest s.wbuf p i
  copy : t.tr.lbuf = guestBytes s.guest p.sourceAddress (round4 p.inputSize)
  accelerator : t.acc = ⟨some .nibble, some 0#32, some nibbleWindowEnd,
    some (nibbleCursor p.workAddress + BitVec.ofNat 32 (2 * (combiningSteps p.inputSize.toNat + 1)))⟩
  fault : t.fault = none
  cfg : t.cfg = s.cfg
  upload : t.upload = s.upload
  inbox : t.inbox = s.inbox
  events : t.events = s.events

/-- What a hash of record `p` from `s` leaves in `t` when its first offending access faults (R117, R199, R240, R244): the fault, every effect
before that access, and none after it. A hash of size 1 and more stops in the load, before R184 and R185, so its hash registers are as before
and the accelerator is in word mode; one of size 0 stops in its nibble reads. `before` is the trace of the accesses before the hash. -/
structure HashStops (s : State) (p : RequestParams) (before : List TraceEntry) (t : State) : Prop where
  fault : t.fault = some (hashFault s.cfg p)
  latch : t.req = p
  output : t.guest = s.guest
  buffer : ∀ i, t.wbuf.read i = partlyLoadedByte s.cfg s.guest s.wbuf p i
  registers : t.he = if p.inputSize.toNat = 0 then
      checksum 0#32 ((List.range (mixedPairs s.cfg p)).map fun k => s.wbuf.read (firstHashedByte p.workAddress + k))
    else s.he
  accelerator : t.acc = if p.inputSize.toNat = 0 then
      ⟨some .nibble, some 0#32, some nibbleWindowEnd,
        some (stopCursor (2 * s.cfg.wbufBytes) nibbleWindowEnd (nibbleCursor p.workAddress))⟩
    else ⟨some .word, some 0#32, some wordWindowEnd, some (stopCursor (s.cfg.wbufBytes / 2) wordWindowEnd p.workAddress)⟩
  copy : t.tr.lbuf = guestBytes s.guest p.sourceAddress (round4 p.inputSize)
  byteSum : t.tr.byteSum = sumBytes (guestBytes s.guest p.sourceAddress (2 * summedWords s.cfg p))
  transients : p.inputSize.toNat ≠ 0 → t.tr = { s.tr with lbuf := t.tr.lbuf, byteSum := t.tr.byteSum }
  accesses : t.trace = hashStopTrace s.cfg p ++ before
  pstate : t.pstate = s.pstate
  outq : t.outq = s.outq
  cfg : t.cfg = s.cfg
  upload : t.upload = s.upload
  inbox : t.inbox = s.inbox
  events : t.events = s.events

/-! ## Runs -/

/-- Instructions one after another, with what each returned; none if one ends in no next state. -/
def runAll : List Instr → State → Option (List OpResult × State)
  | [], s => some ([], s)
  | i :: rest, s =>
    match exec i s with
    | .next t => (runAll rest t).map fun r => (t.result :: r.1, r.2)
    | .fault _ => none
    | .refused _ => none

/-- Host operations one after another, each decoded in the context it meets (R226). -/
def deliverAll : List HostOp → State → State
  | [], s => s
  | op :: rest, s =>
    match exec (decodeOp s.context op) s with
    | .next t => deliverAll rest t
    | .fault _ => s
    | .refused _ => s

/-- Whether an instruction is `PARAMS`. -/
def isParams : Instr → Bool
  | .params _ => true
  | _ => false

/-- How many hashes the block starts in a run of host operations: the `PARAMS` words a running block takes (R122). -/
def hashesRun : List HostOp → State → Nat
  | [], _ => 0
  | op :: rest, s =>
    (if s.fault = none ∧ isParams (decodeOp s.context op) = true then 1 else 0) +
      match exec (decodeOp s.context op) s with
      | .next t => hashesRun rest t
      | .fault _ => 0
      | .refused _ => 0

/-- The four nibbles of a word, high nibble first (R162). -/
def nibblesOf (v : Half) : List Nibble := [v.extractLsb' 12 4, v.extractLsb' 8 4, v.extractLsb' 4 4, v.extractLsb' 0 4]

end Sys2Proof.Machine
end

