-- ==== Sys2Proof/Certificates/Slice0/Obligations.lean ====
section
/-! DEFINITION. The statements for the provers, from the numbered rules of spec/. A statement compares states by `State.arch`, which drops
only the model's own two fields (the value returned and the access trace, notes/assumptions/10.md and 11.md); a returned value
or an access is stated beside it where a rule gives one. -/

open Sys2Proof Sys2Proof.Machine

/-! ## Mail words -/

/-- R112: while an upload is in progress every word is FORWARD, which emits the word and changes nothing else. -/
def Obligations.ForwardEmitsTheWord : Prop :=
  (∀ c w v, decodeMail c w = .forward v ↔ c.upload = true ∧ v = w) ∧
  ∀ (w : Word) (s : State), s.fault = none →
    ∃ t, exec (.forward w) s = .next t ∧ t.arch = ({ s with events := s.events ++ [.forward w] } : State).arch

/-- R113: UNLOCK is exactly the word 0xFF000000 in AUR, and sets PSTATE to APA and nothing else. -/
def Obligations.UnlockAcceptsTheRequest : Prop :=
  (∀ c w, decodeMail c w = .unlock ↔ c.upload = false ∧ c.pstate = .aur ∧ w = 0xFF000000#32) ∧
  ∀ s : State, s.fault = none → ∃ t, exec .unlock s = .next t ∧ t.arch = ({ s with pstate := .apa } : State).arch

/-- R114, R119: every other word in AUR, and in ANC, warns and changes no state. -/
def Obligations.IgnoredWordsOnlyWarn : Prop :=
  (∀ c w v, decodeMail c w = .ignAur v ↔ c.upload = false ∧ c.pstate = .aur ∧ w ≠ 0xFF000000#32 ∧ v = w) ∧
  (∀ c w v, decodeMail c w = .ignAnc v ↔
    c.upload = false ∧ c.pstate = .anc ∧ w ≠ 0xCDD10001#32 ∧ w ≠ 0xCDD10002#32 ∧ v = w) ∧
  ∀ (w : Word) (s : State), s.fault = none →
    (∃ t, exec (.ignAur w) s = .next t ∧ t.arch = ({ s with events := s.events ++ [.warn w] } : State).arch) ∧
    (∃ t, exec (.ignAnc w) s = .next t ∧ t.arch = ({ s with events := s.events ++ [.warn w] } : State).arch)

/-- R118: NEWUC is exactly the word 0xCDD10001 in ANC, and sets UPLOAD and nothing else; then every word is forwarded. -/
def Obligations.NewucBeginsAnUpload : Prop :=
  (∀ c w, decodeMail c w = .newuc ↔ c.upload = false ∧ c.pstate = .anc ∧ w = 0xCDD10001#32) ∧
  ∀ s : State, s.fault = none →
    ∃ t, exec .newuc s = .next t ∧ t.arch = ({ s with upload := true } : State).arch ∧
      ∀ w, decodeOp t.context (.mail w) = .forward w

/-- R120: RESETUC is exactly the word 0xCDD10002 in ANC, and emits one `Switch` of the default module and changes nothing else. -/
def Obligations.ResetucEmitsOneSwitch : Prop :=
  (∀ c w, decodeMail c w = .resetuc ↔ c.upload = false ∧ c.pstate = .anc ∧ w = 0xCDD10002#32) ∧
  ∀ s : State, s.fault = none →
    ∃ t, exec .resetuc s = .next t ∧
      t.arch = ({ s with events := s.events ++ [.switch s.cfg.defaultModuleId] } : State).arch

/-- R116, R117: every word in (0, APA) is PARAMS. With a record that R199 admits it hashes, pushes DONE_MAIL and goes to ANC; with any
other it stops at the first offending access with what was done before it and nothing after it, pushes nothing and stays. That the hash registers,
`P` and `LBUF` keep their values after a completed hash is the model's choice (notes/assumptions/17.md). -/
def Obligations.ParamsRunsOneHash : Prop :=
  (∀ c w v, decodeMail c w = .params v ↔ c.upload = false ∧ c.pstate = .apa ∧ v = w) ∧
  (∀ (w : Word) (s : State), s.fault = none → hashFaultFree s.cfg (recordAt s.guest (recordAddress s.cfg w)) →
    ∃ t, exec (.params w) s = .next t ∧ HashLeaves s (recordAt s.guest (recordAddress s.cfg w)) t ∧
      t.outq = s.outq ++ [s.cfg.doneMail] ∧ t.pstate = .anc) ∧
  ∀ (w : Word) (s : State), s.fault = none → ¬ hashFaultFree s.cfg (recordAt s.guest (recordAddress s.cfg w)) →
    ∃ t, exec (.params w) s = .next t ∧ HashStops s (recordAt s.guest (recordAddress s.cfg w))
      (recordTrace (recordAddress s.cfg w) ++ s.trace) t

/-- R64: the accesses of a PARAMS that completes, newest first: the five record reads, the bulk read, the word writes, the nibble reads
(two before each combining step), the result write and the push, in this order and no others. The trace is the model's own field
(notes/assumptions/11.md), and that `P` and `acc_b` can be read after the hash is its choice (17.md). -/
def Obligations.ParamsAccessOrder : Prop :=
  ∀ (w : Word) (s : State), s.fault = none → hashFaultFree s.cfg (recordAt s.guest (recordAddress s.cfg w)) →
    ∃ t, exec (.params w) s = .next t ∧
      t.trace = .pushed s.cfg.doneMail :: .guestWrite t.req.outputAddress t.he.accB :: (hashTrace t.req ++
        [.guestRead (recordAddress s.cfg w + 12#32) 4, .guestRead (recordAddress s.cfg w + 8#32) 4,
         .guestRead (recordAddress s.cfg w + 6#32) 2, .guestRead (recordAddress s.cfg w + 4#32) 2,
         .guestRead (recordAddress s.cfg w) 4] ++ s.trace)

/-- R84: the record address is the word's low 28 or low 30 bits. -/
def Obligations.RecordAddressKeepsTheLowBits : Prop :=
  ∀ (c : Construction) (w : Word),
    (c.addrMask = .low28 → (recordAddress c w).toNat = w.toNat % 2 ^ 28) ∧
    (c.addrMask = .low30 → (recordAddress c w).toNat = w.toNat % 2 ^ 30)

/-! ## Host port operations -/

/-- R224: POLL emits one HostIRQ exactly when a word is pending, and changes nothing else. -/
def Obligations.PollSignalsPendingMail : Prop :=
  ∀ s : State, s.fault = none →
    ∃ t, exec .poll s = .next t ∧
      t.arch = ({ s with events := if s.outq = [] then s.events else s.events ++ [.hostIrq] } : State).arch

/-- R225: POP takes the head of OUTQ, in push order, also after a fault; with nothing pending it answers so. -/
def Obligations.PopTakesTheHead : Prop :=
  ∀ s : State,
    (s.outq = [] → ∃ t, exec .pop s = .next t ∧ t.arch = s.arch ∧ t.result = .empty) ∧
    ∀ w rest, s.outq = w :: rest →
      ∃ t, exec .pop s = .next t ∧ t.arch = ({ s with outq := rest } : State).arch ∧ t.result = .word w

/-- R221: SAVE returns `UPLOAD << 2 | PSTATE` and changes nothing. -/
def Obligations.SaveReturnsTheSnapshot : Prop :=
  ∀ s : State, s.fault = none →
    ∃ t, exec .save s = .next t ∧ t.arch = s.arch ∧
      t.result = .word (BitVec.ofNat 32 (4 * s.upload.toNat +
        match s.pstate with
        | .aur => 0
        | .apa => 1
        | .anc => 2))

/-- R222: RESTORE writes PSTATE and UPLOAD from a value a save can produce, and nothing else; any other value raises
`SNAP_BAD_VALUE` and writes nothing. -/
def Obligations.RestoreLoadsTheSnapshot : Prop :=
  ∀ (v : Word) (s : State), s.fault = none →
    (v.toNat < 8 → v.toNat % 4 ≠ 3 →
      ∃ t, exec (.restore v) s = .next t ∧
        t.arch = ({ s with
          pstate := if v.toNat % 4 = 0 then .aur else if v.toNat % 4 = 1 then .apa else .anc
          upload := decide (4 ≤ v.toNat) } : State).arch) ∧
    (8 ≤ v.toNat ∨ v.toNat % 4 = 3 →
      ∃ t, exec (.restore v) s = .next t ∧ t.arch = ({ s with fault := some (.snapBadValue v) } : State).arch)

/-- R223: restoring what a save returned brings both fields back, whatever they were changed to in between. -/
def Obligations.SaveRestoreRoundTrip : Prop :=
  ∀ s u : State, s.fault = none → u.fault = none →
    ∃ t v r, exec .save s = .next t ∧ t.result = .word v ∧ exec (.restore v) u = .next r ∧
      r.arch = ({ u with pstate := s.pstate, upload := s.upload } : State).arch

/-- R270: RESET pushes INIT_MAIL behind the pending words, goes to AUR, clears UPLOAD, unconfigures the accelerator, and writes
nothing else. -/
def Obligations.ResetWritesFourItems : Prop :=
  ∀ s : State, s.fault = none →
    ∃ t, exec .reset s = .next t ∧
      t.arch = ({ s with
        outq := s.outq ++ [s.cfg.initMail]
        pstate := .aur
        upload := false
        acc := ⟨none, none, none, none⟩ } : State).arch

/-- R271, R273: the first state a program sees, after construction with any arguments and the first RESET; and `State.reset` is that
state (its two memories with nothing listed are the model's choice, notes/assumptions/3.md and 4.md). -/
def Obligations.FirstResetState : Prop :=
  (∀ (c : Construction) (wbufInit guestMem : Memory),
    ∃ t, exec .reset (State.constructed c wbufInit guestMem) = .next t ∧
      t.pstate = .aur ∧ t.upload = false ∧ t.outq = [c.initMail] ∧ t.acc = ⟨none, none, none, none⟩ ∧ t.fault = none ∧
      t.cfg = c ∧ t.wbuf = wbufInit ∧ t.guest = guestMem ∧ t.snap = 0#32 ∧ t.irqPending = true ∧ t.events = []) ∧
  exec .reset (State.constructed Config.construction [] []) = .next State.reset

/-! ## The parameter decoder and the hash -/

/-- R140, R141: five big-endian reads at offsets 0, 4, 6, 8 and 12, addresses mod 2^32, latched in P and returned; nothing else
changes. -/
def Obligations.ReadParametersLatchesTheRecord : Prop :=
  ∀ (a : Word) (s : State), s.fault = none →
    let b : Nat → Byte := fun k => s.guest.read ((a.toNat + k) % 2 ^ 32)
    let p : RequestParams :=
      ⟨b 0 ++ b 1 ++ b 2 ++ b 3, b 4 ++ b 5, b 6 ++ b 7, b 8 ++ b 9 ++ b 10 ++ b 11, b 12 ++ b 13 ++ b 14 ++ b 15⟩
    ∃ t, exec (.readParameters a) s = .next t ∧ t.arch = ({ s with req := p } : State).arch ∧ t.result = .record p ∧
      t.trace = [.guestRead (a + 12#32) 4, .guestRead (a + 8#32) 4, .guestRead (a + 6#32) 2, .guestRead (a + 4#32) 2,
        .guestRead a 4] ++ s.trace

/-- R115: `run_request` reads the record and hashes it. That the hash registers, `P` and `LBUF` keep their values after a completed hash is
the model's choice (notes/assumptions/17.md). -/
def Obligations.RunRequestReadsAndHashes : Prop :=
  (∀ (a : Word) (s : State), s.fault = none → hashFaultFree s.cfg (recordAt s.guest a) →
    ∃ t, exec (.runRequest a) s = .next t ∧ HashLeaves s (recordAt s.guest a) t ∧ t.outq = s.outq ∧ t.pstate = s.pstate) ∧
  ∀ (a : Word) (s : State), s.fault = none → ¬ hashFaultFree s.cfg (recordAt s.guest a) →
    ∃ t, exec (.runRequest a) s = .next t ∧ HashStops s (recordAt s.guest a) (recordTrace a ++ s.trace) t

/-- R199: a hash completes, with the checksum of its bytes, exactly when the conditions hold; otherwise it stops with the fault of
its first offending access. That the hash registers, `P` and `LBUF` keep their values after a completed hash is the model's choice
(notes/assumptions/17.md). -/
def Obligations.ComputeHashIsTheChecksum : Prop :=
  (∀ s : State, s.fault = none → hashFaultFree s.cfg s.req →
    ∃ t, exec .computeHash s = .next t ∧ HashLeaves s s.req t ∧ t.outq = s.outq ∧ t.pstate = s.pstate) ∧
  ∀ s : State, s.fault = none → ¬ hashFaultFree s.cfg s.req →
    ∃ t, exec .computeHash s = .next t ∧ HashStops s s.req s.trace t

/-- R198: how many word writes, nibble reads and combining steps a hash makes, and the step counter it leaves; that the counter still holds its
last value after the hash is the model's choice (notes/assumptions/17.md). -/
def Obligations.HashCounts : Prop :=
  ∀ s : State, s.fault = none → hashFaultFree s.cfg s.req →
    ∃ t made, exec .computeHash s = .next t ∧ t.trace = made ++ s.trace ∧
      made.countP TraceEntry.isWordWrite = (s.req.inputSize.toNat + 1) / 2 ∧
      made.countP TraceEntry.isNibbleRead = (if s.req.inputSize = 0#16 then 262144 else 2 * s.req.inputSize.toNat) ∧
      made.countP TraceEntry.isCombined = (if s.req.inputSize = 0#16 then 131071 else s.req.inputSize.toNat - 1) ∧
      t.he.stepCounter = if s.req.inputSize = 0#16 then 0xFFFF#16 else s.req.inputSize - 1#16

/-- R184, R195: a hash of one byte runs no combining step and leaves the initial registers: its result is 0x05EFE0AA. That
the registers can be read after the hash is the model's choice (notes/assumptions/17.md). -/
def Obligations.OneByteHashLeavesTheSeeds : Prop :=
  ∀ s : State, s.fault = none → s.req.inputSize = 1#16 → hashFaultFree s.cfg s.req →
    let x : Byte := s.guest.read s.req.sourceAddress.toNat
    ∃ t, exec .computeHash s = .next t ∧
      t.he = ⟨x.setWidth 32 + 0x170A7489#32, 0x05EFE0AA#32, 0xDAF4B157#32, 0x6BBEC3B6#32, x.setWidth 16 + 8#16, 0#16⟩ ∧
      guestWord t.guest s.req.outputAddress = 0x05EFE0AA#32

/-- R196: a hash of size 0 reads no guest byte, writes no working-buffer byte, and combines 131072 bytes it did not write. That the
registers can be read after the hash is the model's choice (notes/assumptions/17.md). -/
def Obligations.ZeroLengthHashReadsOldBytes : Prop :=
  ∀ s : State, s.fault = none → s.req.inputSize = 0#16 → hashFaultFree s.cfg s.req →
    ∃ t made, exec .computeHash s = .next t ∧ t.trace = made ++ s.trace ∧ made.countP TraceEntry.isGuestRead = 0 ∧
      (∀ i, t.wbuf.read i = s.wbuf.read i) ∧
      t.he = checksum 0#32 ((List.range 131072).map fun k =>
        s.wbuf.read (4 * s.req.workAddress.toNat % 2 ^ 32 / 2 + k))

/-- R200, R201: the result depends only on the size and the input bytes; for size 0, on the working-buffer bytes it reads. It depends
on no address, padding byte, other working-buffer byte or earlier register value. -/
def Obligations.ResultDependsOnlyOnTheInput : Prop :=
  ∀ s1 s2 : State, s1.fault = none → s2.fault = none → hashFaultFree s1.cfg s1.req → hashFaultFree s2.cfg s2.req →
    s1.req.inputSize = s2.req.inputSize →
    (∀ k < s1.req.inputSize.toNat,
      s1.guest.read (guestAddr s1.req.sourceAddress k) = s2.guest.read (guestAddr s2.req.sourceAddress k)) →
    (s1.req.inputSize = 0#16 → ∀ k < 131072,
      s1.wbuf.read (firstHashedByte s1.req.workAddress + k) = s2.wbuf.read (firstHashedByte s2.req.workAddress + k)) →
    ∃ t1 t2, exec .computeHash s1 = .next t1 ∧ exec .computeHash s2 = .next t2 ∧
      guestWord t1.guest s1.req.outputAddress = guestWord t2.guest s2.req.outputAddress

/-- R190 to R193: one combining step, with `mixed` in R191's closed form, the rotate as R192's two shifts, and the updates in R193's
order; nothing else changes. -/
def Obligations.CombineMixesFourNibbles : Prop :=
  ∀ (prev1 prev2 new1 new2 : Nibble) (s : State), s.fault = none →
    let e : Nibble := if new2.getLsbD 3 then 0xF#4 else 0x0#4
    let mixed : Half := (new1 ^^^ e) ++ (prev1 ^^^ e) ++ new2 ++ prev2
    let a : Word := s.he.accA + mixed.setWidth 32
    let combined : Word := (s.he.accC ^^^ s.he.accD) + a
    let steps : Half := s.he.stepCounter + 1#16
    let rotate : Nat := (s.he.rotBase + steps).toNat % 32
    let rotated : Word := if rotate = 0 then combined else (combined >>> rotate) + (combined <<< (32 - rotate))
    let b : Word := s.he.accB + rotated
    let c : Word := (~~~a &&& b) ||| (a &&& s.he.accD)
    let d : Word := a ^^^ b ^^^ c
    ∃ t, exec (.combine prev1 prev2 new1 new2) s = .next t ∧
      t.arch = ({ s with he := ⟨a, b, c, d, s.he.rotBase, steps⟩ } : State).arch

/-! ## The accelerator -/

/-- R151, R152, R153: the three set operations write their own registers and nothing else; a window that ends before it starts raises
`ACC_BAD_BOUNDS` and writes neither bound. -/
def Obligations.AcceleratorSetOperations : Prop :=
  ∀ s : State, s.fault = none →
    (∀ m, ∃ t, exec (.accSetGranularity m) s = .next t ∧
      t.arch = ({ s with acc := ⟨some m, s.acc.start, s.acc.stop, s.acc.cur⟩ } : State).arch) ∧
    (∀ a e : Word, a.toNat ≤ e.toNat → ∃ t, exec (.accSetBounds a e) s = .next t ∧
      t.arch = ({ s with acc := ⟨s.acc.mode, some a, some e, s.acc.cur⟩ } : State).arch) ∧
    (∀ a e : Word, e.toNat < a.toNat → ∃ t, exec (.accSetBounds a e) s = .next t ∧
      t.arch = ({ s with fault := some (.accBadBounds a e) } : State).arch) ∧
    (∀ c, ∃ t, exec (.accSetCursor c) s = .next t ∧
      t.arch = ({ s with acc := ⟨s.acc.mode, s.acc.start, s.acc.stop, some c⟩ } : State).arch)

/-- R154: a word read returns the two bytes of its unit, high byte first, and advances the cursor; nothing else changes. It faults, in
R161's order, unconfigured, outside the window, past the buffer (the first byte in access order), and after the access at
the window's end, where the value is discarded. -/
def Obligations.WordReadRule : Prop :=
  ∀ (s : State), s.fault = none →
    (∀ a e c : Word, s.acc = ⟨some .word, some a, some e, some c⟩ → a.toNat ≤ c.toNat → c.toNat < e.toNat →
      2 * c.toNat + 1 < s.cfg.wbufBytes → ∃ t, exec .accReadWord s = .next t ∧
        t.arch = ({ s with acc := ⟨some .word, some a, some e, some (c + 1#32)⟩ } : State).arch ∧
        t.result = .half (s.wbuf.read (2 * c.toNat) ++ s.wbuf.read (2 * c.toNat + 1))) ∧
    (s.acc.mode = none ∨ s.acc.start = none ∨ s.acc.stop = none ∨ s.acc.cur = none → ∃ t, exec .accReadWord s = .next t ∧
      t.arch = ({ s with fault := some .accUnconfigured } : State).arch) ∧
    (∀ a e c : Word, s.acc = ⟨some .word, some a, some e, some c⟩ → c.toNat < a.toNat ∨ e.toNat < c.toNat →
      ∃ t, exec .accReadWord s = .next t ∧ t.arch = ({ s with fault := some (.accOutOfWindow c) } : State).arch) ∧
    (∀ a e c : Word, s.acc = ⟨some .word, some a, some e, some c⟩ → a.toNat ≤ c.toNat → c.toNat ≤ e.toNat →
      (s.cfg.wbufBytes ≤ 2 * c.toNat → ∃ t, exec .accReadWord s = .next t ∧
        t.arch = ({ s with fault := some (.wbufOutOfRange (2 * c.toNat)) } : State).arch) ∧
      (s.cfg.wbufBytes = 2 * c.toNat + 1 → ∃ t, exec .accReadWord s = .next t ∧
        t.arch = ({ s with fault := some (.wbufOutOfRange (2 * c.toNat + 1)) } : State).arch)) ∧
    (∀ a c : Word, s.acc = ⟨some .word, some a, some c, some c⟩ → a.toNat ≤ c.toNat →
      2 * c.toNat + 1 < s.cfg.wbufBytes → ∃ t, exec .accReadWord s = .next t ∧ t.result = .noValue ∧
        t.arch = ({ s with
          acc := ⟨some .word, some a, some c, some a⟩
          fault := some (.accEndOfRange c) } : State).arch)

/-- R155: a nibble read returns the high nibble of its byte at an even unit, the low one at an odd unit, and advances the cursor; nothing
else changes. Its faults are those of R154. -/
def Obligations.NibbleReadRule : Prop :=
  ∀ (s : State), s.fault = none →
    (∀ a e c : Word, s.acc = ⟨some .nibble, some a, some e, some c⟩ → a.toNat ≤ c.toNat → c.toNat < e.toNat →
      c.toNat / 2 < s.cfg.wbufBytes → ∃ t, exec .accReadNibble s = .next t ∧
        t.arch = ({ s with acc := ⟨some .nibble, some a, some e, some (c + 1#32)⟩ } : State).arch ∧
        t.result = .nibble (if c.getLsbD 0 = false then (s.wbuf.read (c.toNat / 2)).extractLsb' 4 4
          else (s.wbuf.read (c.toNat / 2)).extractLsb' 0 4)) ∧
    (s.acc.mode = none ∨ s.acc.start = none ∨ s.acc.stop = none ∨ s.acc.cur = none → ∃ t, exec .accReadNibble s = .next t ∧
      t.arch = ({ s with fault := some .accUnconfigured } : State).arch) ∧
    (∀ a e c : Word, s.acc = ⟨some .nibble, some a, some e, some c⟩ → c.toNat < a.toNat ∨ e.toNat < c.toNat →
      ∃ t, exec .accReadNibble s = .next t ∧ t.arch = ({ s with fault := some (.accOutOfWindow c) } : State).arch) ∧
    (∀ a e c : Word, s.acc = ⟨some .nibble, some a, some e, some c⟩ → a.toNat ≤ c.toNat → c.toNat ≤ e.toNat →
      s.cfg.wbufBytes ≤ c.toNat / 2 → ∃ t, exec .accReadNibble s = .next t ∧
        t.arch = ({ s with fault := some (.wbufOutOfRange (c.toNat / 2)) } : State).arch) ∧
    (∀ a c : Word, s.acc = ⟨some .nibble, some a, some c, some c⟩ → a.toNat ≤ c.toNat →
      c.toNat / 2 < s.cfg.wbufBytes → ∃ t, exec .accReadNibble s = .next t ∧ t.result = .noValue ∧
        t.arch = ({ s with
          acc := ⟨some .nibble, some a, some c, some a⟩
          fault := some (.accEndOfRange c) } : State).arch)

/-- R156: a word write writes the two bytes of its unit, high byte first, and advances the cursor; every other byte and everything else is
unchanged. Past the buffer neither byte is written; at the window's end both are, before the fault. -/
def Obligations.WordWriteRule : Prop :=
  ∀ (s : State) (v : Half), s.fault = none →
    (∀ a e c : Word, s.acc = ⟨some .word, some a, some e, some c⟩ → a.toNat ≤ c.toNat → c.toNat < e.toNat →
      2 * c.toNat + 1 < s.cfg.wbufBytes → ∃ t, exec (.accWriteWord v) s = .next t ∧
        t.arch = ({ s with wbuf := t.wbuf, acc := ⟨some .word, some a, some e, some (c + 1#32)⟩ } : State).arch ∧
        ∀ i, t.wbuf.read i = if i = 2 * c.toNat then v.extractLsb' 8 8
          else if i = 2 * c.toNat + 1 then v.extractLsb' 0 8 else s.wbuf.read i) ∧
    (s.acc.mode = none ∨ s.acc.start = none ∨ s.acc.stop = none ∨ s.acc.cur = none → ∃ t, exec (.accWriteWord v) s = .next t ∧
      t.arch = ({ s with fault := some .accUnconfigured } : State).arch) ∧
    (∀ a e c : Word, s.acc = ⟨some .word, some a, some e, some c⟩ → c.toNat < a.toNat ∨ e.toNat < c.toNat →
      ∃ t, exec (.accWriteWord v) s = .next t ∧ t.arch = ({ s with fault := some (.accOutOfWindow c) } : State).arch) ∧
    (∀ a e c : Word, s.acc = ⟨some .word, some a, some e, some c⟩ → a.toNat ≤ c.toNat → c.toNat ≤ e.toNat →
      s.cfg.wbufBytes ≤ 2 * c.toNat + 1 → ∃ t, exec (.accWriteWord v) s = .next t ∧
        t.arch = ({ s with fault := some (.wbufOutOfRange (2 * c.toNat + 1)) } : State).arch) ∧
    (∀ a c : Word, s.acc = ⟨some .word, some a, some c, some c⟩ → a.toNat ≤ c.toNat →
      2 * c.toNat + 1 < s.cfg.wbufBytes → ∃ t, exec (.accWriteWord v) s = .next t ∧
        t.arch = ({ s with
          wbuf := t.wbuf
          acc := ⟨some .word, some a, some c, some a⟩
          fault := some (.accEndOfRange c) } : State).arch ∧
        ∀ i, t.wbuf.read i = if i = 2 * c.toNat then v.extractLsb' 8 8
          else if i = 2 * c.toNat + 1 then v.extractLsb' 0 8 else s.wbuf.read i)

/-- R157: a nibble write is refused: after the prologue's own two faults it raises `ACC_UNSUPPORTED`, and never writes anything. -/
def Obligations.NibbleWriteRule : Prop :=
  ∀ (s : State) (v : Nibble), s.fault = none →
    (∀ a e c : Word, s.acc = ⟨some .nibble, some a, some e, some c⟩ → a.toNat ≤ c.toNat → c.toNat ≤ e.toNat →
      ∃ t, exec (.accWriteNibble v) s = .next t ∧ t.arch = ({ s with fault := some .accUnsupported } : State).arch) ∧
    (s.acc.mode = none ∨ s.acc.start = none ∨ s.acc.stop = none ∨ s.acc.cur = none →
      ∃ t, exec (.accWriteNibble v) s = .next t ∧ t.arch = ({ s with fault := some .accUnconfigured } : State).arch) ∧
    (∀ a e c : Word, s.acc = ⟨some .nibble, some a, some e, some c⟩ → c.toNat < a.toNat ∨ e.toNat < c.toNat →
      ∃ t, exec (.accWriteNibble v) s = .next t ∧ t.arch = ({ s with fault := some (.accOutOfWindow c) } : State).arch)

/-- R160: an access that R158, R159 and R56 admit moves the cursor to `START + ((CUR - START + 1) mod (END - START + 1))`, which is the
next unit, or START at END; at END, and only there, it raises `ACC_END_OF_RANGE` after the access: a write has written, a read
returns nothing. -/
def Obligations.AdvanceWrapsWithAFault : Prop :=
  ∀ (s : State) (v : Half) (m : AccMode) (a e c : Word), s.fault = none → s.acc = ⟨some m, some a, some e, some c⟩ →
    a.toNat ≤ c.toNat → c.toNat ≤ e.toNat →
    ∀ i, (m = .word ∧ (i = .accReadWord ∨ i = .accWriteWord v) ∧ 2 * c.toNat + 1 < s.cfg.wbufBytes) ∨
        (m = .nibble ∧ i = .accReadNibble ∧ c.toNat / 2 < s.cfg.wbufBytes) →
      ∃ t, exec i s = .next t ∧
        t.acc = ⟨some m, some a, some e,
          some (BitVec.ofNat 32 (a.toNat + (c.toNat - a.toNat + 1) % (e.toNat - a.toNat + 1)))⟩ ∧
        t.fault = (if c = e then some (.accEndOfRange e) else none) ∧ (c = e → t.result = .noValue) ∧
        (i = .accWriteWord v → t.wbuf.read (2 * c.toNat) = v.extractLsb' 8 8 ∧
          t.wbuf.read (2 * c.toNat + 1) = v.extractLsb' 0 8)

/-- R158, R159, R161: of the checks of a data operation the first that fails is the one reported, in R161's order. -/
def Obligations.FirstFailingCheckIsReported : Prop :=
  ∀ (s : State) (v : Half) (n : Nibble), s.fault = none →
    (s.acc.mode = none ∨ s.acc.start = none ∨ s.acc.stop = none ∨ s.acc.cur = none →
      ∀ i ∈ [Instr.accReadWord, .accReadNibble, .accWriteWord v, .accWriteNibble n],
        ∃ t, exec i s = .next t ∧ t.fault = some .accUnconfigured) ∧
    (∀ a e c : Word, s.acc = ⟨some .word, some a, some e, some c⟩ →
      (∃ t, exec .accReadWord s = .next t ∧ t.fault =
        if c.toNat < a.toNat ∨ e.toNat < c.toNat then some (.accOutOfWindow c)
        else if s.cfg.wbufBytes ≤ 2 * c.toNat then some (.wbufOutOfRange (2 * c.toNat))
        else if s.cfg.wbufBytes ≤ 2 * c.toNat + 1 then some (.wbufOutOfRange (2 * c.toNat + 1))
        else if c = e then some (.accEndOfRange e) else none) ∧
      (∃ t, exec (.accWriteWord v) s = .next t ∧ t.fault =
        if c.toNat < a.toNat ∨ e.toNat < c.toNat then some (.accOutOfWindow c)
        else if s.cfg.wbufBytes ≤ 2 * c.toNat + 1 then some (.wbufOutOfRange (2 * c.toNat + 1))
        else if c = e then some (.accEndOfRange e) else none)) ∧
    (∀ a e c : Word, s.acc = ⟨some .nibble, some a, some e, some c⟩ →
      (∃ t, exec .accReadNibble s = .next t ∧ t.fault =
        if c.toNat < a.toNat ∨ e.toNat < c.toNat then some (.accOutOfWindow c)
        else if s.cfg.wbufBytes ≤ c.toNat / 2 then some (.wbufOutOfRange (c.toNat / 2))
        else if c = e then some (.accEndOfRange e) else none) ∧
      (∃ t, exec (.accWriteNibble n) s = .next t ∧ t.fault =
        if c.toNat < a.toNat ∨ e.toNat < c.toNat then some (.accOutOfWindow c) else some .accUnsupported))

/-- R162: after word writes from cursor `c`, and nibble mode with the cursor at `4c`, the nibble reads return the nibbles of the words
written, high nibble first, if no fault is raised. -/
def Obligations.NibbleReadsReturnTheWordsWritten : Prop :=
  ∀ (s t : State) (vs : List Half) (a e c first last : Word) (rs : List OpResult),
    s.fault = none → s.cfg.wf → s.acc = ⟨some .word, some a, some e, some c⟩ →
    runAll (vs.map .accWriteWord ++ [.accSetGranularity .nibble, .accSetBounds first last, .accSetCursor (4#32 * c)] ++
      List.replicate (4 * vs.length) .accReadNibble) s = some (rs, t) →
    t.fault = none → rs.drop (vs.length + 3) = (vs.flatMap nibblesOf).map .nibble

/-- R277: a mode change rescales nothing: the old word cursor `c` is then read as nibble unit `c`, which is in byte `c >> 1`. -/
def Obligations.ModeChangeKeepsTheUnits : Prop :=
  ∀ (s : State) (a e c : Word), s.fault = none → s.acc = ⟨some .word, some a, some e, some c⟩ →
    a.toNat ≤ c.toNat → c.toNat < e.toNat → c.toNat / 2 < s.cfg.wbufBytes →
    ∃ t u, exec (.accSetGranularity .nibble) s = .next t ∧ exec .accReadNibble t = .next u ∧
      u.result = .nibble (if c.toNat % 2 = 0 then (s.wbuf.read (c.toNat / 2)).extractLsb' 4 4
        else (s.wbuf.read (c.toNat / 2)).extractLsb' 0 4)

/-! ## Memory -/

/-- R51, R52: one, two and four bytes of guest memory are read and a word is written big-endian, byte `k` at `(addr + k) mod 2^32`;
every other byte is as before. -/
def Obligations.GuestWordsAreBigEndian : Prop :=
  ∀ (m : Memory) (addr v : Word),
    let at_ : Nat → Nat := fun k => (addr.toNat + k) % 2 ^ 32
    guestByte m addr = m.read (at_ 0) ∧ guestHalf m addr = m.read (at_ 0) ++ m.read (at_ 1) ∧
    guestWord m addr = m.read (at_ 0) ++ m.read (at_ 1) ++ m.read (at_ 2) ++ m.read (at_ 3) ∧
    (storeWord m addr v).read (at_ 0) = v.extractLsb' 24 8 ∧ (storeWord m addr v).read (at_ 1) = v.extractLsb' 16 8 ∧
    (storeWord m addr v).read (at_ 2) = v.extractLsb' 8 8 ∧ (storeWord m addr v).read (at_ 3) = v.extractLsb' 0 8 ∧
    (∀ x, x ≠ at_ 0 → x ≠ at_ 1 → x ≠ at_ 2 → x ≠ at_ 3 → (storeWord m addr v).read x = m.read x) ∧
    guestWord (storeWord m addr v) addr = v

/-- R54, R280: only the three hashing instructions write guest memory, and only the four bytes at the record's output address (mod
2^32), whether they complete or fault. -/
def Obligations.OnlyTheResultIsStored : Prop :=
  ∀ (s t : State),
    (∀ w, exec (.params w) s = .next t →
      ∀ x, (∀ k < 4, x ≠ guestAddr (recordAt s.guest (recordAddress s.cfg w)).outputAddress k) →
        t.guest.read x = s.guest.read x) ∧
    (∀ a, exec (.runRequest a) s = .next t →
      ∀ x, (∀ k < 4, x ≠ guestAddr (recordAt s.guest a).outputAddress k) → t.guest.read x = s.guest.read x) ∧
    (exec .computeHash s = .next t →
      ∀ x, (∀ k < 4, x ≠ guestAddr s.req.outputAddress k) → t.guest.read x = s.guest.read x) ∧
    ∀ i, (∀ w, i ≠ .params w) → (∀ a, i ≠ .runRequest a) → i ≠ .computeHash → exec i s = .next t → t.guest = s.guest

/-- R36, R279: the working buffer is written only by ACC_WRITE_WORD, in the two bytes of its unit (none without a cursor), and by the load of a hash, in the
bytes from `2 * work_address` that its words cover, the padding byte of an odd size among them; whether they complete or
fault. -/
def Obligations.OnlyTheLoadIsWritten : Prop :=
  ∀ (s t : State),
    let outside : RequestParams → Nat → Prop := fun p x =>
      x < 2 * p.workAddress.toNat ∨ 2 * p.workAddress.toNat + p.inputSize.toNat + p.inputSize.toNat % 2 ≤ x
    (∀ w, exec (.params w) s = .next t →
      ∀ x, outside (recordAt s.guest (recordAddress s.cfg w)) x → t.wbuf.read x = s.wbuf.read x) ∧
    (∀ a, exec (.runRequest a) s = .next t → ∀ x, outside (recordAt s.guest a) x → t.wbuf.read x = s.wbuf.read x) ∧
    (exec .computeHash s = .next t → ∀ x, outside s.req x → t.wbuf.read x = s.wbuf.read x) ∧
    (∀ v (c : Word), s.acc.cur = some c → exec (.accWriteWord v) s = .next t →
      ∀ x, x ≠ 2 * c.toNat → x ≠ 2 * c.toNat + 1 → t.wbuf.read x = s.wbuf.read x) ∧
    (∀ v, s.acc.cur = none → exec (.accWriteWord v) s = .next t → t.wbuf = s.wbuf) ∧
    ∀ i, (∀ w, i ≠ .params w) → (∀ a, i ≠ .runRequest a) → i ≠ .computeHash → (∀ v, i ≠ .accWriteWord v) →
      exec i s = .next t → t.wbuf = s.wbuf

/-! ## The whole machine -/

/-- A step runs the decoded instruction: the oldest host request, decoded in the context read at entry, is executed with the request
taken off the port; with nothing at the port the state holds (R256); a host write of one byte (notes/assumptions/8.md) changes
that byte and nothing else. -/
def Obligations.StepRunsTheDecodedInstruction : Prop :=
  ∀ (s : State) (rest : List HostAction),
    (∀ op, s.inbox = .request op :: rest → step s = exec (decodeOp s.context op) { s with inbox := rest }) ∧
    (s.inbox = [] → step s = .next s) ∧
    (∀ (a : Word) b, s.inbox = .storeGuest a b :: rest →
      ∃ m, step s = .next { s with inbox := rest, guest := m } ∧
        ∀ x, m.read x = if x = a.toNat then b else s.guest.read x) ∧
    (∀ i b, s.inbox = .storeWbuf i b :: rest →
      ∃ m, step s = .next { s with inbox := rest, wbuf := m } ∧
        ∀ x, m.read x = if x = i ∧ i < s.cfg.wbufBytes then b else s.wbuf.read x)

/-- The host's placing of a mail word makes the very next step run the instruction the table decoder reads (the model's choice of the
context of a bare word, notes/assumptions/9.md). -/
def Obligations.PlacedWordRunsNext : Prop :=
  ∀ (s : State) (w : Nat), w < 2 ^ 32 →
    ∃ i, decodeTableWord 32 w = some i ∧
      step (s.withFetchWord 32 w) = exec i { s with
        upload := (tableContext (BitVec.ofNat 32 w)).upload
        pstate := (tableContext (BitVec.ofNat 32 w)).pstate }

/-- R110, R111: delivering one mail word to a running block, row by row of the transition table: the next UPLOAD and PSTATE, the event
emitted, and the hash of PARAMS only in (0, APA). -/
def Obligations.HandleMailTransitions : Prop :=
  ∀ (w : Word) (s : State), s.fault = none →
    let i := decodeOp s.context (.mail w)
    (s.upload = true → ∃ t, exec i s = .next t ∧ t.arch = ({ s with events := s.events ++ [.forward w] } : State).arch) ∧
    (s.upload = false → s.pstate = .aur → w = 0xFF000000#32 →
      ∃ t, exec i s = .next t ∧ t.arch = ({ s with pstate := .apa } : State).arch) ∧
    (s.upload = false → s.pstate = .aur → w ≠ 0xFF000000#32 →
      ∃ t, exec i s = .next t ∧ t.arch = ({ s with events := s.events ++ [.warn w] } : State).arch) ∧
    (s.upload = false → s.pstate = .apa → i = .params w) ∧
    (s.upload = false → s.pstate = .anc → w = 0xCDD10001#32 →
      ∃ t, exec i s = .next t ∧ t.arch = ({ s with upload := true } : State).arch) ∧
    (s.upload = false → s.pstate = .anc → w = 0xCDD10002#32 →
      ∃ t, exec i s = .next t ∧ t.arch = ({ s with events := s.events ++ [.switch s.cfg.defaultModuleId] } : State).arch) ∧
    (s.upload = false → s.pstate = .anc → w ≠ 0xCDD10001#32 → w ≠ 0xCDD10002#32 →
      ∃ t, exec i s = .next t ∧ t.arch = ({ s with events := s.events ++ [.warn w] } : State).arch)

/-- R122: between two resets or restores an instance starts at most one hash, whatever else the host does. -/
def Obligations.AtMostOneHash : Prop :=
  ∀ (ops : List HostOp) (s : State), (∀ op ∈ ops, op ≠ .reset ∧ ∀ v, op ≠ .restore v) → hashesRun ops s ≤ 1

/-- R246: a stopped block answers every operation but POP with no effect, keeps POP, never ends well, and no run of host operations
clears FAULT. (That a refused operation answers a next state is the model's reading, notes/assumptions/12.md; that this holds for the
sub-operations too, 14.md.) -/
def Obligations.FaultedBlockIsStopped : Prop :=
  ∀ s : State, s.fault ≠ none →
    (∀ i, i ≠ .pop → ∃ t, exec i s = .next t ∧ t.arch = s.arch) ∧
    (∃ t, exec .pop s = .next t ∧ t.arch = ({ s with outq := s.outq.tail } : State).arch) ∧
    s.endsWell = false ∧ ∀ ops : List HostOp, (deliverAll ops s).fault = s.fault

/-- R60, R283: every operation runs to completion in every state: `exec` always answers a next state. -/
def Obligations.EveryOperationEnds : Prop :=
  ∀ (i : Instr) (s : State), ∃ t, exec i s = .next t

/-- R36: which instruction may change which item; the construction arguments and the incoming port never change. -/
def Obligations.WritersOfEachItem : Prop :=
  ∀ (i : Instr) (s t : State), exec i s = .next t →
    t.cfg = s.cfg ∧ t.inbox = s.inbox ∧
    (t.pstate ≠ s.pstate → i = .unlock ∨ (∃ w, i = .params w) ∨ (∃ v, i = .restore v) ∨ i = .reset) ∧
    (t.upload ≠ s.upload → i = .newuc ∨ (∃ v, i = .restore v) ∨ i = .reset) ∧
    (t.he ≠ s.he → (∃ w, i = .params w) ∨ (∃ a, i = .runRequest a) ∨ i = .computeHash ∨ ∃ p q m n, i = .combine p q m n) ∧
    (t.tr ≠ s.tr → (∃ w, i = .params w) ∨ (∃ a, i = .runRequest a) ∨ i = .computeHash) ∧
    (t.req ≠ s.req → (∃ w, i = .params w) ∨ (∃ a, i = .runRequest a) ∨ ∃ a, i = .readParameters a) ∧
    (t.outq ≠ s.outq → (∃ w, i = .params w) ∨ i = .reset ∨ i = .pop) ∧
    (t.acc ≠ s.acc → (∃ w, i = .params w) ∨ (∃ a, i = .runRequest a) ∨ i = .computeHash ∨ i = .reset ∨
      (∃ m, i = .accSetGranularity m) ∨ (∃ a e, i = .accSetBounds a e) ∨ (∃ c, i = .accSetCursor c) ∨
      i = .accReadWord ∨ i = .accReadNibble ∨ ∃ v, i = .accWriteWord v) ∧
    (t.fault ≠ s.fault → s.fault = none)

/-- R249, R112, R114, R119, R120: which instruction emits which event; at most one an operation, appended to those before. -/
def Obligations.EventsComeFromTheirInstruction : Prop :=
  ∀ (i : Instr) (s t : State), exec i s = .next t →
    t.events = s.events ∨ ∃ e, t.events = s.events ++ [e] ∧
      ((e = .hostIrq ∧ i = .poll ∧ s.outq ≠ []) ∨ (∃ w, e = .forward w ∧ i = .forward w) ∨
        (∃ w, e = .warn w ∧ (i = .ignAur w ∨ i = .ignAnc w)) ∨ (e = .switch s.cfg.defaultModuleId ∧ i = .resetuc))

/-- R164, R272: no step the host can take reads what R272 leaves unspecified (hash registers, transients, P) or an accelerator
register left by an earlier hash: two states that agree on everything else step to states that agree on everything else. So no
value the model names for an unspecified item (notes/assumptions/5.md, 6.md, 7.md) or keeps in it between hashes (17.md) shows in any run from reset. -/
def Obligations.UnspecifiedStateIsNeverRead : Prop :=
  ∀ s1 s2 : State, s1.visible = s2.visible →
    ∃ t1 t2, step s1 = .next t1 ∧ step s2 = .next t2 ∧ t1.visible = t2.visible

/-- The invariant holds at reset. -/
def Obligations.InvariantAtReset : Prop := State.reset.Inv

/-- The invariant (parameters in range, both memories canonical and inside their spaces, the accelerator's window a window, LBUF no
longer than R181 allows) is kept by every step. -/
def Obligations.InvariantKeptByStep : Prop :=
  ∀ s t : State, s.Inv → step s = .next t → t.Inv

/-! ## Encoding -/

/-- R82: decoding is total and is the table's: the first row of R82's table that admits the word. -/
def Obligations.DecodeIsTheTable : Prop :=
  ∀ (c : Context) (w : Word), tableDecode c w = some (decodeMail c w)

/-- Every well-formed instruction that has an encoding, with every operand, is read back from it: a mail instruction in every context where
its row is tried from its bytes, of which only its four are taken; a host operation from its request; an accelerator row from its
operation in every mode where the row is tried (R80). -/
def Obligations.DecodeOfEncode : Prop :=
  (∀ (i : Instr) (c : Context) (rest bs : List Byte), i.wellFormed = true → i.inContext c = true → encodeBytes i = some bs →
    bs.length = 4 ∧ decodeBytes c (bs ++ rest) = .ok (i, rest)) ∧
  (∀ (i : Instr) (c : Context) (op : HostOp), i.wellFormed = true → i.inContext c = true → encodeOp i = some op →
    decodeOp c op = i) ∧
  ∀ (i : Instr) (mode : Option AccMode) (op : AccOp), encodeAcc mode i = some op → decodeAcc mode op = i

/-- R85: every word in every context decodes to a well-formed instruction of that context, which encodes to the same word: no mail word
is illegal and no bit is dropped. -/
def Obligations.EncodeOfDecode : Prop :=
  ∀ (c : Context) (w : Word),
    (decodeMail c w).wellFormed = true ∧ (decodeMail c w).inContext c = true ∧ encode (decodeMail c w) = some w

/-- R83: some words as R82's table and R83 give them (a sanity statement). -/
def Obligations.DecodedWords : Prop :=
  decodeMail ⟨false, .aur⟩ 0xFF000000#32 = .unlock ∧ decodeMail ⟨false, .aur⟩ 0xFF000001#32 = .ignAur 0xFF000001#32 ∧
  decodeMail ⟨false, .apa⟩ 0xFF000000#32 = .params 0xFF000000#32 ∧ decodeMail ⟨false, .anc⟩ 0xCDD10001#32 = .newuc ∧
  decodeMail ⟨false, .anc⟩ 0xCDD10002#32 = .resetuc ∧ decodeMail ⟨false, .anc⟩ 0xCDD10003#32 = .ignAnc 0xCDD10003#32 ∧
  decodeMail ⟨true, .anc⟩ 0xCDD10002#32 = .forward 0xCDD10002#32

/-- R80: which row of the opcode table each request is: the five port operations of the host in every context, a mail word by its context,
and the accelerator's five operations, `read_next` and `write_next` with one row per mode. -/
def Obligations.RequestsDecodeToTheirRows : Prop :=
  (∀ c : Context, decodeOp c .poll = .poll ∧ decodeOp c .pop = .pop ∧ decodeOp c .save = .save ∧ decodeOp c .reset = .reset ∧
    (∀ v, decodeOp c (.restore v) = .restore v) ∧ ∀ w, decodeOp c (.mail w) = decodeMail c w) ∧
  (∀ mode : Option AccMode, (∀ m, decodeAcc mode (.setGranularity m) = .accSetGranularity m) ∧
    (∀ a e, decodeAcc mode (.setBounds a e) = .accSetBounds a e) ∧ ∀ c, decodeAcc mode (.setCursor c) = .accSetCursor c) ∧
  decodeAcc (some .word) .readNext = .accReadWord ∧ decodeAcc (some .nibble) .readNext = .accReadNibble ∧
  (∀ v, decodeAcc (some .word) (.writeNext v) = .accWriteWord v) ∧
  ∀ v : Half, decodeAcc (some .nibble) (.writeNext v) = .accWriteNibble (v.extractLsb' 0 4)

/-- R199: a hash makes no accelerator fault exactly when the conditions hold; otherwise the first offending access faults. -/
def Obligations.HashIsFaultFreeExactlyUnderTheConditions : Prop :=
  ∀ s : State, s.fault = none →
    ∃ t, exec .computeHash s = .next t ∧ (t.fault = none ↔ hashFaultFree s.cfg s.req) ∧
      (¬ hashFaultFree s.cfg s.req → t.fault = some (hashFault s.cfg s.req))
end

