-- ==== Sys2Proof/Laws/State.lean ====
section
/-! SUPPORT. What each named update of the state leaves in each field, so that no later proof unfolds a record update. -/

namespace Sys2Proof.Machine

@[simp] theorem traced_cfg (e : TraceEntry) (s : State) : (s.traced e).cfg = s.cfg := rfl
@[simp] theorem traced_pstate (e : TraceEntry) (s : State) : (s.traced e).pstate = s.pstate := rfl
@[simp] theorem traced_upload (e : TraceEntry) (s : State) : (s.traced e).upload = s.upload := rfl
@[simp] theorem traced_he (e : TraceEntry) (s : State) : (s.traced e).he = s.he := rfl
@[simp] theorem traced_tr (e : TraceEntry) (s : State) : (s.traced e).tr = s.tr := rfl
@[simp] theorem traced_req (e : TraceEntry) (s : State) : (s.traced e).req = s.req := rfl
@[simp] theorem traced_outq (e : TraceEntry) (s : State) : (s.traced e).outq = s.outq := rfl
@[simp] theorem traced_acc (e : TraceEntry) (s : State) : (s.traced e).acc = s.acc := rfl
@[simp] theorem traced_wbuf (e : TraceEntry) (s : State) : (s.traced e).wbuf = s.wbuf := rfl
@[simp] theorem traced_guest (e : TraceEntry) (s : State) : (s.traced e).guest = s.guest := rfl
@[simp] theorem traced_fault (e : TraceEntry) (s : State) : (s.traced e).fault = s.fault := rfl
@[simp] theorem traced_inbox (e : TraceEntry) (s : State) : (s.traced e).inbox = s.inbox := rfl
@[simp] theorem traced_events (e : TraceEntry) (s : State) : (s.traced e).events = s.events := rfl
@[simp] theorem traced_result (e : TraceEntry) (s : State) : (s.traced e).result = s.result := rfl
@[simp] theorem traced_trace (e : TraceEntry) (s : State) : (s.traced e).trace = e :: s.trace := rfl

@[simp] theorem emit_cfg (e : Event) (s : State) : (emit e s).cfg = s.cfg := rfl
@[simp] theorem emit_pstate (e : Event) (s : State) : (emit e s).pstate = s.pstate := rfl
@[simp] theorem emit_upload (e : Event) (s : State) : (emit e s).upload = s.upload := rfl
@[simp] theorem emit_he (e : Event) (s : State) : (emit e s).he = s.he := rfl
@[simp] theorem emit_tr (e : Event) (s : State) : (emit e s).tr = s.tr := rfl
@[simp] theorem emit_req (e : Event) (s : State) : (emit e s).req = s.req := rfl
@[simp] theorem emit_outq (e : Event) (s : State) : (emit e s).outq = s.outq := rfl
@[simp] theorem emit_acc (e : Event) (s : State) : (emit e s).acc = s.acc := rfl
@[simp] theorem emit_wbuf (e : Event) (s : State) : (emit e s).wbuf = s.wbuf := rfl
@[simp] theorem emit_guest (e : Event) (s : State) : (emit e s).guest = s.guest := rfl
@[simp] theorem emit_fault (e : Event) (s : State) : (emit e s).fault = s.fault := rfl
@[simp] theorem emit_inbox (e : Event) (s : State) : (emit e s).inbox = s.inbox := rfl
@[simp] theorem emit_events (e : Event) (s : State) : (emit e s).events = s.events ++ [e] := rfl
@[simp] theorem emit_result (e : Event) (s : State) : (emit e s).result = s.result := rfl
@[simp] theorem emit_trace (e : Event) (s : State) : (emit e s).trace = s.trace := rfl

@[simp] theorem mailPush_cfg (w : Word) (s : State) : (mailPush w s).cfg = s.cfg := rfl
@[simp] theorem mailPush_pstate (w : Word) (s : State) : (mailPush w s).pstate = s.pstate := rfl
@[simp] theorem mailPush_upload (w : Word) (s : State) : (mailPush w s).upload = s.upload := rfl
@[simp] theorem mailPush_he (w : Word) (s : State) : (mailPush w s).he = s.he := rfl
@[simp] theorem mailPush_tr (w : Word) (s : State) : (mailPush w s).tr = s.tr := rfl
@[simp] theorem mailPush_req (w : Word) (s : State) : (mailPush w s).req = s.req := rfl
@[simp] theorem mailPush_outq (w : Word) (s : State) : (mailPush w s).outq = s.outq ++ [w] := rfl
@[simp] theorem mailPush_acc (w : Word) (s : State) : (mailPush w s).acc = s.acc := rfl
@[simp] theorem mailPush_wbuf (w : Word) (s : State) : (mailPush w s).wbuf = s.wbuf := rfl
@[simp] theorem mailPush_guest (w : Word) (s : State) : (mailPush w s).guest = s.guest := rfl
@[simp] theorem mailPush_fault (w : Word) (s : State) : (mailPush w s).fault = s.fault := rfl
@[simp] theorem mailPush_inbox (w : Word) (s : State) : (mailPush w s).inbox = s.inbox := rfl
@[simp] theorem mailPush_events (w : Word) (s : State) : (mailPush w s).events = s.events := rfl
@[simp] theorem mailPush_result (w : Word) (s : State) : (mailPush w s).result = s.result := rfl
@[simp] theorem mailPush_trace (w : Word) (s : State) : (mailPush w s).trace = .pushed w :: s.trace := rfl

@[simp] theorem memWrite_cfg (a v : Word) (s : State) : (memWrite a v s).cfg = s.cfg := rfl
@[simp] theorem memWrite_pstate (a v : Word) (s : State) : (memWrite a v s).pstate = s.pstate := rfl
@[simp] theorem memWrite_upload (a v : Word) (s : State) : (memWrite a v s).upload = s.upload := rfl
@[simp] theorem memWrite_he (a v : Word) (s : State) : (memWrite a v s).he = s.he := rfl
@[simp] theorem memWrite_tr (a v : Word) (s : State) : (memWrite a v s).tr = s.tr := rfl
@[simp] theorem memWrite_req (a v : Word) (s : State) : (memWrite a v s).req = s.req := rfl
@[simp] theorem memWrite_outq (a v : Word) (s : State) : (memWrite a v s).outq = s.outq := rfl
@[simp] theorem memWrite_acc (a v : Word) (s : State) : (memWrite a v s).acc = s.acc := rfl
@[simp] theorem memWrite_wbuf (a v : Word) (s : State) : (memWrite a v s).wbuf = s.wbuf := rfl
@[simp] theorem memWrite_guest (a v : Word) (s : State) : (memWrite a v s).guest = storeWord s.guest a v := rfl
@[simp] theorem memWrite_fault (a v : Word) (s : State) : (memWrite a v s).fault = s.fault := rfl
@[simp] theorem memWrite_inbox (a v : Word) (s : State) : (memWrite a v s).inbox = s.inbox := rfl
@[simp] theorem memWrite_events (a v : Word) (s : State) : (memWrite a v s).events = s.events := rfl
@[simp] theorem memWrite_result (a v : Word) (s : State) : (memWrite a v s).result = s.result := rfl
@[simp] theorem memWrite_trace (a v : Word) (s : State) : (memWrite a v s).trace = .guestWrite a v :: s.trace := rfl

@[simp] theorem hostStoreGuest_cfg (a : Word) (b : Byte) (s : State) : (hostStoreGuest a b s).cfg = s.cfg := rfl
@[simp] theorem hostStoreGuest_pstate (a : Word) (b : Byte) (s : State) : (hostStoreGuest a b s).pstate = s.pstate := rfl
@[simp] theorem hostStoreGuest_upload (a : Word) (b : Byte) (s : State) : (hostStoreGuest a b s).upload = s.upload := rfl
@[simp] theorem hostStoreGuest_he (a : Word) (b : Byte) (s : State) : (hostStoreGuest a b s).he = s.he := rfl
@[simp] theorem hostStoreGuest_tr (a : Word) (b : Byte) (s : State) : (hostStoreGuest a b s).tr = s.tr := rfl
@[simp] theorem hostStoreGuest_req (a : Word) (b : Byte) (s : State) : (hostStoreGuest a b s).req = s.req := rfl
@[simp] theorem hostStoreGuest_outq (a : Word) (b : Byte) (s : State) : (hostStoreGuest a b s).outq = s.outq := rfl
@[simp] theorem hostStoreGuest_acc (a : Word) (b : Byte) (s : State) : (hostStoreGuest a b s).acc = s.acc := rfl
@[simp] theorem hostStoreGuest_wbuf (a : Word) (b : Byte) (s : State) : (hostStoreGuest a b s).wbuf = s.wbuf := rfl
@[simp] theorem hostStoreGuest_guest (a : Word) (b : Byte) (s : State) : (hostStoreGuest a b s).guest = s.guest.write (guestAddr a 0) b := rfl
@[simp] theorem hostStoreGuest_fault (a : Word) (b : Byte) (s : State) : (hostStoreGuest a b s).fault = s.fault := rfl
@[simp] theorem hostStoreGuest_inbox (a : Word) (b : Byte) (s : State) : (hostStoreGuest a b s).inbox = s.inbox := rfl
@[simp] theorem hostStoreGuest_events (a : Word) (b : Byte) (s : State) : (hostStoreGuest a b s).events = s.events := rfl
@[simp] theorem hostStoreGuest_result (a : Word) (b : Byte) (s : State) : (hostStoreGuest a b s).result = s.result := rfl
@[simp] theorem hostStoreGuest_trace (a : Word) (b : Byte) (s : State) : (hostStoreGuest a b s).trace = s.trace := rfl

@[simp] theorem readRecord_cfg (a : Word) (s : State) : (readRecord a s).cfg = s.cfg := rfl
@[simp] theorem readRecord_pstate (a : Word) (s : State) : (readRecord a s).pstate = s.pstate := rfl
@[simp] theorem readRecord_upload (a : Word) (s : State) : (readRecord a s).upload = s.upload := rfl
@[simp] theorem readRecord_he (a : Word) (s : State) : (readRecord a s).he = s.he := rfl
@[simp] theorem readRecord_tr (a : Word) (s : State) : (readRecord a s).tr = s.tr := rfl
@[simp] theorem readRecord_req (a : Word) (s : State) : (readRecord a s).req = recordAt s.guest a := rfl
@[simp] theorem readRecord_outq (a : Word) (s : State) : (readRecord a s).outq = s.outq := rfl
@[simp] theorem readRecord_acc (a : Word) (s : State) : (readRecord a s).acc = s.acc := rfl
@[simp] theorem readRecord_wbuf (a : Word) (s : State) : (readRecord a s).wbuf = s.wbuf := rfl
@[simp] theorem readRecord_guest (a : Word) (s : State) : (readRecord a s).guest = s.guest := rfl
@[simp] theorem readRecord_fault (a : Word) (s : State) : (readRecord a s).fault = s.fault := rfl
@[simp] theorem readRecord_inbox (a : Word) (s : State) : (readRecord a s).inbox = s.inbox := rfl
@[simp] theorem readRecord_events (a : Word) (s : State) : (readRecord a s).events = s.events := rfl
@[simp] theorem readRecord_result (a : Word) (s : State) : (readRecord a s).result = s.result := rfl
@[simp] theorem readRecord_trace (a : Word) (s : State) : (readRecord a s).trace = .guestRead (a + outputOffset) 4 :: .guestRead (a + workOffset) 4 :: .guestRead (a + sizeOffset) 2 ::
      .guestRead (a + reservedOffset) 2 :: .guestRead (a + sourceOffset) 4 :: s.trace := rfl

@[simp] theorem combineStep_cfg (p1 p2 n1 n2 : Nibble) (s : State) : (combineStep p1 p2 n1 n2 s).cfg = s.cfg := rfl
@[simp] theorem combineStep_pstate (p1 p2 n1 n2 : Nibble) (s : State) : (combineStep p1 p2 n1 n2 s).pstate = s.pstate := rfl
@[simp] theorem combineStep_upload (p1 p2 n1 n2 : Nibble) (s : State) : (combineStep p1 p2 n1 n2 s).upload = s.upload := rfl
@[simp] theorem combineStep_he (p1 p2 n1 n2 : Nibble) (s : State) : (combineStep p1 p2 n1 n2 s).he = combineRegs s.he p1 p2 n1 n2 := rfl
@[simp] theorem combineStep_tr (p1 p2 n1 n2 : Nibble) (s : State) : (combineStep p1 p2 n1 n2 s).tr = s.tr := rfl
@[simp] theorem combineStep_req (p1 p2 n1 n2 : Nibble) (s : State) : (combineStep p1 p2 n1 n2 s).req = s.req := rfl
@[simp] theorem combineStep_outq (p1 p2 n1 n2 : Nibble) (s : State) : (combineStep p1 p2 n1 n2 s).outq = s.outq := rfl
@[simp] theorem combineStep_acc (p1 p2 n1 n2 : Nibble) (s : State) : (combineStep p1 p2 n1 n2 s).acc = s.acc := rfl
@[simp] theorem combineStep_wbuf (p1 p2 n1 n2 : Nibble) (s : State) : (combineStep p1 p2 n1 n2 s).wbuf = s.wbuf := rfl
@[simp] theorem combineStep_guest (p1 p2 n1 n2 : Nibble) (s : State) : (combineStep p1 p2 n1 n2 s).guest = s.guest := rfl
@[simp] theorem combineStep_fault (p1 p2 n1 n2 : Nibble) (s : State) : (combineStep p1 p2 n1 n2 s).fault = s.fault := rfl
@[simp] theorem combineStep_inbox (p1 p2 n1 n2 : Nibble) (s : State) : (combineStep p1 p2 n1 n2 s).inbox = s.inbox := rfl
@[simp] theorem combineStep_events (p1 p2 n1 n2 : Nibble) (s : State) : (combineStep p1 p2 n1 n2 s).events = s.events := rfl
@[simp] theorem combineStep_result (p1 p2 n1 n2 : Nibble) (s : State) : (combineStep p1 p2 n1 n2 s).result = s.result := rfl
@[simp] theorem combineStep_trace (p1 p2 n1 n2 : Nibble) (s : State) : (combineStep p1 p2 n1 n2 s).trace = .combined :: s.trace := rfl

@[simp] theorem addByteSum_cfg (v : Word) (s : State) : (addByteSum v s).cfg = s.cfg := rfl
@[simp] theorem addByteSum_pstate (v : Word) (s : State) : (addByteSum v s).pstate = s.pstate := rfl
@[simp] theorem addByteSum_upload (v : Word) (s : State) : (addByteSum v s).upload = s.upload := rfl
@[simp] theorem addByteSum_he (v : Word) (s : State) : (addByteSum v s).he = s.he := rfl
@[simp] theorem addByteSum_tr (v : Word) (s : State) : (addByteSum v s).tr = { s.tr with byteSum := s.tr.byteSum + v } := rfl
@[simp] theorem addByteSum_req (v : Word) (s : State) : (addByteSum v s).req = s.req := rfl
@[simp] theorem addByteSum_outq (v : Word) (s : State) : (addByteSum v s).outq = s.outq := rfl
@[simp] theorem addByteSum_acc (v : Word) (s : State) : (addByteSum v s).acc = s.acc := rfl
@[simp] theorem addByteSum_wbuf (v : Word) (s : State) : (addByteSum v s).wbuf = s.wbuf := rfl
@[simp] theorem addByteSum_guest (v : Word) (s : State) : (addByteSum v s).guest = s.guest := rfl
@[simp] theorem addByteSum_fault (v : Word) (s : State) : (addByteSum v s).fault = s.fault := rfl
@[simp] theorem addByteSum_inbox (v : Word) (s : State) : (addByteSum v s).inbox = s.inbox := rfl
@[simp] theorem addByteSum_events (v : Word) (s : State) : (addByteSum v s).events = s.events := rfl
@[simp] theorem addByteSum_result (v : Word) (s : State) : (addByteSum v s).result = s.result := rfl
@[simp] theorem addByteSum_trace (v : Word) (s : State) : (addByteSum v s).trace = s.trace := rfl

@[simp] theorem initState_cfg (s : State) : (initState s).cfg = s.cfg := rfl
@[simp] theorem initState_pstate (s : State) : (initState s).pstate = s.pstate := rfl
@[simp] theorem initState_upload (s : State) : (initState s).upload = s.upload := rfl
@[simp] theorem initState_he (s : State) : (initState s).he = initRegs s.tr.byteSum := rfl
@[simp] theorem initState_tr (s : State) : (initState s).tr = s.tr := rfl
@[simp] theorem initState_req (s : State) : (initState s).req = s.req := rfl
@[simp] theorem initState_outq (s : State) : (initState s).outq = s.outq := rfl
@[simp] theorem initState_acc (s : State) : (initState s).acc = s.acc := rfl
@[simp] theorem initState_wbuf (s : State) : (initState s).wbuf = s.wbuf := rfl
@[simp] theorem initState_guest (s : State) : (initState s).guest = s.guest := rfl
@[simp] theorem initState_fault (s : State) : (initState s).fault = s.fault := rfl
@[simp] theorem initState_inbox (s : State) : (initState s).inbox = s.inbox := rfl
@[simp] theorem initState_events (s : State) : (initState s).events = s.events := rfl
@[simp] theorem initState_result (s : State) : (initState s).result = s.result := rfl
@[simp] theorem initState_trace (s : State) : (initState s).trace = s.trace := rfl

@[simp] theorem setPairCount_cfg (s : State) : (setPairCount s).cfg = s.cfg := rfl
@[simp] theorem setPairCount_pstate (s : State) : (setPairCount s).pstate = s.pstate := rfl
@[simp] theorem setPairCount_upload (s : State) : (setPairCount s).upload = s.upload := rfl
@[simp] theorem setPairCount_he (s : State) : (setPairCount s).he = s.he := rfl
@[simp] theorem setPairCount_tr (s : State) : (setPairCount s).tr = { s.tr with pairCount := pairCount s.req.inputSize, pairIndex := 0#16 } := rfl
@[simp] theorem setPairCount_req (s : State) : (setPairCount s).req = s.req := rfl
@[simp] theorem setPairCount_outq (s : State) : (setPairCount s).outq = s.outq := rfl
@[simp] theorem setPairCount_acc (s : State) : (setPairCount s).acc = s.acc := rfl
@[simp] theorem setPairCount_wbuf (s : State) : (setPairCount s).wbuf = s.wbuf := rfl
@[simp] theorem setPairCount_guest (s : State) : (setPairCount s).guest = s.guest := rfl
@[simp] theorem setPairCount_fault (s : State) : (setPairCount s).fault = s.fault := rfl
@[simp] theorem setPairCount_inbox (s : State) : (setPairCount s).inbox = s.inbox := rfl
@[simp] theorem setPairCount_events (s : State) : (setPairCount s).events = s.events := rfl
@[simp] theorem setPairCount_result (s : State) : (setPairCount s).result = s.result := rfl
@[simp] theorem setPairCount_trace (s : State) : (setPairCount s).trace = s.trace := rfl

@[simp] theorem copyInput_cfg (s : State) : (copyInput s).cfg = s.cfg := rfl
@[simp] theorem copyInput_pstate (s : State) : (copyInput s).pstate = s.pstate := rfl
@[simp] theorem copyInput_upload (s : State) : (copyInput s).upload = s.upload := rfl
@[simp] theorem copyInput_he (s : State) : (copyInput s).he = s.he := rfl
@[simp] theorem copyInput_tr (s : State) : (copyInput s).tr = { s.tr with lbuf := guestBytes s.guest s.req.sourceAddress (round4 s.req.inputSize) } := rfl
@[simp] theorem copyInput_req (s : State) : (copyInput s).req = s.req := rfl
@[simp] theorem copyInput_outq (s : State) : (copyInput s).outq = s.outq := rfl
@[simp] theorem copyInput_acc (s : State) : (copyInput s).acc = s.acc := rfl
@[simp] theorem copyInput_wbuf (s : State) : (copyInput s).wbuf = s.wbuf := rfl
@[simp] theorem copyInput_guest (s : State) : (copyInput s).guest = s.guest := rfl
@[simp] theorem copyInput_fault (s : State) : (copyInput s).fault = s.fault := rfl
@[simp] theorem copyInput_inbox (s : State) : (copyInput s).inbox = s.inbox := rfl
@[simp] theorem copyInput_events (s : State) : (copyInput s).events = s.events := rfl
@[simp] theorem copyInput_result (s : State) : (copyInput s).result = s.result := rfl
@[simp] theorem copyInput_trace (s : State) : (copyInput s).trace = if round4 s.req.inputSize = 0 then s.trace
      else .guestBulkRead s.req.sourceAddress (round4 s.req.inputSize) :: s.trace := rfl

@[simp] theorem restart_cfg (s : State) : (restart s).cfg = s.cfg := rfl
@[simp] theorem restart_pstate (s : State) : (restart s).pstate = .aur := rfl
@[simp] theorem restart_upload (s : State) : (restart s).upload = false := rfl
@[simp] theorem restart_he (s : State) : (restart s).he = s.he := rfl
@[simp] theorem restart_tr (s : State) : (restart s).tr = s.tr := rfl
@[simp] theorem restart_req (s : State) : (restart s).req = s.req := rfl
@[simp] theorem restart_outq (s : State) : (restart s).outq = s.outq ++ [s.cfg.initMail] := rfl
@[simp] theorem restart_acc (s : State) : (restart s).acc = ⟨none, none, none, none⟩ := rfl
@[simp] theorem restart_wbuf (s : State) : (restart s).wbuf = s.wbuf := rfl
@[simp] theorem restart_guest (s : State) : (restart s).guest = s.guest := rfl
@[simp] theorem restart_fault (s : State) : (restart s).fault = s.fault := rfl
@[simp] theorem restart_inbox (s : State) : (restart s).inbox = s.inbox := rfl
@[simp] theorem restart_events (s : State) : (restart s).events = s.events := rfl
@[simp] theorem restart_result (s : State) : (restart s).result = s.result := rfl
@[simp] theorem restart_trace (s : State) : (restart s).trace = .pushed s.cfg.initMail :: s.trace := rfl

end Sys2Proof.Machine
end

