-- ==== Sys2Proof/Laws/Memory.lean ====
section
/-! SUPPORT. The laws of a byte memory: a read after a write gives the byte written, every other byte is as before, and every
operation keeps the canonical form. -/

namespace Sys2Proof.Machine

theorem Memory.read_erase (m : Memory) (a x : Nat) :
    (m.erase a).read x = if x = a then Memory.unlisted else m.read x := by
  induction m with
  | nil => simp [Memory.erase, Memory.read]
  | cons c m ih =>
    obtain ⟨k, v⟩ := c
    simp only [Memory.erase] at ih ⊢
    by_cases hk : k = a
    · subst hk
      simp only [List.filter_cons, bne_self_eq_false, Bool.false_eq_true, if_false, ih, Memory.read]
      by_cases hx : x = k
      · simp [hx]
      · simp [hx, Ne.symm hx]
    · have : (k != a) = true := by simpa using hk
      simp only [List.filter_cons, this, if_true, Memory.read, ih]
      by_cases hx : k = x
      · subst hx; simp [hk]
      · simp [hx]

theorem Memory.read_insert (m : Memory) (a : Nat) (b : Byte) (h : ∀ c ∈ m, c.1 ≠ a) (x : Nat) :
    (m.insert a b).read x = if x = a then b else m.read x := by
  induction m with
  | nil => simp [Memory.insert, Memory.read, eq_comm]
  | cons c m ih =>
    obtain ⟨k, v⟩ := c
    have hk : k ≠ a := h (k, v) (by simp)
    have ih' := ih fun c hc => h c (by simp [hc])
    simp only [Memory.insert]
    split
    · simp [Memory.read, eq_comm]
    · simp only [Memory.read, ih']
      by_cases hx : k = x
      · subst hx; simp [hk]
      · simp [hx]

/-- A read after a write: the byte written there, every other byte as before. -/
@[simp] theorem Memory.read_write (m : Memory) (a x : Nat) (b : Byte) :
    (m.write a b).read x = if x = a then b else m.read x := by
  unfold Memory.write
  split
  · rename_i hb; subst hb; exact Memory.read_erase m a x
  · rw [Memory.read_insert _ _ _ (by intro c hc; simpa [Memory.erase] using (List.mem_filter.1 hc).2), Memory.read_erase]
    by_cases hx : x = a <;> simp [hx]

theorem Memory.read_nil (x : Nat) : Memory.read [] x = Memory.unlisted := rfl

theorem Memory.mem_insert {m : Memory} {a : Nat} {b : Byte} {c : Host.Cell} :
    c ∈ m.insert a b ↔ c = (a, b) ∨ c ∈ m := by
  induction m with
  | nil => simp [Memory.insert]
  | cons d m ih =>
    obtain ⟨k, v⟩ := d
    simp only [Memory.insert]
    split
    · simp
    · simp only [List.mem_cons, ih]; tauto

theorem Memory.wf_erase {m : Memory} (h : m.wf) (a : Nat) : (m.erase a).wf :=
  ⟨h.1.filter _, fun c hc => h.2 c (List.mem_filter.1 hc).1⟩

theorem Memory.wf_insert {m : Memory} (h : m.wf) {a : Nat} {b : Byte} (ha : ∀ c ∈ m, c.1 ≠ a)
    (hb : b ≠ Memory.unlisted) : (m.insert a b).wf := by
  refine ⟨?_, fun c hc => ?_⟩
  · obtain ⟨h1, -⟩ := h
    induction m with
    | nil => simp [Memory.insert]
    | cons d m ih =>
      obtain ⟨k, v⟩ := d
      rw [List.pairwise_cons] at h1
      simp only [Memory.insert]
      split
      · rename_i hlt
        refine List.pairwise_cons.2 ⟨fun c hc => ?_, List.pairwise_cons.2 h1⟩
        rcases List.mem_cons.1 hc with rfl | hc
        · exact hlt
        · exact lt_trans hlt (h1.1 c hc)
      · rename_i hlt
        have hk : k ≠ a := ha (k, v) (by simp)
        refine List.pairwise_cons.2 ⟨fun c hc => ?_, ih (fun c hc => ha c (by simp [hc])) h1.2⟩
        rcases Memory.mem_insert.1 hc with rfl | hc
        · show k < a; omega
        · exact h1.1 c hc
  · rcases Memory.mem_insert.1 hc with rfl | hc
    · exact hb
    · exact h.2 c hc

/-- A write keeps the canonical form. -/
theorem Memory.wf_write {m : Memory} (h : m.wf) (a : Nat) (b : Byte) : (m.write a b).wf := by
  unfold Memory.write
  split
  · exact Memory.wf_erase h a
  · rename_i hb
    exact Memory.wf_insert (Memory.wf_erase h a)
      (by intro c hc; simpa [Memory.erase] using (List.mem_filter.1 hc).2) hb

/-- A write below a bound keeps a memory below it. -/
theorem Memory.below_write {m : Memory} {n : Nat} (h : m.below n) {a : Nat} (ha : a < n) (b : Byte) :
    (m.write a b).below n := by
  intro c hc
  unfold Memory.write at hc
  split at hc
  · exact h c (List.mem_filter.1 hc).1
  · rcases Memory.mem_insert.1 hc with rfl | hc
    · exact ha
    · exact h c (List.mem_filter.1 hc).1

theorem guestAddr_lt (a : Word) (k : Nat) : guestAddr a k < 4294967296 := (a + BitVec.ofNat 32 k).isLt

theorem storeWord_wf {m : Memory} (h : m.wf) (a v : Word) : (storeWord m a v).wf :=
  Memory.wf_write (Memory.wf_write (Memory.wf_write (Memory.wf_write h _ _) _ _) _ _) _ _

theorem storeWord_below {m : Memory} (h : m.below 4294967296) (a v : Word) : (storeWord m a v).below 4294967296 :=
  Memory.below_write (Memory.below_write (Memory.below_write (Memory.below_write h (guestAddr_lt _ _) _)
    (guestAddr_lt _ _) _) (guestAddr_lt _ _) _) (guestAddr_lt _ _) _

theorem guestAddr_inj {a : Word} {j k : Nat} (hj : j < 4294967296) (hk : k < 4294967296) (h : guestAddr a j = guestAddr a k) :
    j = k := by
  simp only [guestAddr, BitVec.toNat_add, BitVec.toNat_ofNat] at h
  have := a.isLt
  omega

/-- A byte outside the four of a stored word is as before. -/
theorem storeWord_read_other (m : Memory) (a v : Word) (x : Nat) (h : ∀ k < 4, x ≠ guestAddr a k) :
    (storeWord m a v).read x = m.read x := by
  simp [storeWord, h 0, h 1, h 2, h 3]

theorem guestBytes_length (m : Memory) (a : Word) (n : Nat) : (guestBytes m a n).length = n := by
  simp [guestBytes]

theorem guestBytes_getElem (m : Memory) (a : Word) (n k : Nat) (h : k < (guestBytes m a n).length) :
    (guestBytes m a n)[k] = m.read (guestAddr a k) := by
  simp [guestBytes]

end Sys2Proof.Machine
end

