-- ==== Sys2Proof/Laws/Ops.lean ====
section
/-! SUPPORT. What sequencing, raising, finishing and refusing do: the lemmas a proof about a meaning starts from. -/

namespace Sys2Proof.Machine

@[simp] theorem Eff.bind_ok {α β : Type} (v : α) (s : State) (k : α → State → Eff β) : (Eff.ok v s).bind k = k v s := rfl

@[simp] theorem Eff.bind_raised {α β : Type} (s : State) (k : α → State → Eff β) : (Eff.raised s).bind k = .raised s := rfl

theorem Eff.bind_assoc {α β γ : Type} (e : Eff α) (f : α → State → Eff β) (g : β → State → Eff γ) :
    (e.bind f).bind g = e.bind fun v s => (f v s).bind g := by cases e <;> rfl

@[simp] theorem raise_eq {α : Type} (f : BlockFault) (s : State) : (raise f s : Eff α) = .raised { s with fault := some f } := rfl

@[simp] theorem finish_ok (r : OpResult) (s : State) : finish (.ok r s) = .next { s with result := r } := rfl

@[simp] theorem finish_raised (s : State) : finish (.raised s) = .next { s with result := .noValue } := rfl

/-- A running block performs the operation. -/
theorem operation_running {s : State} (h : s.fault = none) (body : State → Eff OpResult) :
    operation body s = finish (body s) := by simp [operation, h]

/-- A stopped block refuses it, with no effect (R246). -/
theorem operation_stopped {s : State} (h : s.fault ≠ none) (body : State → Eff OpResult) :
    operation body s = .next { s with result := .refused } := by
  unfold operation
  split
  · rfl
  · contradiction

theorem command_ok {s t : State} (h : s.fault = none) {body : State → Eff Unit} (hb : body s = .ok () t) :
    command body s = .next { t with result := .noValue } := by simp [command, operation_running h, hb]

theorem command_raised {s t : State} (h : s.fault = none) {body : State → Eff Unit} (hb : body s = .raised t) :
    command body s = .next { t with result := .noValue } := by simp [command, operation_running h, hb]

theorem command_stopped {s : State} (h : s.fault ≠ none) (body : State → Eff Unit) :
    command body s = .next { s with result := .refused } := operation_stopped h _

/-- The state a part of an operation ends in. -/
def Eff.state {α : Type} : Eff α → State
  | .ok _ s => s
  | .raised s => s

/-- A property of the pair of states that composes is kept by a sequence when both parts keep it. -/
theorem Eff.bind_keeps {α β : Type} {R : State → State → Prop} (trans : ∀ a b c, R a b → R b c → R a c) {s : State}
    {e : Eff α} {k : α → State → Eff β} (he : R s e.state) (hk : ∀ v t, e = .ok v t → R t (k v t).state) :
    R s (e.bind k).state := by
  cases e with
  | ok v t => exact trans _ _ _ he (hk v t rfl)
  | raised t => exact he

/-- A running block ends a command in its body's last state, whether the body completes or raises. -/
theorem command_runs {s : State} (h : s.fault = none) (body : State → Eff Unit) :
    command body s = .next { (body s).state with result := .noValue } := by
  cases hb : body s with
  | ok v t => exact command_ok h hb
  | raised t => exact command_raised h hb

/-- What `command` can do: refuse, or end in its body's last state. -/
theorem command_cases (body : State → Eff Unit) (s : State) :
    (s.fault ≠ none ∧ command body s = .next { s with result := .refused }) ∨
      (s.fault = none ∧ command body s = .next { (body s).state with result := .noValue }) := by
  by_cases h : s.fault = none
  · exact .inr ⟨h, command_runs h body⟩
  · exact .inl ⟨h, command_stopped h body⟩

end Sys2Proof.Machine
end

