-- ==== Sys2Proof/Laws/Accel.lean ====
section
/-! SUPPORT. The accelerator's data operations: when each completes and with what, when each raises and which fault. -/

namespace Sys2Proof.Machine

/-- The prologue passes a configured cursor inside its window (R158, R159). -/
theorem accPrologue_ok {s : State} {m : AccMode} {a e c : Word} (h : s.acc = ⟨some m, some a, some e, some c⟩)
    (hl : a ≤ c) (hu : c ≤ e) : accPrologue s = .ok ⟨a, e, c⟩ s := by
  have h1 : ¬ (c < a ∨ e < c) := by
    simp only [BitVec.le_def, BitVec.lt_def] at *; omega
  simp [accPrologue, h, h1]

theorem accPrologue_outside {s : State} {m : AccMode} {a e c : Word} (h : s.acc = ⟨some m, some a, some e, some c⟩)
    (ho : c < a ∨ e < c) : accPrologue s = raise (.accOutOfWindow c) s := by
  simp [accPrologue, h, ho]

/-- With any register unconfigured the prologue raises (R158). -/
theorem accPrologue_unconfigured {s : State}
    (h : s.acc.mode = none ∨ s.acc.start = none ∨ s.acc.stop = none ∨ s.acc.cur = none) :
    accPrologue s = raise .accUnconfigured s := by
  unfold accPrologue
  split
  · simp_all
  · rfl

theorem accAdvance_inside {w : AccWindow} (h : w.cur ≠ w.stop) (s : State) :
    accAdvance w s = .ok () { s with acc := { s.acc with cur := some (w.cur + 1#32) } } := by simp [accAdvance, h]

theorem accAdvance_end {w : AccWindow} (h : w.cur = w.stop) (s : State) :
    accAdvance w s = raise (.accEndOfRange w.stop) { s with acc := { s.acc with cur := some w.start } } := by
  simp [accAdvance, h]

theorem wbRead_ok {s : State} {i : Nat} (h : i < s.cfg.wbufBytes) : wbRead i s = .ok (s.wbuf.read i) s := by
  simp [wbRead, Nat.not_le.2 h]

theorem wbWrite_ok {s : State} {i : Nat} (h : i < s.cfg.wbufBytes) (b : Byte) :
    wbWrite i b s = .ok () { s with wbuf := s.wbuf.write i b } := by
  simp [wbWrite, Nat.not_le.2 h]

/-- A nibble read inside the window and the buffer (R155). -/
theorem readNibble_ok {s : State} {m : AccMode} {a e c : Word} (h : s.acc = ⟨some m, some a, some e, some c⟩)
    (hl : a ≤ c) (hu : c < e) (hw : c.toNat / 2 < s.cfg.wbufBytes) :
    readNibble s = .ok (nibbleOf c (s.wbuf.read (c.toNat / 2)))
      { s with acc := ⟨some m, some a, some e, some (c + 1#32)⟩, trace := .nibbleRead c :: s.trace } := by
  have hne : c ≠ e := by rintro rfl; simp at hu
  unfold readNibble
  rw [accPrologue_ok h hl (by simp only [BitVec.le_def, BitVec.lt_def] at *; omega)]
  simp only [Eff.bind_ok, nibbleIndex]
  rw [wbRead_ok hw]
  simp [accAdvance, hne, h]

/-- A nibble read at the window's end: the access is made, the cursor wraps, then the fault (R160). -/
theorem readNibble_end {s : State} {m : AccMode} {a c : Word} (h : s.acc = ⟨some m, some a, some c, some c⟩)
    (hl : a ≤ c) (hw : c.toNat / 2 < s.cfg.wbufBytes) :
    readNibble s = .raised { s with
      acc := ⟨some m, some a, some c, some a⟩
      trace := .nibbleRead c :: s.trace
      fault := some (.accEndOfRange c) } := by
  unfold readNibble
  rw [accPrologue_ok h hl (by simp)]
  simp only [Eff.bind_ok, nibbleIndex]
  rw [wbRead_ok hw]
  simp [accAdvance, h]

/-- Past the buffer's end (R56). -/
theorem readNibble_range {s : State} {m : AccMode} {a e c : Word} (h : s.acc = ⟨some m, some a, some e, some c⟩)
    (hl : a ≤ c) (hu : c ≤ e) (hw : s.cfg.wbufBytes ≤ c.toNat / 2) :
    readNibble s = .raised { s with fault := some (.wbufOutOfRange (c.toNat / 2)) } := by
  unfold readNibble
  rw [accPrologue_ok h hl hu]
  simp [nibbleIndex, wbRead, hw]

/-- Outside the window (R159). -/
theorem readNibble_outside {s : State} {m : AccMode} {a e c : Word} (h : s.acc = ⟨some m, some a, some e, some c⟩)
    (ho : c < a ∨ e < c) : readNibble s = .raised { s with fault := some (.accOutOfWindow c) } := by
  unfold readNibble
  rw [accPrologue_outside h ho]; rfl

/-- A word read inside the window and the buffer (R154). -/
theorem readWord_ok {s : State} {m : AccMode} {a e c : Word} (h : s.acc = ⟨some m, some a, some e, some c⟩)
    (hl : a ≤ c) (hu : c < e) (hw : 2 * c.toNat + 1 < s.cfg.wbufBytes) :
    readWord s = .ok (be16 (s.wbuf.read (2 * c.toNat)) (s.wbuf.read (2 * c.toNat + 1)))
      { s with acc := ⟨some m, some a, some e, some (c + 1#32)⟩, trace := .wordRead c :: s.trace } := by
  have hne : c ≠ e := by rintro rfl; simp at hu
  unfold readWord
  rw [accPrologue_ok h hl (by simp only [BitVec.le_def, BitVec.lt_def] at *; omega)]
  simp only [Eff.bind_ok, wordHighIndex, wordLowIndex]
  rw [wbRead_ok (by omega)]
  simp only [Eff.bind_ok]
  rw [wbRead_ok hw]
  simp [accAdvance, hne, h]

/-- A word write inside the window and the buffer (R156). -/
theorem writeWord_ok {s : State} {m : AccMode} {a e c : Word} (h : s.acc = ⟨some m, some a, some e, some c⟩)
    (hl : a ≤ c) (hu : c < e) (hw : 2 * c.toNat + 1 < s.cfg.wbufBytes) (v : Half) :
    writeWord v s = .ok ()
      { s with
        wbuf := (s.wbuf.write (2 * c.toNat) (highByte v)).write (2 * c.toNat + 1) (lowByte v)
        acc := ⟨some m, some a, some e, some (c + 1#32)⟩
        trace := .wordWrite c :: s.trace } := by
  have hne : c ≠ e := by rintro rfl; simp at hu
  unfold writeWord
  rw [accPrologue_ok h hl (by simp only [BitVec.le_def, BitVec.lt_def] at *; omega)]
  simp only [Eff.bind_ok, wordHighIndex, wordLowIndex, Nat.not_le.2 hw, if_false]
  rw [wbWrite_ok (by omega)]
  simp only [Eff.bind_ok]
  rw [wbWrite_ok (by simpa using hw)]
  simp [accAdvance, hne, h, State.traced]

/-- A word write at the window's end: both bytes are written, the cursor wraps, then the fault (R156, R160). -/
theorem writeWord_end {s : State} {m : AccMode} {a c : Word} (h : s.acc = ⟨some m, some a, some c, some c⟩)
    (hl : a ≤ c) (hw : 2 * c.toNat + 1 < s.cfg.wbufBytes) (v : Half) :
    writeWord v s = .raised
      { s with
        wbuf := (s.wbuf.write (2 * c.toNat) (highByte v)).write (2 * c.toNat + 1) (lowByte v)
        acc := ⟨some m, some a, some c, some a⟩
        trace := .wordWrite c :: s.trace
        fault := some (.accEndOfRange c) } := by
  unfold writeWord
  rw [accPrologue_ok h hl (by simp)]
  simp only [Eff.bind_ok, wordHighIndex, wordLowIndex, Nat.not_le.2 hw, if_false]
  rw [wbWrite_ok (by omega)]
  simp only [Eff.bind_ok]
  rw [wbWrite_ok (by simpa using hw)]
  simp [accAdvance, h, State.traced]

/-- Past the buffer's end nothing is written (R156). -/
theorem writeWord_range {s : State} {m : AccMode} {a e c : Word} (h : s.acc = ⟨some m, some a, some e, some c⟩)
    (hl : a ≤ c) (hu : c ≤ e) (hw : s.cfg.wbufBytes ≤ 2 * c.toNat + 1) (v : Half) :
    writeWord v s = .raised { s with fault := some (.wbufOutOfRange (2 * c.toNat + 1)) } := by
  unfold writeWord
  rw [accPrologue_ok h hl hu]
  simp [wordLowIndex, hw]

/-- Outside the window (R159). -/
theorem writeWord_outside {s : State} {m : AccMode} {a e c : Word} (h : s.acc = ⟨some m, some a, some e, some c⟩)
    (ho : c < a ∨ e < c) (v : Half) : writeWord v s = .raised { s with fault := some (.accOutOfWindow c) } := by
  unfold writeWord
  rw [accPrologue_outside h ho]; rfl

/-- One configuration of the hash sets all four registers (R182, R185). -/
theorem configure_eq (m : AccMode) (last c : Word) (s : State) :
    configure m last c s = .ok () { s with acc := ⟨some m, some 0#32, some last, some c⟩ } := by
  have h : ¬ last < 0#32 := by simp [BitVec.lt_def]
  simp [configure, setGranularity, setBounds, setCursor, h]

end Sys2Proof.Machine
end

