-- ==== Sys2Proof/Laws/Hash.lean ====
section
/-! SUPPORT. The hash engine: what the load, the nibble phase and the whole hash do to a configured accelerator, when they complete and when
they raise. -/

namespace Sys2Proof.Machine

/-! ## Bytes and nibbles -/

theorem nibbleOf_even {c : Word} (h : c.toNat % 2 = 0) (b : Byte) : nibbleOf c b = highNibble b := by simp [nibbleOf, h]

theorem nibbleOf_odd {c : Word} (h : c.toNat % 2 = 1) (b : Byte) : nibbleOf c b = lowNibble b := by simp [nibbleOf, h]

theorem be16_getLsbD (a b : Byte) (i : Nat) : (be16 a b).getLsbD i = if i < 8 then b.getLsbD i else a.getLsbD (i - 8) :=
  BitVec.getLsbD_append

theorem highByte_be16 (a b : Byte) : highByte (be16 a b) = a := by
  apply BitVec.eq_of_getLsbD_eq; intro i hi
  simp [highByte, be16_getLsbD, hi]

theorem lowByte_be16 (a b : Byte) : lowByte (be16 a b) = b := by
  apply BitVec.eq_of_getLsbD_eq; intro i hi
  simp [lowByte, be16_getLsbD, hi]

/-- The bytes of a memory from an index on. -/
def bytesFrom (m : Memory) (b k : Nat) : List Byte := (List.range k).map fun i => m.read (b + i)

theorem bytesFrom_succ (m : Memory) (b k : Nat) : bytesFrom m b (k + 1) = m.read b :: bytesFrom m (b + 1) k := by
  simp [bytesFrom, List.range_succ_eq_map, Nat.add_assoc, Nat.add_comm 1]

theorem bytesFrom_length (m : Memory) (b k : Nat) : (bytesFrom m b k).length = k := by simp [bytesFrom]

theorem combineBytes_append (r : HashRegs) (p : Byte) (l l' : List Byte) :
    combineBytes r p (l ++ l') = combineBytes (combineBytes r p l) ((p :: l).getLast (by simp)) l' := by
  induction l generalizing r p with
  | nil => rfl
  | cons b l ih => simp [combineBytes, ih]

theorem stepTrace_add (u : Word) (j k : Nat) :
    stepTrace u (j + k) = stepTrace (u + BitVec.ofNat 32 (2 * j)) k ++ stepTrace u j := by
  induction k with
  | zero => simp [stepTrace]
  | succ k ih =>
    rw [← Nat.add_assoc]
    simp only [stepTrace, ih, List.cons_append, List.cons.injEq, TraceEntry.nibbleRead.injEq, true_and, and_true]
    constructor <;> (apply BitVec.eq_of_toNat_eq; simp; omega)

theorem loadTrace_succ (u : Word) (k : Nat) :
    loadTrace u (k + 1) = loadTrace (u + 1#32) k ++ [.wordWrite u] := by
  induction k with
  | zero => simp [loadTrace]
  | succ k ih =>
    rw [loadTrace, ih]
    simp only [loadTrace, List.cons_append, List.cons.injEq, TraceEntry.wordWrite.injEq, and_true]
    apply BitVec.eq_of_toNat_eq; simp; omega

theorem sumBytes_cons (b : Byte) (l : List Byte) : sumBytes (b :: l) = b.setWidth 32 + sumBytes l := by
  have : ∀ (l : List Byte) (x : Word), l.foldl (fun acc b => acc + b.setWidth 32) x = x + sumBytes l := by
    intro l
    induction l with
    | nil => simp [sumBytes]
    | cons c l ih => intro x; simp only [sumBytes, List.foldl_cons] at *; rw [ih, ih (0#32 + _)]; simp [BitVec.add_assoc]
  simp only [sumBytes, List.foldl_cons]
  rw [this]; simp [sumBytes]

/-! ## The load (R183) -/

/-- The load completes when every word is below the window's end and inside the buffer: it writes the bytes, sums the input ones and
leaves the cursor behind the last word. -/
theorem loadFrom_ok {e : Word} (l : List Byte) (n : Nat) (s : State) (c : Word)
    (h : s.acc = ⟨some .word, some 0#32, some e, some c⟩) (hl : n + n % 2 ≤ l.length)
    (he : c.toNat + (n + 1) / 2 ≤ e.toNat) (hw : 2 * c.toNat + n + n % 2 ≤ s.cfg.wbufBytes) :
    ∃ w, (∀ i, w.read i = if 2 * c.toNat ≤ i ∧ i < 2 * c.toNat + n + n % 2 then l.getD (i - 2 * c.toNat) 0#8 else s.wbuf.read i) ∧
      loadFrom l n s = .ok () { s with
        wbuf := w
        acc := ⟨some .word, some 0#32, some e, some (c + BitVec.ofNat 32 ((n + 1) / 2))⟩
        tr := { s.tr with byteSum := s.tr.byteSum + sumBytes (l.take n) }
        trace := loadTrace c ((n + 1) / 2) ++ s.trace } := by
  induction n using Nat.strongRecOn generalizing l s c with
  | ind n ih =>
    have hlt := e.isLt
    match n, l with
    | 0, l =>
      refine ⟨s.wbuf, fun i => ?_, ?_⟩
      · split
        · omega
        · rfl
      · cases l <;> simp [loadFrom, loadTrace, sumBytes, ← h]
    | 1, [] => simp at hl
    | 1, [a] => simp at hl
    | n + 2, [] => simp at hl
    | n + 2, [a] => simp at hl; omega
    | 1, hi :: lo :: rest =>
      have hc : c < e := by simp only [BitVec.lt_def]; omega
      have hwr := writeWord_ok h (by simp [BitVec.le_def]) hc (by omega) (be16 hi lo)
      refine ⟨(s.wbuf.write (2 * c.toNat) (highByte (be16 hi lo))).write (2 * c.toNat + 1) (lowByte (be16 hi lo)),
        fun i => ?_, ?_⟩
      rotate_left
      · simp only [loadFrom, hwr, Eff.bind_ok, addByteSum]
        simp [loadTrace, sumBytes]
      · rw [highByte_be16, lowByte_be16, Memory.read_write, Memory.read_write]
        by_cases h1 : i = 2 * c.toNat + 1
        · subst h1; simp
        · by_cases h0 : i = 2 * c.toNat
          · subst h0; simp
          · simp only [h1, h0, if_false]
            rw [if_neg (by omega)]
    | n + 2, hi :: lo :: rest =>
      have hc : c < e := by simp only [BitVec.lt_def]; omega
      have hwr := writeWord_ok h (by simp [BitVec.le_def]) hc (by omega) (be16 hi lo)
      have hcn : (c + 1#32).toNat = c.toNat + 1 := by simp; omega
      obtain ⟨w, hw1, hw2⟩ := ih n (by omega) rest
        (addByteSum (hi.setWidth 32 + lo.setWidth 32) { s with
          wbuf := (s.wbuf.write (2 * c.toNat) (highByte (be16 hi lo))).write (2 * c.toNat + 1) (lowByte (be16 hi lo))
          acc := ⟨some .word, some 0#32, some e, some (c + 1#32)⟩
          trace := .wordWrite c :: s.trace }) (c + 1#32) rfl
        (by simp at hl; omega) (by rw [hcn]; omega) (by simp only [addByteSum_cfg]; rw [hcn]; omega)
      refine ⟨w, fun i => ?_, ?_⟩
      · rw [hw1, hcn]
        simp only [addByteSum_wbuf, highByte_be16, lowByte_be16, Memory.read_write]
        by_cases h0 : i = 2 * c.toNat
        · subst h0
          rw [if_neg (by omega), if_neg (by omega), if_pos rfl, if_pos (by omega)]; simp
        · by_cases h1 : i = 2 * c.toNat + 1
          · subst h1
            rw [if_neg (by omega), if_pos rfl, if_pos (by omega)]
            simp
          · by_cases h2 : 2 * (c.toNat + 1) ≤ i ∧ i < 2 * (c.toNat + 1) + n + n % 2
            · rw [if_pos h2, if_pos (by omega)]
              have : i - 2 * c.toNat = i - 2 * (c.toNat + 1) + 1 + 1 := by omega
              rw [this]; rfl
            · rw [if_neg h2, if_neg h1, if_neg h0, if_neg (by omega)]
      · simp only [loadFrom, hwr, Eff.bind_ok]
        rw [hw2]
        have hk : (n + 2 + 1) / 2 = (n + 1) / 2 + 1 := by omega
        simp only [addByteSum, hk, loadTrace_succ, List.take_succ_cons, sumBytes_cons]
        congr 2
        · simp [BitVec.add_assoc]
        · congr 2
          apply BitVec.eq_of_toNat_eq; simp; omega
        · simp

/-! ### Where a run of accesses stops: what the accesses before it do not change -/

theorem stopsAtEnd_move {limit : Nat} {e c c' : Word} (hc : c ≤ c') (hu : c' ≤ e) (hl : c'.toNat ≤ limit) :
    stopsAtEnd limit e c' ↔ stopsAtEnd limit e c := by
  simp only [stopsAtEnd, BitVec.le_def, BitVec.lt_def] at *; omega

theorem stopCursor_move {limit : Nat} {e c c' : Word} (hc : c ≤ c') (hu : c' ≤ e) (hl : c'.toNat ≤ limit) :
    stopCursor limit e c' = stopCursor limit e c := by
  simp only [BitVec.le_def] at hc hu
  have h1 : max c'.toNat limit = max c.toNat limit := by omega
  have x : ¬ e < c' := by simp only [BitVec.lt_def]; omega
  have y : ¬ e < c := by simp only [BitVec.lt_def]; omega
  simp only [stopCursor, x, y, if_false, h1]

theorem wordFault_move {wb : Nat} {e c c' : Word} (hc : c ≤ c') (hu : c' ≤ e) (hl : c'.toNat ≤ wb / 2) :
    wordFault wb e c' = wordFault wb e c := by
  simp only [BitVec.le_def] at hc hu
  have h1 : max c'.toNat (wb / 2) = max c.toNat (wb / 2) := by omega
  have x : ¬ e < c' := by simp only [BitVec.lt_def]; omega
  have y : ¬ e < c := by simp only [BitVec.lt_def]; omega
  simp only [wordFault, x, y, if_false, h1]

theorem nibbleFault_move {wb : Nat} {e c c' : Word} (hc : c ≤ c') (hu : c' ≤ e) (hl : c'.toNat ≤ 2 * wb) :
    nibbleFault wb e c' = nibbleFault wb e c := by
  simp only [BitVec.le_def] at hc hu
  have h1 : max c'.toNat (2 * wb) = max c.toNat (2 * wb) := by omega
  have x : ¬ e < c' := by simp only [BitVec.lt_def]; omega
  have y : ¬ e < c := by simp only [BitVec.lt_def]; omega
  simp only [nibbleFault, x, y, if_false, h1]

/-- An offending access past the window: nothing is done and the cursor stays. -/
theorem stop_outside {limit : Nat} {e c : Word} (h : e < c) : stopCursor limit e c = c ∧ ¬ stopsAtEnd limit e c :=
  ⟨by simp [stopCursor, h], fun g => g.1 h⟩

/-- An offending access past the buffer: the same. -/
theorem stop_range {limit : Nat} {e c : Word} (h : ¬ e < c) (hl : limit ≤ c.toNat) :
    stopCursor limit e c = c ∧ ¬ stopsAtEnd limit e c := by
  have hle : c.toNat ≤ e.toNat := by simpa [BitVec.lt_def] using h
  have hm : max c.toNat limit = c.toNat := by omega
  exact ⟨by simp [stopCursor, h, hm, hle], fun g => by have := g.2; omega⟩

/-- An offending access at the window's end: the cursor wraps. -/
theorem stop_end {limit : Nat} {e c : Word} (h : ¬ e < c) (hl : e.toNat < max c.toNat limit) :
    stopCursor limit e c = 0#32 ∧ stopsAtEnd limit e c :=
  ⟨by simp only [stopCursor, if_neg h, if_neg (Nat.not_le.2 hl)], h, hl⟩

/-- A write that is not before the window's end and inside the buffer raises the fault of R199, with what it wrote. -/
theorem writeWord_raises {s : State} {e c : Word} (h : s.acc = ⟨some .word, some 0#32, some e, some c⟩) (hi lo : Byte)
    (hbad : ¬ (c < e ∧ 2 * c.toNat + 1 < s.cfg.wbufBytes)) :
    ∃ w, (∀ i, w.read i =
        if 2 * c.toNat ≤ i ∧ i < 2 * c.toNat + 2 * (min (s.cfg.wbufBytes / 2) (e.toNat + 1) - c.toNat) then
          [hi, lo].getD (i - 2 * c.toNat) 0#8
        else s.wbuf.read i) ∧
      writeWord (be16 hi lo) s = .raised { s with
        wbuf := w
        acc := ⟨some .word, some 0#32, some e, some (stopCursor (s.cfg.wbufBytes / 2) e c)⟩
        trace := loadTrace c (min (s.cfg.wbufBytes / 2) (e.toNat + 1) - c.toNat) ++ s.trace
        fault := some (wordFault s.cfg.wbufBytes e c) } := by
  simp only [BitVec.lt_def] at hbad
  by_cases ho : e < c
  · have ho' : e.toNat < c.toNat := ho
    have hz : min (s.cfg.wbufBytes / 2) (e.toNat + 1) - c.toNat = 0 := by omega
    refine ⟨s.wbuf, fun i => by rw [hz, if_neg (by omega)], ?_⟩
    rw [writeWord_outside h (.inr ho), hz, (stop_outside ho).1]
    simp [wordFault, ho, loadTrace, ← h]
  · have hle : c.toNat ≤ e.toNat := by simpa [BitVec.lt_def] using ho
    by_cases hr : s.cfg.wbufBytes ≤ 2 * c.toNat + 1
    · have hz : min (s.cfg.wbufBytes / 2) (e.toNat + 1) - c.toNat = 0 := by omega
      have hm : max c.toNat (s.cfg.wbufBytes / 2) = c.toNat := by omega
      refine ⟨s.wbuf, fun i => by rw [hz, if_neg (by omega)], ?_⟩
      rw [writeWord_range h (by simp [BitVec.le_def]) (by simpa [BitVec.le_def] using hle) hr, hz, (stop_range ho (by omega)).1]
      simp [wordFault, ho, hm, hle, loadTrace, ← h]
    · have hce : c = e := BitVec.eq_of_toNat_eq (by omega)
      subst hce
      have hz : min (s.cfg.wbufBytes / 2) (c.toNat + 1) - c.toNat = 1 := by omega
      have hm : ¬ max c.toNat (s.cfg.wbufBytes / 2) ≤ c.toNat := by omega
      refine ⟨(s.wbuf.write (2 * c.toNat) hi).write (2 * c.toNat + 1) lo, fun i => ?_, ?_⟩
      · rw [hz, Memory.read_write, Memory.read_write]
        by_cases h1 : i = 2 * c.toNat + 1
        · subst h1; simp
        · by_cases h0 : i = 2 * c.toNat
          · subst h0; simp
          · rw [if_neg h1, if_neg h0, if_neg (by omega)]
      · rw [writeWord_end h (by simp [BitVec.le_def]) (by omega), hz, (stop_end ho (by omega)).1, highByte_be16, lowByte_be16]
        simp only [wordFault, if_neg ho, if_neg hm]
        simp [loadTrace]

/-- Where some word of a non-empty load would be at or past the window's end or past the buffer's, the load writes the words before
it and raises its fault (R199, R117); `byte_sum` counts the words whose write did not raise. -/
theorem loadFrom_raises {e : Word} (l : List Byte) (n : Nat) (s : State) (c : Word)
    (h : s.acc = ⟨some .word, some 0#32, some e, some c⟩) (hl : n + n % 2 ≤ l.length) (hn : n ≠ 0)
    (hbad : ¬ (c.toNat + (n + 1) / 2 ≤ e.toNat ∧ 2 * c.toNat + n + n % 2 ≤ s.cfg.wbufBytes)) :
    ∃ w, (∀ i, w.read i =
        if 2 * c.toNat ≤ i ∧ i < 2 * c.toNat + 2 * (min (s.cfg.wbufBytes / 2) (e.toNat + 1) - c.toNat) then
          l.getD (i - 2 * c.toNat) 0#8
        else s.wbuf.read i) ∧
      loadFrom l n s = .raised { s with
        wbuf := w
        acc := ⟨some .word, some 0#32, some e, some (stopCursor (s.cfg.wbufBytes / 2) e c)⟩
        tr := { s.tr with byteSum := s.tr.byteSum + sumBytes (l.take (2 * (min (s.cfg.wbufBytes / 2) e.toNat - c.toNat))) }
        trace := loadTrace c (min (s.cfg.wbufBytes / 2) (e.toNat + 1) - c.toNat) ++ s.trace
        fault := some (wordFault s.cfg.wbufBytes e c) } := by
  induction n using Nat.strongRecOn generalizing l s c with
  | ind n ih =>
    have hlt := e.isLt
    match n, l with
    | 0, l => exact absurd rfl hn
    | 1, [] => simp at hl
    | 1, [a] => simp at hl
    | n + 2, [] => simp at hl
    | n + 2, [a] => simp at hl; omega
    | k + 1, hi :: lo :: rest =>
      by_cases hno : c < e ∧ 2 * c.toNat + 1 < s.cfg.wbufBytes
      · obtain ⟨hc, hw⟩ := hno
        have hwr := writeWord_ok h (by simp [BitVec.le_def]) hc hw (be16 hi lo)
        simp only [BitVec.lt_def] at hc
        have hcn : (c + 1#32).toNat = c.toNat + 1 := by simp; omega
        obtain ⟨n, rfl⟩ : ∃ n, k = n + 1 := ⟨k - 1, by omega⟩
        obtain ⟨w, hr, ht⟩ := ih n (by omega) rest
          (addByteSum (hi.setWidth 32 + lo.setWidth 32) { s with
            wbuf := (s.wbuf.write (2 * c.toNat) (highByte (be16 hi lo))).write (2 * c.toNat + 1) (lowByte (be16 hi lo))
            acc := ⟨some .word, some 0#32, some e, some (c + 1#32)⟩
            trace := .wordWrite c :: s.trace }) (c + 1#32) rfl
          (by simp at hl; omega) (by rintro rfl; simp at hbad; omega) (by simp only [addByteSum_cfg]; rw [hcn]; omega)
        have hq : min (s.cfg.wbufBytes / 2) (e.toNat + 1) - c.toNat =
            min (s.cfg.wbufBytes / 2) (e.toNat + 1) - (c.toNat + 1) + 1 := by omega
        have hq' : min (s.cfg.wbufBytes / 2) e.toNat - c.toNat = min (s.cfg.wbufBytes / 2) e.toNat - (c.toNat + 1) + 1 := by omega
        refine ⟨w, fun i => ?_, ?_⟩
        · rw [hr i, hcn]
          simp only [addByteSum_wbuf, addByteSum_cfg, highByte_be16, lowByte_be16, Memory.read_write]
          by_cases h0 : i = 2 * c.toNat
          · subst h0
            rw [if_neg (by omega), if_neg (by omega), if_pos rfl, if_pos (by omega)]; simp
          · by_cases h1 : i = 2 * c.toNat + 1
            · subst h1
              rw [if_neg (by omega), if_pos rfl, if_pos (by omega)]
              simp
            · by_cases h2 : 2 * (c.toNat + 1) ≤ i ∧
                  i < 2 * (c.toNat + 1) + 2 * (min (s.cfg.wbufBytes / 2) (e.toNat + 1) - (c.toNat + 1))
              · rw [if_pos h2, if_pos (by omega)]
                have : i - 2 * c.toNat = i - 2 * (c.toNat + 1) + 1 + 1 := by omega
                rw [this]; rfl
              · rw [if_neg h2, if_neg h1, if_neg h0, if_neg (by omega)]
        · simp only [loadFrom, hwr, Eff.bind_ok]
          rw [ht]
          simp only [addByteSum, hcn]
          rw [hq, hq', loadTrace_succ, show 2 * (min (s.cfg.wbufBytes / 2) e.toNat - (c.toNat + 1) + 1) =
              2 * (min (s.cfg.wbufBytes / 2) e.toNat - (c.toNat + 1)) + 1 + 1 from by omega,
            List.take_succ_cons, List.take_succ_cons, sumBytes_cons, sumBytes_cons,
            stopCursor_move (c := c) (c' := c + 1#32) (by simp only [BitVec.le_def]; omega) (by simp only [BitVec.le_def]; omega) (by omega),
            wordFault_move (c := c) (c' := c + 1#32) (by simp only [BitVec.le_def]; omega) (by simp only [BitVec.le_def]; omega) (by omega)]
          simp [BitVec.add_assoc]
      · obtain ⟨w, hr, ht⟩ := writeWord_raises h hi lo hno
        simp only [BitVec.lt_def] at hno
        have hz : min (s.cfg.wbufBytes / 2) e.toNat - c.toNat = 0 := by omega
        refine ⟨w, fun i => ?_, ?_⟩
        · rw [hr i]
          by_cases hi' : 2 * c.toNat ≤ i ∧ i < 2 * c.toNat + 2 * (min (s.cfg.wbufBytes / 2) (e.toNat + 1) - c.toNat)
          · rw [if_pos hi', if_pos hi']
            obtain hx | hx : i - 2 * c.toNat = 0 ∨ i - 2 * c.toNat = 1 := by omega
            · rw [hx]; rfl
            · rw [hx]; rfl
          · rw [if_neg hi', if_neg hi']
        · rw [hz]
          cases k with
          | zero => simp [loadFrom, ht, sumBytes]
          | succ k => simp [loadFrom, ht, sumBytes]

/-! ## The nibble phase (R186 to R189) -/

/-- One combining step with the next byte, from an even cursor (R188). -/
theorem combineNext_ok {s : State} {m : AccMode} {e c : Word} {b : Nat}
    (h : s.acc = ⟨some m, some 0#32, some e, some c⟩) (hb : c.toNat = 2 * b) (hu : 2 * b + 2 ≤ e.toNat)
    (hw : b < s.cfg.wbufBytes) :
    combineNext s = .ok (highNibble (s.wbuf.read b), lowNibble (s.wbuf.read b)) { s with
      acc := ⟨some m, some 0#32, some e, some (c + 2#32)⟩
      he := combineRegs s.he s.tr.prev1 s.tr.prev2 (highNibble (s.wbuf.read b)) (lowNibble (s.wbuf.read b))
      trace := .combined :: .nibbleRead (c + 1#32) :: .nibbleRead c :: s.trace } := by
  have hlt := e.isLt
  have hcn : (c + 1#32).toNat = 2 * b + 1 := by simp [hb]; omega
  unfold combineNext
  rw [readNibble_ok h (by simp [BitVec.le_def]) (by simp only [BitVec.lt_def]; omega) (by omega)]
  simp only [Eff.bind_ok]
  rw [readNibble_ok (s := { s with acc := _, trace := _ }) rfl (by simp [BitVec.le_def])
    (by simp only [BitVec.lt_def]; omega) (by simp only; omega)]
  simp only [Eff.bind_ok, combineStep]
  rw [nibbleOf_even (by omega), nibbleOf_odd (by omega), hcn, hb]
  have h1 : 2 * b / 2 = b := by omega
  have h2 : (2 * b + 1) / 2 = b := by omega
  have h3 : c + 1#32 + 1#32 = c + 2#32 := by rw [BitVec.add_assoc]; rfl
  simp only [h1, h2, h3]

/-- What a nibble phase has changed when a read of it raises: the accelerator, the hash registers, the nibble pair and the loop indices,
the trace and the fault. `c` is the unit the phase started from, `made` what it did before the pair that raises. -/
def nibbleStop (s : State) (e c : Word) (he : HashRegs) (tr : Transients) (made : List TraceEntry) : State :=
  { s with
    acc := ⟨some .nibble, some 0#32, some e, some (stopCursor (2 * s.cfg.wbufBytes) e c)⟩
    he := he
    tr := tr
    trace := endTrace (2 * s.cfg.wbufBytes) e c ++ (made ++ s.trace)
    fault := some (nibbleFault s.cfg.wbufBytes e c) }

/-- The pairs before the one that raises do not change where it does. -/
theorem nibbleStop_move {s : State} {e c c' : Word} (hc : c ≤ c') (hu : c' ≤ e) (hl : c'.toNat ≤ 2 * s.cfg.wbufBytes)
    (he : HashRegs) (tr : Transients) (made : List TraceEntry) : nibbleStop s e c' he tr made = nibbleStop s e c he tr made := by
  simp only [nibbleStop, endTrace, stopCursor_move hc hu hl, stopsAtEnd_move hc hu hl, nibbleFault_move hc hu hl]

theorem nibbleStop_step {s : State} {e c : Word} {b : Nat} (hb : c.toNat = 2 * b) (hu : 2 * b + 2 ≤ e.toNat)
    (hw : b < s.cfg.wbufBytes) (he : HashRegs) (tr : Transients) (made : List TraceEntry) :
    nibbleStop s e (c + 2#32) he tr made = nibbleStop s e c he tr made := by
  have hel := e.isLt
  have hcn : (c + 2#32).toNat = c.toNat + 2 := by simp; omega
  exact nibbleStop_move (by simp only [BitVec.le_def]; omega) (by simp only [BitVec.le_def]; omega) (by omega) he tr made

/-- Two nibble reads of one byte, not both before the window's end and inside the buffer: one of them raises the fault of R199. Between
them only the transients change, by `g`. -/
theorem readPair_raises {β : Type} {s : State} {e c : Word} {b : Nat}
    (h : s.acc = ⟨some .nibble, some 0#32, some e, some c⟩) (hb : c.toNat = 2 * b) (ho : e.toNat % 2 = 1)
    (hbad : ¬ (2 * b + 2 ≤ e.toNat ∧ b < s.cfg.wbufBytes)) (g : Nibble → Transients → Transients)
    (k : Nibble → Nibble → State → Eff β) :
    ∃ tr, (tr = s.tr ∨ ∃ v, tr = g v s.tr) ∧
      ((readNibble s).bind fun p u => (readNibble { u with tr := g p u.tr }).bind fun q w => k p q w) =
        .raised (nibbleStop s e c s.he tr []) := by
  have hlt := e.isLt
  by_cases hout : e < c
  · refine ⟨s.tr, .inl rfl, ?_⟩
    rw [readNibble_outside h (.inr hout)]
    simp [nibbleStop, endTrace, (stop_outside hout).1, (stop_outside hout).2, nibbleFault, hout, ← h]
  · have hle : c.toNat ≤ e.toNat := by simpa [BitVec.lt_def] using hout
    by_cases hr : s.cfg.wbufBytes ≤ c.toNat / 2
    · have hm : max c.toNat (2 * s.cfg.wbufBytes) = c.toNat := by omega
      have hs := stop_range (limit := 2 * s.cfg.wbufBytes) hout (by omega)
      refine ⟨s.tr, .inl rfl, ?_⟩
      rw [readNibble_range h (by simp [BitVec.le_def]) hle hr]
      simp [nibbleStop, endTrace, hs.1, hs.2, nibbleFault, hout, hm, hle, ← h]
    · have hm : ¬ max c.toNat (2 * s.cfg.wbufBytes) ≤ e.toNat := by omega
      have hs := stop_end (limit := 2 * s.cfg.wbufBytes) hout (by omega)
      have hcn : (c + 1#32).toNat = c.toNat + 1 := by simp; omega
      have hend : c + 1#32 = e := by apply BitVec.eq_of_toNat_eq; omega
      have hback : e - 1#32 = c := by rw [← hend]; simp
      refine ⟨g (nibbleOf c (s.wbuf.read (c.toNat / 2))) s.tr, .inr ⟨_, rfl⟩, ?_⟩
      rw [readNibble_ok h (by simp [BitVec.le_def]) (by simp only [BitVec.lt_def]; omega) (by omega), Eff.bind_ok, hend,
        readNibble_end (c := e) rfl (by simp [BitVec.le_def]) (by simp only; rw [← hend, hcn]; omega), Eff.bind_raised]
      simp only [nibbleStop, endTrace, hs.1, if_pos hs.2, nibbleFault, if_neg hout, if_neg hm, hback]
      rfl

/-- A combining step whose two nibbles are not both before the window's end and inside the buffer raises, and combines nothing. -/
theorem combineNext_raises {s : State} {e c : Word} {b : Nat}
    (h : s.acc = ⟨some .nibble, some 0#32, some e, some c⟩) (hb : c.toNat = 2 * b) (ho : e.toNat % 2 = 1)
    (hbad : ¬ (2 * b + 2 ≤ e.toNat ∧ b < s.cfg.wbufBytes)) :
    combineNext s = .raised (nibbleStop s e c s.he s.tr []) := by
  obtain ⟨tr, h1, h2⟩ := readPair_raises h hb ho hbad (fun _ t => t)
    (fun p q w => .ok (p, q) (combineStep w.tr.prev1 w.tr.prev2 p q w))
  have : tr = s.tr := by simpa using h1
  subst this
  exact h2

/-- One pass of the inner loop (R188). -/
theorem innerStep_ok {s : State} {m : AccMode} {e c : Word} {b : Nat} (j : BitVec 1)
    (h : s.acc = ⟨some m, some 0#32, some e, some c⟩) (hb : c.toNat = 2 * b) (hu : 2 * b + 2 ≤ e.toNat)
    (hw : b < s.cfg.wbufBytes) :
    innerStep j s = .ok () { s with
      acc := ⟨some m, some 0#32, some e, some (c + 2#32)⟩
      he := combineRegs s.he s.tr.prev1 s.tr.prev2 (highNibble (s.wbuf.read b)) (lowNibble (s.wbuf.read b))
      tr := { s.tr with subIndex := j, prev1 := highNibble (s.wbuf.read b), prev2 := lowNibble (s.wbuf.read b) }
      trace := .combined :: .nibbleRead (c + 1#32) :: .nibbleRead c :: s.trace } := by
  have hn := combineNext_ok (s := { s with tr := { s.tr with subIndex := j } }) h hb hu hw
  simp only [innerStep, hn, Eff.bind_ok]

theorem innerStep_raises {s : State} {e c : Word} {b : Nat} (j : BitVec 1)
    (h : s.acc = ⟨some .nibble, some 0#32, some e, some c⟩) (hb : c.toNat = 2 * b) (ho : e.toNat % 2 = 1)
    (hbad : ¬ (2 * b + 2 ≤ e.toNat ∧ b < s.cfg.wbufBytes)) :
    innerStep j s = .raised (nibbleStop s e c s.he { s.tr with subIndex := j } []) := by
  simp only [innerStep, combineNext_raises (s := { s with tr := { s.tr with subIndex := j } }) h hb ho hbad, Eff.bind_raised]
  rfl

/-- The main loop (R188) from an even cursor: two bytes an iteration, the previous byte's nibbles held in `prev1` and `prev2`. -/
theorem mainLoop_ok {e : Word} (k : Nat) (s : State) (c : Word) (b : Nat) (p : Byte) (hlt : 2 * b + 4 * k ≤ e.toNat)
    (h : s.acc = ⟨some .nibble, some 0#32, some e, some c⟩) (hb : c.toNat = 2 * b) (hw : b + 2 * k ≤ s.cfg.wbufBytes)
    (h1 : s.tr.prev1 = highNibble p) (h2 : s.tr.prev2 = lowNibble p) :
    ∃ tr, tr.prev1 = highNibble ((p :: bytesFrom s.wbuf b (2 * k)).getLast (by simp)) ∧
      tr.prev2 = lowNibble ((p :: bytesFrom s.wbuf b (2 * k)).getLast (by simp)) ∧
      tr.lbuf = s.tr.lbuf ∧ tr.byteSum = s.tr.byteSum ∧
      mainLoop k s = .ok () { s with
        acc := ⟨some .nibble, some 0#32, some e, some (c + BitVec.ofNat 32 (4 * k))⟩
        he := combineBytes s.he p (bytesFrom s.wbuf b (2 * k))
        tr := tr
        trace := stepTrace c (2 * k) ++ s.trace } := by
  induction k generalizing s c b p with
  | zero => exact ⟨s.tr, by simpa [bytesFrom] using h1, by simpa [bytesFrom] using h2, rfl, rfl, by simp [mainLoop, bytesFrom, combineBytes, stepTrace, ← h]⟩
  | succ k ih =>
    have hel := e.isLt
    have hc2 : (c + 2#32).toNat = 2 * (b + 1) := by simp [hb]; omega
    have hc4 : (c + 4#32).toNat = 2 * (b + 2) := by simp [hb]; omega
    have e4 : c + 2#32 + 2#32 = c + 4#32 := by rw [BitVec.add_assoc]; rfl
    have e3 : c + 2#32 + 1#32 = c + 3#32 := by rw [BitVec.add_assoc]; rfl
    have i1 := innerStep_ok 0#1 h hb (by omega) (by omega)
    have i2 := innerStep_ok (s := { s with
        acc := ⟨some .nibble, some 0#32, some e, some (c + 2#32)⟩
        he := combineRegs s.he s.tr.prev1 s.tr.prev2 (highNibble (s.wbuf.read b)) (lowNibble (s.wbuf.read b))
        tr := { s.tr with subIndex := 0#1, prev1 := highNibble (s.wbuf.read b), prev2 := lowNibble (s.wbuf.read b) }
        trace := .combined :: .nibbleRead (c + 1#32) :: .nibbleRead c :: s.trace }) 1#1 rfl hc2 (by omega) (by simp only; omega)
    simp only [h1, h2, e4, e3] at i1 i2
    simp only [mainLoop, i1, i2, Eff.bind_ok]
    obtain ⟨tr, t1, t2, t3, t5, t4⟩ := ih { s with
        acc := ⟨some .nibble, some 0#32, some e, some (c + 4#32)⟩
        he := combineBytes s.he p [s.wbuf.read b, s.wbuf.read (b + 1)]
        tr := { s.tr with
          prev1 := highNibble (s.wbuf.read (b + 1)), prev2 := lowNibble (s.wbuf.read (b + 1))
          subIndex := 1#1, pairIndex := s.tr.pairIndex + 1#16 }
        trace := .combined :: .nibbleRead (c + 3#32) :: .nibbleRead (c + 2#32) ::
          .combined :: .nibbleRead (c + 1#32) :: .nibbleRead c :: s.trace }
      (c + 4#32) (b + 2) (s.wbuf.read (b + 1)) (by omega) rfl hc4 (by simp only; omega) rfl rfl
    have hbytes : bytesFrom s.wbuf b (2 * (k + 1)) = s.wbuf.read b :: s.wbuf.read (b + 1) :: bytesFrom s.wbuf (b + 2) (2 * k) := by
      rw [show 2 * (k + 1) = 2 * k + 1 + 1 from by omega, bytesFrom_succ, bytesFrom_succ]
    refine ⟨tr, ?_, ?_, t3, t5, ?_⟩
    · rw [t1]; congr 1; simp [hbytes]
    · rw [t2]; congr 1; simp [hbytes]
    · simp only [combineBytes] at t4
      rw [t4, hbytes]
      simp only [combineBytes]
      have hcur : c + 4#32 + BitVec.ofNat 32 (4 * k) = c + BitVec.ofNat 32 (4 * (k + 1)) := by
        apply BitVec.eq_of_toNat_eq; simp; omega
      have htr : stepTrace c (2 * (k + 1)) = stepTrace (c + 4#32) (2 * k) ++ [.combined, .nibbleRead (c + 3#32),
          .nibbleRead (c + 2#32), .combined, .nibbleRead (c + 1#32), .nibbleRead c] := by
        rw [show 2 * (k + 1) = 2 + 2 * k from by omega, stepTrace_add]
        simp [stepTrace]
      rw [hcur, htr]
      simp

/-- Pairs read whole: none where the next pair raises. -/
theorem wholePairs_zero {wb b : Nat} {e c : Word} (hb : c.toNat = 2 * b) (ho : e.toNat % 2 = 1)
    (hbad : ¬ (2 * b + 2 ≤ e.toNat ∧ b < wb)) : wholePairs wb e c = 0 := by
  unfold wholePairs; omega

/-- One more than from the next byte on where the next pair does not raise. -/
theorem wholePairs_succ {wb b : Nat} {e c : Word} (hb : c.toNat = 2 * b) (hu : 2 * b + 2 ≤ e.toNat) (hw : b < wb) :
    wholePairs wb e c = wholePairs wb e (c + 2#32) + 1 := by
  have hel := e.isLt
  have hcn : (c + 2#32).toNat = c.toNat + 2 := by simp; omega
  unfold wholePairs; omega

theorem stepTrace_succ (u : Word) (k : Nat) :
    stepTrace u (k + 1) = stepTrace (u + 2#32) k ++ [.combined, .nibbleRead (u + 1#32), .nibbleRead u] := by
  rw [Nat.add_comm, stepTrace_add]; simp [stepTrace]

/-- One pass of the inner loop, for a run that raises later: the next byte is combined, and a stop from the state it leaves is the stop from
before it with this pass made. -/
theorem innerStep_continues {s : State} {e c : Word} {b : Nat} {p : Byte} (j : BitVec 1)
    (h : s.acc = ⟨some .nibble, some 0#32, some e, some c⟩) (hb : c.toNat = 2 * b) (hu : 2 * b + 2 ≤ e.toNat)
    (hw : b < s.cfg.wbufBytes) (h1 : s.tr.prev1 = highNibble p) (h2 : s.tr.prev2 = lowNibble p) :
    ∃ u, innerStep j s = .ok () u ∧ u.acc = ⟨some .nibble, some 0#32, some e, some (c + 2#32)⟩ ∧ u.wbuf = s.wbuf ∧ u.cfg = s.cfg ∧
      u.he = combineBytes s.he p [s.wbuf.read b] ∧ u.tr.prev1 = highNibble (s.wbuf.read b) ∧
      u.tr.prev2 = lowNibble (s.wbuf.read b) ∧ u.tr.lbuf = s.tr.lbuf ∧ u.tr.byteSum = s.tr.byteSum ∧
      ∀ he tr made, nibbleStop u e (c + 2#32) he tr made =
        nibbleStop s e c he tr (made ++ [.combined, .nibbleRead (c + 1#32), .nibbleRead c]) := by
  have hs := innerStep_ok j h hb hu hw
  rw [h1, h2] at hs
  refine ⟨_, hs, rfl, rfl, rfl, rfl, rfl, rfl, rfl, rfl, fun he tr made => ?_⟩
  rw [← nibbleStop_step hb hu hw]
  simp [nibbleStop]

/-- The main loop raises where its last byte is not before the window's end or not inside the buffer: after the combining steps of the
bytes before that. -/
theorem mainLoop_raises {e : Word} (k : Nat) (s : State) (c : Word) (b : Nat) (p : Byte) (hk : k ≠ 0)
    (h : s.acc = ⟨some .nibble, some 0#32, some e, some c⟩) (hb : c.toNat = 2 * b) (ho : e.toNat % 2 = 1)
    (hbad : ¬ (2 * b + 4 * k ≤ e.toNat ∧ b + 2 * k ≤ s.cfg.wbufBytes))
    (h1 : s.tr.prev1 = highNibble p) (h2 : s.tr.prev2 = lowNibble p) :
    ∃ tr, tr.lbuf = s.tr.lbuf ∧ tr.byteSum = s.tr.byteSum ∧
      mainLoop k s = .raised (nibbleStop s e c (combineBytes s.he p (bytesFrom s.wbuf b (wholePairs s.cfg.wbufBytes e c))) tr
        (stepTrace c (wholePairs s.cfg.wbufBytes e c))) := by
  induction k generalizing s c b p with
  | zero => exact absurd rfl hk
  | succ k ih =>
    have hel := e.isLt
    simp only [mainLoop]
    by_cases g1 : 2 * b + 2 ≤ e.toNat ∧ b < s.cfg.wbufBytes
    · obtain ⟨u, i1, a1, w1, c1, he1, p1, q1, l1, b1, m1⟩ := innerStep_continues 0#1 h hb g1.1 g1.2 h1 h2
      have hc2 : (c + 2#32).toNat = 2 * (b + 1) := by simp [hb]; omega
      rw [i1, Eff.bind_ok, wholePairs_succ hb g1.1 g1.2, bytesFrom_succ, stepTrace_succ]
      by_cases g2 : 2 * (b + 1) + 2 ≤ e.toNat ∧ b + 1 < u.cfg.wbufBytes
      · obtain ⟨v, i2, a2, w2, c2, he2, p2, q2, l2, b2, m2⟩ := innerStep_continues 1#1 a1 hc2 g2.1 g2.2 p1 q1
        have hc4 : (c + 2#32 + 2#32).toNat = 2 * (b + 2) := by rw [BitVec.toNat_add, hc2]; simp; omega
        obtain ⟨tr, t1, t2, t3⟩ := ih { v with tr := { v.tr with pairIndex := v.tr.pairIndex + 1#16 } } (c + 2#32 + 2#32) (b + 2)
          (u.wbuf.read (b + 1)) (by rintro rfl; apply hbad; rw [c1] at g2; omega) a2 hc4 (by simp only [c2, c1]; omega) p2 q2
        have m3 := m2 (combineBytes v.he (u.wbuf.read (b + 1)) (bytesFrom v.wbuf (b + 2) (wholePairs v.cfg.wbufBytes e (c + 2#32 + 2#32)))) tr
          (stepTrace (c + 2#32 + 2#32) (wholePairs v.cfg.wbufBytes e (c + 2#32 + 2#32)))
        refine ⟨tr, t1.trans (l2.trans l1), t2.trans (b2.trans b1), ?_⟩
        rw [i2, Eff.bind_ok, t3]
        refine congrArg Eff.raised (Eq.trans m3 ?_)
        rw [c1] at g2
        rw [m1, wholePairs_succ hc2 g2.1 g2.2, bytesFrom_succ, stepTrace_succ, he2, he1, w2, w1, c2, c1]
        simp [combineBytes, Nat.add_assoc]
      · rw [innerStep_raises 1#1 a1 hc2 ho g2, Eff.bind_raised, m1, he1]
        rw [c1] at g2
        rw [wholePairs_zero hc2 ho g2]
        exact ⟨{ u.tr with subIndex := 1#1 }, l1, b1, rfl⟩
    · rw [innerStep_raises 0#1 h hb ho g1, Eff.bind_raised, wholePairs_zero hb ho g1]
      exact ⟨{ s.tr with subIndex := 0#1 }, rfl, rfl, rfl⟩

end Sys2Proof.Machine
end

