-- ==== Sys2Proof/Laws/HashWhole.lean ====
section
/-! SUPPORT. The whole hash: it completes exactly under the condition of spec/43_hash_engine.md R199, and then leaves the checksum of the
mixed bytes in the hash registers. -/

namespace Sys2Proof.Machine

/-! ## Counts -/

/-- R187 as a number: the loop's combining steps and the final one make R198's count. -/
theorem pairCount_steps (n : Half) :
    2 * (pairCount n).toNat + (if n.toNat % 2 = 0 then 1 else 0) = combiningSteps n.toNat := by
  unfold pairCount combiningSteps
  by_cases h : n = 0#16
  · subst h; simp
  · have h0 : n.toNat ≠ 0 := fun hh => h (BitVec.eq_of_toNat_eq (by simpa using hh))
    have hlt := n.isLt
    have hsub : ((n - 1#16) / 2#16).toNat = (n.toNat - 1) / 2 := by
      rw [BitVec.toNat_udiv, BitVec.toNat_sub]; simp; omega
    rw [if_neg h, if_neg h0, hsub]
    split <;> omega

theorem round4_ge (n : Half) : n.toNat + n.toNat % 2 ≤ round4 n := by unfold round4; omega

theorem round4_le (n : Half) : round4 n ≤ 65536 := by have := n.isLt; unfold round4; omega

theorem round4_zero {n : Half} : round4 n = 0 ↔ n.toNat = 0 := by unfold round4; omega

theorem nibbleCursor_toNat (wa : Word) : (nibbleCursor wa).toNat = 4 * wa.toNat % 4294967296 := by
  simp [nibbleCursor, BitVec.toNat_shiftLeft, Nat.shiftLeft_eq, Nat.mul_comm]

theorem nibbleCursor_even (wa : Word) : (nibbleCursor wa).toNat = 2 * firstHashedByte wa := by
  rw [nibbleCursor_toNat]; unfold firstHashedByte; omega

/-! ## The nibble phase -/

theorem readFirstPair_ok {s : State} {e c : Word} {b : Nat} (h : s.acc = ⟨some .nibble, some 0#32, some e, some c⟩)
    (hb : c.toNat = 2 * b) (hu : 2 * b + 2 ≤ e.toNat) (hw : b < s.cfg.wbufBytes) :
    readFirstPair s = .ok () { s with
      acc := ⟨some .nibble, some 0#32, some e, some (c + 2#32)⟩
      tr := { s.tr with prev1 := highNibble (s.wbuf.read b), prev2 := lowNibble (s.wbuf.read b) }
      trace := .nibbleRead (c + 1#32) :: .nibbleRead c :: s.trace } := by
  have hel := e.isLt
  have hcn : (c + 1#32).toNat = 2 * b + 1 := by simp [hb]; omega
  have h3 : c + 1#32 + 1#32 = c + 2#32 := by rw [BitVec.add_assoc]; rfl
  have d1 : 2 * b / 2 = b := by omega
  have d2 : (2 * b + 1) / 2 = b := by omega
  have r1 := readNibble_ok h (by simp [BitVec.le_def]) (by simp only [BitVec.lt_def]; omega) (by omega)
  have r2 := readNibble_ok (s := { s with
      acc := ⟨some .nibble, some 0#32, some e, some (c + 1#32)⟩
      tr := { s.tr with prev1 := highNibble (s.wbuf.read b) }
      trace := .nibbleRead c :: s.trace }) rfl (by simp [BitVec.le_def])
      (by simp only [BitVec.lt_def]; omega) (by simp only; omega)
  rw [nibbleOf_even (by omega), hb, d1] at r1
  rw [nibbleOf_odd (by omega), hcn, d2, h3] at r2
  simp only [readFirstPair, r1, r2, Eff.bind_ok]

theorem readFirstPair_raises {s : State} {e c : Word} {b : Nat} (h : s.acc = ⟨some .nibble, some 0#32, some e, some c⟩)
    (hb : c.toNat = 2 * b) (ho : e.toNat % 2 = 1) (hbad : ¬ (2 * b + 2 ≤ e.toNat ∧ b < s.cfg.wbufBytes)) :
    ∃ tr, tr.lbuf = s.tr.lbuf ∧ tr.byteSum = s.tr.byteSum ∧ readFirstPair s = .raised (nibbleStop s e c s.he tr []) := by
  obtain ⟨tr, h1, h2⟩ := readPair_raises h hb ho hbad (fun v t => { t with prev1 := v })
    (fun _ p2 t => .ok () { t with tr := { t.tr with prev2 := p2 } })
  refine ⟨tr, ?_, ?_, h2⟩ <;> rcases h1 with rfl | ⟨v, rfl⟩ <;> rfl

/-- Steps 5 to 8 complete when every byte they read is before the window's end and inside the buffer. -/
theorem hashNibbles_ok {s : State} {e c : Word} {b : Nat} (h : s.acc = ⟨some .nibble, some 0#32, some e, some c⟩)
    (hb : c.toNat = 2 * b) (hu : 2 * b + 2 * (combiningSteps s.req.inputSize.toNat + 1) ≤ e.toNat)
    (hw : b + combiningSteps s.req.inputSize.toNat + 1 ≤ s.cfg.wbufBytes) :
    ∃ tr, tr.lbuf = s.tr.lbuf ∧ hashNibbles s = .ok () { s with
      acc := ⟨some .nibble, some 0#32, some e, some (c + BitVec.ofNat 32 (2 * (combiningSteps s.req.inputSize.toNat + 1)))⟩
      he := combineBytes s.he (s.wbuf.read b) (bytesFrom s.wbuf (b + 1) (combiningSteps s.req.inputSize.toNat))
      tr := tr
      trace := stepTrace (c + 2#32) (combiningSteps s.req.inputSize.toNat) ++
        .nibbleRead (c + 1#32) :: .nibbleRead c :: s.trace } := by
  have hel := e.isLt
  have hsteps := pairCount_steps s.req.inputSize
  generalize hk : (pairCount s.req.inputSize).toNat = k at hsteps
  generalize hN : combiningSteps s.req.inputSize.toNat = N at *
  have hc2 : (c + 2#32).toNat = 2 * (b + 1) := by simp [hb]; omega
  obtain ⟨tr, t1, t2, t3, -, t4⟩ := mainLoop_ok k (setPairCount { s with
      acc := ⟨some .nibble, some 0#32, some e, some (c + 2#32)⟩
      tr := { s.tr with prev1 := highNibble (s.wbuf.read b), prev2 := lowNibble (s.wbuf.read b) }
      trace := .nibbleRead (c + 1#32) :: .nibbleRead c :: s.trace }) (c + 2#32) (b + 1) (s.wbuf.read b)
      (by split at hsteps <;> omega) rfl hc2 (by simp only [setPairCount_cfg]; split at hsteps <;> omega) rfl rfl
  have hf := readFirstPair_ok h hb (by omega) (by omega)
  simp only [setPairCount_tr, setPairCount_wbuf, setPairCount_he, setPairCount_trace] at t1 t2 t3 t4
  have hloop : hashNibbles s = finalStep { s with
      acc := ⟨some .nibble, some 0#32, some e, some (c + 2#32 + BitVec.ofNat 32 (4 * k))⟩
      he := combineBytes s.he (s.wbuf.read b) (bytesFrom s.wbuf (b + 1) (2 * k))
      tr := tr
      trace := stepTrace (c + 2#32) (2 * k) ++ .nibbleRead (c + 1#32) :: .nibbleRead c :: s.trace } := by
    simp only [hashNibbles, hf, Eff.bind_ok, setPairCount_tr, hk, t4]
    rfl
  have hcur : c + 2#32 + BitVec.ofNat 32 (4 * k) = c + BitVec.ofNat 32 (2 * (2 * k + 1)) := by
    apply BitVec.eq_of_toNat_eq; simp; omega
  rw [hloop, hcur]
  by_cases hn : s.req.inputSize.toNat % 2 = 0
  · rw [if_pos hn] at hsteps
    subst hsteps
    have hcl : (c + BitVec.ofNat 32 (2 * (2 * k + 1))).toNat = 2 * (b + (2 * k + 1)) := by simp [hb]; omega
    have hc := combineNext_ok (s := { s with
        acc := ⟨some .nibble, some 0#32, some e, some (c + BitVec.ofNat 32 (2 * (2 * k + 1)))⟩
        he := combineBytes s.he (s.wbuf.read b) (bytesFrom s.wbuf (b + 1) (2 * k))
        tr := tr
        trace := stepTrace (c + 2#32) (2 * k) ++ .nibbleRead (c + 1#32) :: .nibbleRead c :: s.trace }) rfl hcl
        (by omega) (by simp only; omega)
    refine ⟨tr, t3, ?_⟩
    simp only [finalStep, hn, if_true, hc, Eff.bind_ok]
    have hby : bytesFrom s.wbuf (b + 1) (2 * k + 1) = bytesFrom s.wbuf (b + 1) (2 * k) ++ [s.wbuf.read (b + (2 * k + 1))] := by
      simp only [bytesFrom, List.range_succ, List.map_append, List.map_cons, List.map_nil]
      rw [show b + 1 + 2 * k = b + (2 * k + 1) from by omega]
    rw [hby, combineBytes_append]
    simp only [combineBytes, t1, t2, stepTrace]
    have a1 : c + BitVec.ofNat 32 (2 * (2 * k + 1)) + 2#32 = c + BitVec.ofNat 32 (2 * (2 * k + 1 + 1)) := by
      apply BitVec.eq_of_toNat_eq; simp; omega
    have a2 : c + BitVec.ofNat 32 (2 * (2 * k + 1)) + 1#32 = c + 2#32 + BitVec.ofNat 32 (2 * (2 * k) + 1) := by
      apply BitVec.eq_of_toNat_eq; simp; omega
    have a3 : c + BitVec.ofNat 32 (2 * (2 * k + 1)) = c + 2#32 + BitVec.ofNat 32 (2 * (2 * k)) := by
      apply BitVec.eq_of_toNat_eq; simp; omega
    rw [a1, a2, a3]
    rfl
  · rw [if_neg hn] at hsteps
    simp only [Nat.add_zero] at hsteps
    subst hsteps
    exact ⟨tr, t3, by simp [finalStep, hn]⟩

/-- The hash registers after the combining steps of a run of bytes: one step for each byte after the first (R188). -/
def combineAll (r : HashRegs) : List Byte → HashRegs
  | [] => r
  | b :: rest => combineBytes r b rest

theorem checksum_eq (x : Word) (l : List Byte) : checksum x l = combineAll (initRegs x) l := by cases l <;> rfl

/-- Steps 5 to 8 raise where some byte they read is not before the window's end or not inside the buffer, after the combining steps of the
bytes before it. -/
theorem hashNibbles_raises {s : State} {e c : Word} {b : Nat} (h : s.acc = ⟨some .nibble, some 0#32, some e, some c⟩)
    (hb : c.toNat = 2 * b) (ho : e.toNat % 2 = 1)
    (hbad : ¬ (2 * b + 2 * (combiningSteps s.req.inputSize.toNat + 1) ≤ e.toNat ∧
      b + combiningSteps s.req.inputSize.toNat + 1 ≤ s.cfg.wbufBytes)) :
    ∃ tr, tr.lbuf = s.tr.lbuf ∧ tr.byteSum = s.tr.byteSum ∧
      hashNibbles s = .raised (nibbleStop s e c (combineAll s.he (bytesFrom s.wbuf b (wholePairs s.cfg.wbufBytes e c))) tr
        (pairsTrace c (wholePairs s.cfg.wbufBytes e c))) := by
  have hel := e.isLt
  have hsteps := pairCount_steps s.req.inputSize
  generalize hk : (pairCount s.req.inputSize).toNat = k at hsteps
  generalize hN : combiningSteps s.req.inputSize.toNat = N at *
  by_cases g1 : 2 * b + 2 ≤ e.toNat ∧ b < s.cfg.wbufBytes
  · have hf := readFirstPair_ok h hb g1.1 g1.2
    have hc2 : (c + 2#32).toNat = 2 * (b + 1) := by simp [hb]; omega
    simp only [hashNibbles, hf, Eff.bind_ok, setPairCount_tr, hk]
    rw [wholePairs_succ hb g1.1 g1.2, bytesFrom_succ]
    simp only [combineAll, pairsTrace]
    generalize hs1 : setPairCount { s with
      acc := ⟨some .nibble, some 0#32, some e, some (c + 2#32)⟩
      tr := { s.tr with prev1 := highNibble (s.wbuf.read b), prev2 := lowNibble (s.wbuf.read b) }
      trace := .nibbleRead (c + 1#32) :: .nibbleRead c :: s.trace } = s1
    have e1 : s1.acc = ⟨some .nibble, some 0#32, some e, some (c + 2#32)⟩ := by rw [← hs1]; rfl
    have e2 : s1.cfg = s.cfg := by rw [← hs1]; rfl
    have e3 : s1.req = s.req := by rw [← hs1]; rfl
    have e4 : s1.tr.prev1 = highNibble (s.wbuf.read b) := by rw [← hs1]; rfl
    have e5 : s1.tr.prev2 = lowNibble (s.wbuf.read b) := by rw [← hs1]; rfl
    have e6 : s1.he = s.he := by rw [← hs1]; rfl
    have e7 : s1.wbuf = s.wbuf := by rw [← hs1]; rfl
    have e8 : s1.tr.lbuf = s.tr.lbuf ∧ s1.tr.byteSum = s.tr.byteSum := by rw [← hs1]; exact ⟨rfl, rfl⟩
    have move : ∀ he tr made, nibbleStop s1 e (c + 2#32) he tr made =
        nibbleStop s e c he tr (made ++ [.nibbleRead (c + 1#32), .nibbleRead c]) := by
      intro he tr made
      rw [← nibbleStop_step hb g1.1 g1.2, ← hs1]
      simp [nibbleStop, setPairCount]
    by_cases g2 : 2 * (b + 1) + 4 * k ≤ e.toNat ∧ b + 1 + 2 * k ≤ s.cfg.wbufBytes
    · -- the loop completes and the final step raises
      obtain ⟨tr, -, -, t3, hsum, t4⟩ := mainLoop_ok k s1 (c + 2#32) (b + 1) (s.wbuf.read b) g2.1 e1 hc2 (by rw [e2]; exact g2.2) e4 e5
      have hn : s.req.inputSize.toNat % 2 = 0 := by
        by_contra hn; rw [if_neg hn] at hsteps; apply hbad; omega
      rw [if_pos hn] at hsteps
      have hcl : (c + 2#32 + BitVec.ofNat 32 (4 * k)).toNat = 2 * (b + 1 + 2 * k) := by
        rw [BitVec.toNat_add, hc2]; simp; omega
      have hq : wholePairs s.cfg.wbufBytes e (c + 2#32) = 2 * k := by unfold wholePairs; omega
      simp only [t4, Eff.bind_ok, finalStep]
      rw [if_pos (by rw [e3]; exact hn), combineNext_raises (s := { s1 with
          acc := ⟨some .nibble, some 0#32, some e, some (c + 2#32 + BitVec.ofNat 32 (4 * k))⟩
          he := combineBytes s1.he (s.wbuf.read b) (bytesFrom s1.wbuf (b + 1) (2 * k))
          tr := tr
          trace := stepTrace (c + 2#32) (2 * k) ++ s1.trace }) rfl hcl ho (by simp only [e2]; omega), Eff.bind_raised]
      refine ⟨tr, t3.trans e8.1, hsum.trans e8.2, ?_⟩
      rw [nibbleStop_move (c := c + 2#32) (by simp only [BitVec.le_def]; omega) (by simp only [BitVec.le_def]; omega)
        (by simp only [e2]; omega), hq, ← move, ← e6, ← e7]
      simp [nibbleStop]
    · by_cases hk0 : k = 0
      · subst hk0
        have hn : s.req.inputSize.toNat % 2 = 0 := by
          by_contra hn; rw [if_neg hn] at hsteps; apply hbad; omega
        rw [if_pos hn] at hsteps
        simp only [mainLoop, Eff.bind_ok, finalStep]
        have hb2 : ¬ (2 * (b + 1) + 2 ≤ e.toNat ∧ b + 1 < s.cfg.wbufBytes) := by omega
        rw [if_pos (by rw [e3]; exact hn), combineNext_raises e1 hc2 ho (by rw [e2]; exact hb2), Eff.bind_raised, wholePairs_zero hc2 ho hb2, move, e6]
        exact ⟨s1.tr, e8.1, e8.2, rfl⟩
      · obtain ⟨tr, t1, t2, t3⟩ := mainLoop_raises k s1 (c + 2#32) (b + 1) (s.wbuf.read b) hk0 e1 hc2 ho (by rw [e2]; exact g2) e4 e5
        rw [t3, Eff.bind_raised, move, e6, e7, e2]
        exact ⟨tr, t1.trans e8.1, t2.trans e8.2, rfl⟩
  · obtain ⟨tr, t1, t2, t3⟩ := readFirstPair_raises h hb ho g1
    simp only [hashNibbles, t3, Eff.bind_raised]
    rw [wholePairs_zero hb ho g1]
    exact ⟨tr, t1, t2, rfl⟩

/-! ## Steps 1 to 8 -/

theorem wordWindowEnd_toNat : wordWindowEnd.toNat = 0x01FFFFFF := rfl

theorem nibbleWindowEnd_toNat : nibbleWindowEnd.toNat = 0x07FFFFFF := rfl

/-- The condition of R199 gives every byte the nibble phase reads. -/
theorem hashFaultFree_nibbles {c : Construction} {p : RequestParams} (h : hashFaultFree c p) :
    2 * firstHashedByte p.workAddress + 2 * (combiningSteps p.inputSize.toNat + 1) ≤ nibbleWindowEnd.toNat ∧
      firstHashedByte p.workAddress + combiningSteps p.inputSize.toNat + 1 ≤ c.wbufBytes := by
  rw [nibbleWindowEnd_toNat]
  unfold hashFaultFree at h
  unfold combiningSteps
  by_cases hn : p.inputSize.toNat = 0
  · rw [if_pos hn] at h ⊢; unfold firstHashedByte at *; omega
  · rw [if_neg hn] at h ⊢; unfold firstHashedByte; omega

theorem guestBytes_take (m : Memory) (a : Word) {n k : Nat} (h : n ≤ k) : (guestBytes m a k).take n = guestBytes m a n := by
  simp only [guestBytes, ← List.map_take, List.take_range, Nat.min_eq_left h]

theorem guestBytes_getD (m : Memory) (a : Word) {n i : Nat} (h : i < n) :
    (guestBytes m a n).getD i 0#8 = m.read (guestAddr a i) := by
  simp [guestBytes, h]

/-- The bytes the nibble phase reads, after the load, are the mixed bytes of R196 and R201. -/
theorem mixedBytes_eq {c : Construction} {p : RequestParams} {guest wbuf w : Memory} (h : hashFaultFree c p)
    (hw : ∀ i, w.read i = loadedByte guest wbuf p i) :
    w.read (firstHashedByte p.workAddress) ::
      bytesFrom w (firstHashedByte p.workAddress + 1) (combiningSteps p.inputSize.toNat) = mixedBytes guest wbuf p := by
  rw [← bytesFrom_succ]
  unfold mixedBytes hashFaultFree combiningSteps at *
  by_cases hn : p.inputSize.toNat = 0
  · rw [if_pos hn, if_pos hn]
    apply List.map_congr_left
    intro k _
    rw [hw, loadedByte, if_neg (by omega)]
  · rw [if_neg hn] at h ⊢
    rw [if_neg hn, Nat.sub_add_cancel (by omega)]
    apply List.map_congr_left
    intro k hk
    have hk := List.mem_range.1 hk
    have hb : firstHashedByte p.workAddress = 2 * p.workAddress.toNat := by unfold firstHashedByte; omega
    rw [hw, loadedByte, hb, if_pos (by omega), Nat.add_sub_cancel_left]

theorem initState_eq (s : State) : initState s = { s with he := initRegs s.tr.byteSum } := by unfold initState; rfl

/-- Steps 1 to 8 of a hash that R199 admits. -/
theorem hashBody_ok {s : State} (h : hashFaultFree s.cfg s.req) :
    ∃ w tr, (∀ i, w.read i = loadedByte s.guest s.wbuf s.req i) ∧
      tr.lbuf = guestBytes s.guest s.req.sourceAddress (round4 s.req.inputSize) ∧
      hashBody s = .ok () { s with
        wbuf := w
        acc := ⟨some .nibble, some 0#32, some nibbleWindowEnd, some (nibbleCursor s.req.workAddress +
          BitVec.ofNat 32 (2 * (combiningSteps s.req.inputSize.toNat + 1)))⟩
        he := hashRegsOf s.guest s.wbuf s.req
        tr := tr
        trace := hashTrace s.req ++ s.trace } := by
  have hnib := hashFaultFree_nibbles h
  have hload : s.req.inputSize.toNat = 0 ∨
      (s.req.workAddress.toNat + (s.req.inputSize.toNat + 1) / 2 ≤ wordWindowEnd.toNat ∧
        2 * s.req.workAddress.toNat + s.req.inputSize.toNat + s.req.inputSize.toNat % 2 ≤ s.cfg.wbufBytes) := by
    rw [wordWindowEnd_toNat]
    unfold hashFaultFree at h
    split at h
    · exact .inl (by assumption)
    · exact .inr h
  -- the load
  have hl : ∃ w, (∀ i, w.read i = loadedByte s.guest s.wbuf s.req i) ∧
      loadWords { copyInput s with acc := ⟨some .word, some 0#32, some wordWindowEnd, some s.req.workAddress⟩ } =
        .ok () { s with
          wbuf := w
          acc := ⟨some .word, some 0#32, some wordWindowEnd,
            some (s.req.workAddress + BitVec.ofNat 32 ((s.req.inputSize.toNat + 1) / 2))⟩
          tr := { (copyInput s).tr with byteSum := sumBytes (guestBytes s.guest s.req.sourceAddress s.req.inputSize.toNat) }
          trace := loadTrace s.req.workAddress ((s.req.inputSize.toNat + 1) / 2) ++ copyTrace s.req ++ s.trace } := by
    have htr : (copyInput s).trace = copyTrace s.req ++ s.trace := by
      simp only [copyInput_trace, copyTrace, round4_zero]; split <;> rfl
    rcases hload with h0 | hload
    · refine ⟨s.wbuf, fun i => ?_, ?_⟩
      · rw [loadedByte, if_neg (by omega)]
      · have hg : guestBytes s.guest s.req.sourceAddress s.req.inputSize.toNat = [] := by rw [h0]; rfl
        have hg4 : guestBytes s.guest s.req.sourceAddress (round4 s.req.inputSize) = [] := by rw [round4_zero.2 h0]; rfl
        have hz : s.req.workAddress + BitVec.ofNat 32 ((s.req.inputSize.toNat + 1) / 2) = s.req.workAddress := by
          rw [h0]; simp
        simp only [loadWords, copyInput_tr, copyInput_req, hg4, htr, hg, hz]
        rw [h0]
        simp [loadFrom, loadTrace, sumBytes]
    · obtain ⟨w, hw1, hw2⟩ := loadFrom_ok (e := wordWindowEnd)
        (guestBytes s.guest s.req.sourceAddress (round4 s.req.inputSize)) s.req.inputSize.toNat
        { copyInput s with
          acc := ⟨some .word, some 0#32, some wordWindowEnd, some s.req.workAddress⟩
          tr := { (copyInput s).tr with byteSum := 0#32 } } s.req.workAddress rfl
        (by rw [guestBytes_length]; exact round4_ge _) hload.1 hload.2
      refine ⟨w, fun i => ?_, ?_⟩
      · rw [hw1, loadedByte]
        split
        · rename_i hi
          rw [guestBytes_getD]
          have := round4_ge s.req.inputSize
          omega
        · rfl
      · simp only [loadWords, copyInput_tr, copyInput_req] at hw2 ⊢
        rw [hw2, guestBytes_take _ _ (by have := round4_ge s.req.inputSize; omega), htr]
        simp
  obtain ⟨w, hw1, hw2⟩ := hl
  -- the nibble phase
  obtain ⟨tr, t1, t2⟩ := hashNibbles_ok (e := nibbleWindowEnd) (c := nibbleCursor s.req.workAddress)
    (b := firstHashedByte s.req.workAddress)
    (s := { s with
      wbuf := w
      acc := ⟨some .nibble, some 0#32, some nibbleWindowEnd, some (nibbleCursor s.req.workAddress)⟩
      he := initRegs (sumBytes (guestBytes s.guest s.req.sourceAddress s.req.inputSize.toNat))
      tr := { (copyInput s).tr with byteSum := sumBytes (guestBytes s.guest s.req.sourceAddress s.req.inputSize.toNat) }
      trace := loadTrace s.req.workAddress ((s.req.inputSize.toNat + 1) / 2) ++ copyTrace s.req ++ s.trace })
    rfl (nibbleCursor_even _) hnib.1 hnib.2
  have hmix := mixedBytes_eq (guest := s.guest) (wbuf := s.wbuf) h hw1
  refine ⟨w, tr, hw1, by rw [t1]; rfl, ?_⟩
  unfold hashBody
  rw [configure_eq]
  simp only [copyInput_req] at hw2
  simp only [Eff.bind_ok, copyInput_req, hw2, configure_eq]
  rw [initState_eq]
  simp only
  rw [t2]
  simp only [hashRegsOf, ← hmix, checksum, hashTrace]
  simp

theorem loadWords_empty {s : State} (hn : s.req.inputSize.toNat = 0) (hl : s.tr.lbuf = []) :
    loadWords s = .ok () { s with tr := { s.tr with byteSum := 0#32 } } := by
  unfold loadWords; rw [hn, hl]; rfl

/-- The parts of a hash after the copy. -/
theorem hashBody_eq (s : State) : hashBody s =
    (loadWords { copyInput s with acc := ⟨some .word, some 0#32, some wordWindowEnd, some s.req.workAddress⟩ }).bind
      fun _ t => hashNibbles { initState t with
        acc := ⟨some .nibble, some 0#32, some nibbleWindowEnd, some (nibbleCursor t.req.workAddress)⟩ } := by
  unfold hashBody
  rw [configure_eq, Eff.bind_ok]
  congr

/-- Steps 1 to 8 of a hash that R199 does not admit raise the fault of its first offending access, with the effects before it and none
after it. -/
theorem hashBody_raises {s : State} (h : ¬ hashFaultFree s.cfg s.req) :
    ∃ t, hashBody s = .raised t ∧ HashStops s s.req s.trace t := by
  rw [hashBody_eq]
  unfold hashFaultFree at h
  have hcopy : (copyInput s).trace = copyTrace s.req ++ s.trace := by
    simp only [copyInput_trace, copyTrace, round4_zero]; split <;> rfl
  by_cases hn : s.req.inputSize.toNat = 0
  · rw [if_pos hn] at h
    have hg4 : guestBytes s.guest s.req.sourceAddress (round4 s.req.inputSize) = [] := by rw [round4_zero.2 hn]; rfl
    have hc0 : copyTrace s.req = [] := by simp [copyTrace, hn]
    rw [hc0, List.nil_append] at hcopy
    rw [loadWords_empty (s := { copyInput s with
      acc := ⟨some .word, some 0#32, some wordWindowEnd, some s.req.workAddress⟩ }) hn hg4, Eff.bind_ok]
    obtain ⟨tr, t1, t2, ht⟩ := hashNibbles_raises (e := nibbleWindowEnd) (c := nibbleCursor s.req.workAddress)
      (b := firstHashedByte s.req.workAddress)
      (s := { initState { copyInput s with
          acc := ⟨some .word, some 0#32, some wordWindowEnd, some s.req.workAddress⟩
          tr := { (copyInput s).tr with byteSum := 0#32 } } with
        acc := ⟨some .nibble, some 0#32, some nibbleWindowEnd, some (nibbleCursor s.req.workAddress)⟩ })
      rfl (nibbleCursor_even _) (by decide) (by
        simp only [initState_eq, copyInput_req, copyInput_cfg, hn, combiningSteps, if_true, nibbleWindowEnd_toNat]
        unfold firstHashedByte at *; omega)
    refine ⟨_, ht, ?_⟩
    exact
      { fault := by simp only [nibbleStop, hashFault, hn, if_true, initState_eq, copyInput_cfg]
        latch := rfl
        output := rfl
        buffer := fun i => by
          rw [partlyLoadedByte, writtenWords, hn, if_neg (by omega)]; rfl
        registers := by rw [if_pos hn, checksum_eq]; rfl
        accelerator := by rw [if_pos hn]; rfl
        copy := t1
        byteSum := by rw [summedWords, hn]; exact t2
        transients := fun hh => absurd hn hh
        accesses := by
          simp only [nibbleStop, hashStopTrace, hn, if_true, initState_eq, hcopy, copyInput_cfg, mixedPairs, List.append_assoc]
        pstate := rfl
        outq := rfl
        cfg := rfl
        upload := rfl
        inbox := rfl
        events := rfl }
  · rw [if_neg hn] at h
    have hr4 := round4_ge s.req.inputSize
    obtain ⟨w, hr, ht⟩ := loadFrom_raises (e := wordWindowEnd) (guestBytes s.guest s.req.sourceAddress (round4 s.req.inputSize))
      s.req.inputSize.toNat
      { copyInput s with
        acc := ⟨some .word, some 0#32, some wordWindowEnd, some s.req.workAddress⟩
        tr := { (copyInput s).tr with byteSum := 0#32 } } s.req.workAddress rfl
      (by rw [guestBytes_length]; exact hr4) hn h
    have hl : loadWords { copyInput s with acc := ⟨some .word, some 0#32, some wordWindowEnd, some s.req.workAddress⟩ } = _ := ht
    rw [hl, Eff.bind_raised]
    have hwr : writtenWords s.cfg s.req = min (s.cfg.wbufBytes / 2) (wordWindowEnd.toNat + 1) - s.req.workAddress.toNat := by
      rw [wordWindowEnd_toNat]; unfold writtenWords; omega
    have hsm : summedWords s.cfg s.req = min (s.cfg.wbufBytes / 2) wordWindowEnd.toNat - s.req.workAddress.toNat := by
      rw [wordWindowEnd_toNat]; unfold summedWords; omega
    have hle : 2 * summedWords s.cfg s.req ≤ round4 s.req.inputSize := by unfold summedWords; omega
    refine ⟨_, rfl, ?_⟩
    exact
      { fault := by rw [hashFault, if_neg hn]; rfl
        latch := rfl
        output := rfl
        buffer := fun i => by
          have hi' := hr i
          simp only [copyInput_cfg, copyInput_wbuf] at hi'
          rw [partlyLoadedByte, hwr]
          by_cases hi : 2 * s.req.workAddress.toNat ≤ i ∧ i < 2 * s.req.workAddress.toNat +
              2 * (min (s.cfg.wbufBytes / 2) (wordWindowEnd.toNat + 1) - s.req.workAddress.toNat)
          · refine (hi'.trans (if_pos hi)).trans ?_
            rw [if_pos hi, guestBytes_getD]
            rw [wordWindowEnd_toNat] at hi
            omega
          · exact (hi'.trans (if_neg hi)).trans (if_neg hi).symm
        registers := by rw [if_neg hn]; rfl
        accelerator := by rw [if_neg hn]; rfl
        copy := rfl
        byteSum := by
          rw [← guestBytes_take _ _ hle, hsm]
          exact BitVec.zero_add _
        transients := fun _ => rfl
        accesses := by
          rw [hashStopTrace, if_neg hn, hwr, List.append_assoc, ← hcopy]; rfl
        pstate := rfl
        outq := rfl
        cfg := rfl
        upload := rfl
        inbox := rfl
        events := rfl }

end Sys2Proof.Machine
end

