-- ==== Sys2Proof/Laws/Keeps.lean ====
section
/-! SUPPORT. What every part of a hash and every accelerator operation keeps, whether it completes or raises. -/

namespace Sys2Proof.Machine

/-- The items no accelerator operation and no step of a hash but the result write touches. -/
structure Untouched (s t : State) : Prop where
  cfg : t.cfg = s.cfg
  pstate : t.pstate = s.pstate
  upload : t.upload = s.upload
  req : t.req = s.req
  outq : t.outq = s.outq
  guest : t.guest = s.guest
  inbox : t.inbox = s.inbox
  events : t.events = s.events
  result : t.result = s.result

/-- `Untouched`, and the parts of the invariant about the accelerator, the working buffer and `LBUF` kept. -/
structure Keeps (s t : State) : Prop where
  untouched : Untouched s t
  bounds : s.acc.boundsOk = true → t.acc.boundsOk = true
  wf : s.wbuf.wf → t.wbuf.wf
  below : s.wbuf.below s.cfg.wbufBytes → t.wbuf.below s.cfg.wbufBytes
  lbuf : t.tr.lbuf = s.tr.lbuf

theorem Keeps.refl (s : State) : Keeps s s :=
  ⟨⟨rfl, rfl, rfl, rfl, rfl, rfl, rfl, rfl, rfl⟩, id, id, id, rfl⟩

theorem Keeps.trans {a b c : State} (h : Keeps a b) (g : Keeps b c) : Keeps a c where
  untouched :=
    { cfg := g.untouched.cfg.trans h.untouched.cfg
      pstate := g.untouched.pstate.trans h.untouched.pstate
      upload := g.untouched.upload.trans h.untouched.upload
      req := g.untouched.req.trans h.untouched.req
      outq := g.untouched.outq.trans h.untouched.outq
      guest := g.untouched.guest.trans h.untouched.guest
      inbox := g.untouched.inbox.trans h.untouched.inbox
      events := g.untouched.events.trans h.untouched.events
      result := g.untouched.result.trans h.untouched.result }
  bounds := g.bounds ∘ h.bounds
  wf := g.wf ∘ h.wf
  below hb := by have := g.below; rw [h.untouched.cfg] at this; exact this (h.below hb)
  lbuf := g.lbuf.trans h.lbuf

/-- A sequence of parts that keep, keeps. -/
theorem Keeps.bind {α β : Type} {s : State} {e : Eff α} {k : α → State → Eff β} (he : Keeps s e.state)
    (hk : ∀ v t, e = .ok v t → Keeps t (k v t).state) : Keeps s (e.bind k).state :=
  Eff.bind_keeps (R := Keeps) (fun _ _ _ h g => Keeps.trans h g) he hk

/-- Whatever changes only the accelerator's cursor or mode, the hash registers, the transients but `LBUF`, the trace or `FAULT`, keeps. -/
theorem Keeps.of_eqs {s t : State} (h : Untouched s t) (hs : t.acc.start = s.acc.start) (he : t.acc.stop = s.acc.stop)
    (hw : t.wbuf = s.wbuf) (hl : t.tr.lbuf = s.tr.lbuf) : Keeps s t :=
  ⟨h, by simp [AccRegs.boundsOk, hs, he], by rw [hw]; exact id, by rw [hw]; exact id, hl⟩

theorem keeps_accPrologue (s : State) : Keeps s (accPrologue s).state := by
  unfold accPrologue
  split
  · split <;> exact Keeps.of_eqs ⟨rfl, rfl, rfl, rfl, rfl, rfl, rfl, rfl, rfl⟩ rfl rfl rfl rfl
  · exact Keeps.of_eqs ⟨rfl, rfl, rfl, rfl, rfl, rfl, rfl, rfl, rfl⟩ rfl rfl rfl rfl

theorem keeps_accAdvance (w : AccWindow) (s : State) : Keeps s (accAdvance w s).state := by
  unfold accAdvance
  split <;> exact Keeps.of_eqs ⟨rfl, rfl, rfl, rfl, rfl, rfl, rfl, rfl, rfl⟩ rfl rfl rfl rfl

theorem keeps_wbRead (i : Nat) (s : State) : Keeps s (wbRead i s).state := by
  unfold wbRead
  split <;> exact Keeps.of_eqs ⟨rfl, rfl, rfl, rfl, rfl, rfl, rfl, rfl, rfl⟩ rfl rfl rfl rfl

theorem keeps_wbWrite (i : Nat) (b : Byte) (s : State) : Keeps s (wbWrite i b s).state := by
  unfold wbWrite
  split
  · exact Keeps.of_eqs ⟨rfl, rfl, rfl, rfl, rfl, rfl, rfl, rfl, rfl⟩ rfl rfl rfl rfl
  · exact ⟨⟨rfl, rfl, rfl, rfl, rfl, rfl, rfl, rfl, rfl⟩, id, fun h => Memory.wf_write h _ _,
      fun h => Memory.below_write h (by omega) _, rfl⟩

theorem keeps_traced (s : State) (e : TraceEntry) : Keeps s (s.traced e) :=
  Keeps.of_eqs ⟨rfl, rfl, rfl, rfl, rfl, rfl, rfl, rfl, rfl⟩ rfl rfl rfl rfl

theorem keeps_readNibble (s : State) : Keeps s (readNibble s).state := by
  unfold readNibble
  exact Keeps.bind (keeps_accPrologue s) fun w s1 _ => Keeps.bind (keeps_wbRead _ s1) fun b s2 _ =>
    Keeps.bind ((keeps_traced s2 _).trans (keeps_accAdvance w _)) fun _ s3 _ => Keeps.refl s3

theorem keeps_readWord (s : State) : Keeps s (readWord s).state := by
  unfold readWord
  exact Keeps.bind (keeps_accPrologue s) fun w s1 _ => Keeps.bind (keeps_wbRead _ s1) fun b s2 _ =>
    Keeps.bind (keeps_wbRead _ s2) fun _ s3 _ =>
    Keeps.bind ((keeps_traced s3 _).trans (keeps_accAdvance w _)) fun _ s4 _ => Keeps.refl s4

theorem keeps_writeWord (v : Half) (s : State) : Keeps s (writeWord v s).state := by
  unfold writeWord
  refine Keeps.bind (keeps_accPrologue s) fun w s1 _ => ?_
  split
  · exact Keeps.of_eqs ⟨rfl, rfl, rfl, rfl, rfl, rfl, rfl, rfl, rfl⟩ rfl rfl rfl rfl
  · exact Keeps.bind (keeps_wbWrite _ _ s1) fun _ s2 _ => Keeps.bind (keeps_wbWrite _ _ s2) fun _ s3 _ =>
      (keeps_traced s3 _).trans (keeps_accAdvance w _)

theorem keeps_writeNibble (v : Nibble) (s : State) : Keeps s (writeNibble v s).state := by
  unfold writeNibble
  exact Keeps.bind (keeps_accPrologue s) fun _ s1 _ =>
    Keeps.of_eqs ⟨rfl, rfl, rfl, rfl, rfl, rfl, rfl, rfl, rfl⟩ rfl rfl rfl rfl

theorem keeps_setBounds (a b : Word) (s : State) : Keeps s (setBounds a b s).state := by
  unfold setBounds
  split
  · exact Keeps.of_eqs ⟨rfl, rfl, rfl, rfl, rfl, rfl, rfl, rfl, rfl⟩ rfl rfl rfl rfl
  · rename_i h
    refine ⟨⟨rfl, rfl, rfl, rfl, rfl, rfl, rfl, rfl, rfl⟩, fun _ => ?_, id, id, rfl⟩
    have : a ≤ b := by simpa [BitVec.le_def, BitVec.lt_def] using h
    simp [Eff.state, AccRegs.boundsOk, this]

theorem keeps_configure (m : AccMode) (last c : Word) (s : State) : Keeps s (configure m last c s).state := by
  rw [configure_eq]
  exact ⟨⟨rfl, rfl, rfl, rfl, rfl, rfl, rfl, rfl, rfl⟩, fun _ => by simp [Eff.state, AccRegs.boundsOk, BitVec.le_def], id, id, rfl⟩

theorem keeps_loadFrom (l : List Byte) (n : Nat) (s : State) : Keeps s (loadFrom l n s).state := by
  induction n using Nat.strongRecOn generalizing l s with
  | ind n ih =>
    match n, l with
    | n + 2, hi :: lo :: rest =>
      exact Keeps.bind (keeps_writeWord _ s) fun _ s1 _ =>
        (Keeps.of_eqs ⟨rfl, rfl, rfl, rfl, rfl, rfl, rfl, rfl, rfl⟩ rfl rfl rfl rfl : Keeps s1 (addByteSum _ s1)).trans
          (ih n (by omega) rest _)
    | 1, hi :: lo :: rest =>
      exact Keeps.bind (keeps_writeWord _ s) fun _ s1 _ =>
        (Keeps.of_eqs ⟨rfl, rfl, rfl, rfl, rfl, rfl, rfl, rfl, rfl⟩ rfl rfl rfl rfl : Keeps s1 (addByteSum _ s1))
    | 0, [] => exact Keeps.refl s
    | 0, [_] => exact Keeps.refl s
    | 0, _ :: _ :: _ => exact Keeps.refl s
    | _ + 1, [] => exact Keeps.refl s
    | _ + 1, [_] => exact Keeps.refl s

theorem keeps_loadWords (s : State) : Keeps s (loadWords s).state := by
  unfold loadWords
  exact (Keeps.of_eqs ⟨rfl, rfl, rfl, rfl, rfl, rfl, rfl, rfl, rfl⟩ rfl rfl rfl rfl :
    Keeps s { s with tr := { s.tr with byteSum := 0#32 } }).trans (keeps_loadFrom _ _ _)

theorem keeps_combineNext (s : State) : Keeps s (combineNext s).state := by
  unfold combineNext
  exact Keeps.bind (keeps_readNibble s) fun _ s1 _ => Keeps.bind (keeps_readNibble s1) fun _ s2 _ =>
    Keeps.of_eqs ⟨rfl, rfl, rfl, rfl, rfl, rfl, rfl, rfl, rfl⟩ rfl rfl rfl rfl

theorem keeps_innerStep (j : BitVec 1) (s : State) : Keeps s (innerStep j s).state := by
  unfold innerStep
  exact (Keeps.of_eqs ⟨rfl, rfl, rfl, rfl, rfl, rfl, rfl, rfl, rfl⟩ rfl rfl rfl rfl :
    Keeps s { s with tr := { s.tr with subIndex := j } }).trans
    (Keeps.bind (keeps_combineNext _) fun _ s1 _ =>
      Keeps.of_eqs ⟨rfl, rfl, rfl, rfl, rfl, rfl, rfl, rfl, rfl⟩ rfl rfl rfl rfl)

theorem keeps_mainLoop (k : Nat) (s : State) : Keeps s (mainLoop k s).state := by
  induction k generalizing s with
  | zero => exact Keeps.refl s
  | succ k ih =>
    exact Keeps.bind (keeps_innerStep _ s) fun _ s1 _ => Keeps.bind (keeps_innerStep _ s1) fun _ s2 _ =>
      (Keeps.of_eqs ⟨rfl, rfl, rfl, rfl, rfl, rfl, rfl, rfl, rfl⟩ rfl rfl rfl rfl : Keeps s2 { s2 with tr := { s2.tr with pairIndex := s2.tr.pairIndex + 1#16 } }).trans (ih _)

theorem keeps_readFirstPair (s : State) : Keeps s (readFirstPair s).state := by
  unfold readFirstPair
  exact Keeps.bind (keeps_readNibble s) fun p1 s1 _ => (Keeps.of_eqs ⟨rfl, rfl, rfl, rfl, rfl, rfl, rfl, rfl, rfl⟩ rfl rfl rfl rfl :
    Keeps s1 { s1 with tr := { s1.tr with prev1 := p1 } }).trans (Keeps.bind (keeps_readNibble _) fun _ s2 _ =>
      Keeps.of_eqs ⟨rfl, rfl, rfl, rfl, rfl, rfl, rfl, rfl, rfl⟩ rfl rfl rfl rfl)

theorem keeps_finalStep (s : State) : Keeps s (finalStep s).state := by
  unfold finalStep
  split
  · exact Keeps.bind (keeps_combineNext s) fun _ s1 _ => Keeps.refl s1
  · exact Keeps.refl s

theorem keeps_setPairCount (s : State) : Keeps s (setPairCount s) :=
  Keeps.of_eqs ⟨rfl, rfl, rfl, rfl, rfl, rfl, rfl, rfl, rfl⟩ rfl rfl rfl rfl

theorem keeps_hashNibbles (s : State) : Keeps s (hashNibbles s).state := by
  unfold hashNibbles
  exact Keeps.bind (keeps_readFirstPair s) fun _ s1 _ =>
    Keeps.bind ((keeps_setPairCount s1).trans (keeps_mainLoop _ _)) fun _ s2 _ => keeps_finalStep s2

theorem keeps_initState (s : State) : Keeps s (initState s) :=
  Keeps.of_eqs ⟨rfl, rfl, rfl, rfl, rfl, rfl, rfl, rfl, rfl⟩ rfl rfl rfl rfl

/-- Steps 1 to 8 from the state after the copy. -/
theorem keeps_hashBody (s : State) : Keeps (copyInput s) (hashBody s).state := by
  unfold hashBody
  exact Keeps.bind (keeps_configure _ _ _ _) fun _ s1 _ => Keeps.bind (keeps_loadWords s1) fun _ s2 _ =>
    Keeps.bind ((keeps_initState s2).trans (keeps_configure _ _ _ _)) fun _ s3 _ => keeps_hashNibbles s3

/-- Whatever a hash does, these items are as before it. -/
theorem untouched_hashBody (s : State) : Untouched s (hashBody s).state :=
  let h := (keeps_hashBody s).untouched
  ⟨h.cfg, h.pstate, h.upload, h.req, h.outq, h.guest, h.inbox, h.events, h.result⟩

/-- A whole hash: either it raises with the result not written, or it ends with the result write alone added to steps 1 to 8. -/
theorem hashRequest_cases (s : State) :
    (∃ t, hashBody s = .raised t ∧ hashRequest s = .raised t) ∨
      (∃ t, hashBody s = .ok () t ∧ hashRequest s = .ok () (memWrite s.req.outputAddress t.he.accB t)) := by
  have hu := untouched_hashBody s
  unfold hashRequest
  cases hb : hashBody s with
  | raised t => exact .inl ⟨t, rfl, rfl⟩
  | ok v t =>
    rw [hb] at hu
    have hr : t.req = s.req := hu.req
    exact .inr ⟨t, rfl, by rw [Eff.bind_ok, hr]⟩

end Sys2Proof.Machine
end

