-- ==== Sys2Proof/Laws/Exec.lean ====
section
/-! SUPPORT. The arms of `exec` as commands and operations over their bodies, what a mail word decodes to, and what a whole hash leaves: the
lemmas a proof about `exec` starts from. -/

namespace Sys2Proof.Machine

/-! ## The arms of `exec` -/

theorem exec_forward (w : Word) (s : State) : exec (.forward w) s = command (fun s => .ok () (emit (.forward w) s)) s := rfl
theorem exec_unlock (s : State) : exec .unlock s = command (fun s => .ok () { s with pstate := .apa }) s := rfl
theorem exec_ignAur (w : Word) (s : State) : exec (.ignAur w) s = command (fun s => .ok () (emit (.warn w) s)) s := rfl
theorem exec_params (w : Word) (s : State) : exec (.params w) s = command (fun s =>
    (runRequest (recordAddress s.cfg w) s).bind fun _ s => .ok () { mailPush s.cfg.doneMail s with pstate := .anc }) s := rfl
theorem exec_newuc (s : State) : exec .newuc s = command (fun s => .ok () { s with upload := true }) s := rfl
theorem exec_resetuc (s : State) : exec .resetuc s = command (fun s => .ok () (emit (.switch s.cfg.defaultModuleId) s)) s := rfl
theorem exec_ignAnc (w : Word) (s : State) : exec (.ignAnc w) s = command (fun s => .ok () (emit (.warn w) s)) s := rfl
theorem exec_poll (s : State) :
    exec .poll s = command (fun s => .ok () (if s.irqPending then emit .hostIrq s else s)) s := rfl
theorem exec_pop (s : State) : exec .pop s = execPop s := rfl
theorem exec_save (s : State) : exec .save s = operation (fun s => .ok (.word s.snap) s) s := rfl
theorem exec_restore (v : Word) (s : State) : exec (.restore v) s = command (fun s =>
    if snapBad v then raise (.snapBadValue v) s else .ok () { s with pstate := snapPState v, upload := snapUpload v }) s := rfl
theorem exec_reset (s : State) : exec .reset s = command (fun s => .ok () (restart s)) s := rfl
theorem exec_runRequest (a : Word) (s : State) : exec (.runRequest a) s = command (runRequest a) s := rfl
theorem exec_readParameters (a : Word) (s : State) :
    exec (.readParameters a) s = operation (fun s => .ok (.record (readRecord a s).req) (readRecord a s)) s := rfl
theorem exec_computeHash (s : State) : exec .computeHash s = command hashRequest s := rfl
theorem exec_combine (p q m n : Nibble) (s : State) :
    exec (.combine p q m n) s = command (fun s => .ok () (combineStep p q m n s)) s := rfl
theorem exec_accSetGranularity (m : AccMode) (s : State) : exec (.accSetGranularity m) s = command (setGranularity m) s := rfl
theorem exec_accSetBounds (a e : Word) (s : State) : exec (.accSetBounds a e) s = command (setBounds a e) s := rfl
theorem exec_accSetCursor (c : Word) (s : State) : exec (.accSetCursor c) s = command (setCursor c) s := rfl
theorem exec_accReadWord (s : State) :
    exec .accReadWord s = operation (fun s => (readWord s).bind fun h s => .ok (.half h) s) s := rfl
theorem exec_accReadNibble (s : State) :
    exec .accReadNibble s = operation (fun s => (readNibble s).bind fun n s => .ok (.nibble n) s) s := rfl
theorem exec_accWriteWord (v : Half) (s : State) : exec (.accWriteWord v) s = command (writeWord v) s := rfl
theorem exec_accWriteNibble (v : Nibble) (s : State) : exec (.accWriteNibble v) s = command (writeNibble v) s := rfl

/-! ## What a mail word decodes to -/

/-- The seven rows of R82, exactly one of which a word in a context is. -/
theorem decodeMail_cases (c : Context) (w : Word) :
    (decodeMail c w = .forward w ∧ c.upload = true) ∨
    (decodeMail c w = .unlock ∧ c.upload = false ∧ c.pstate = .aur ∧ w = unlockWord) ∨
    (decodeMail c w = .ignAur w ∧ c.upload = false ∧ c.pstate = .aur ∧ w ≠ unlockWord) ∨
    (decodeMail c w = .params w ∧ c.upload = false ∧ c.pstate = .apa) ∨
    (decodeMail c w = .newuc ∧ c.upload = false ∧ c.pstate = .anc ∧ w = newucWord) ∨
    (decodeMail c w = .resetuc ∧ c.upload = false ∧ c.pstate = .anc ∧ w = resetucWord) ∨
    (decodeMail c w = .ignAnc w ∧ c.upload = false ∧ c.pstate = .anc ∧ w ≠ newucWord ∧ w ≠ resetucWord) := by
  have hne : newucWord ≠ resetucWord := by decide
  obtain ⟨u, p⟩ := c
  by_cases h1 : w = unlockWord <;> by_cases h2 : w = newucWord <;> by_cases h3 : w = resetucWord <;>
    cases u <;> cases p <;> simp_all [decodeMail]

/-! ## A whole hash -/

/-- A hash that R199 admits completes with the checksum. -/
theorem hashRequest_ok {s : State} (h : s.fault = none) (hf : hashFaultFree s.cfg s.req) :
    ∃ t, hashRequest s = .ok () t ∧ HashLeaves s s.req t ∧ t.outq = s.outq ∧ t.pstate = s.pstate ∧
      t.trace = .guestWrite s.req.outputAddress t.he.accB :: (hashTrace s.req ++ s.trace) := by
  obtain ⟨w, tr, h1, h2, h3⟩ := hashBody_ok hf
  refine ⟨memWrite s.req.outputAddress (hashRegsOf s.guest s.wbuf s.req).accB { s with
    wbuf := w
    acc := ⟨some .nibble, some 0#32, some nibbleWindowEnd, some (nibbleCursor s.req.workAddress +
      BitVec.ofNat 32 (2 * (combiningSteps s.req.inputSize.toNat + 1)))⟩
    he := hashRegsOf s.guest s.wbuf s.req
    tr := tr
    trace := hashTrace s.req ++ s.trace }, by rw [hashRequest, h3, Eff.bind_ok], ?_, rfl, rfl, rfl⟩
  exact ⟨rfl, rfl, rfl, h1, h2, rfl, h, rfl, rfl, rfl, rfl⟩

/-- A hash that R199 does not admit stops. -/
theorem hashRequest_raises {s : State} (hf : ¬ hashFaultFree s.cfg s.req) :
    ∃ t, hashRequest s = .raised t ∧ HashStops s s.req s.trace t := by
  obtain ⟨t, h1, h2⟩ := hashBody_raises hf
  exact ⟨t, by rw [hashRequest, h1]; rfl, h2⟩

/-! ## Every arm -/

/-- An operation always answers a next state. -/
theorem operation_next (body : State → Eff OpResult) (s : State) : ∃ t, operation body s = .next t := by
  unfold operation
  split
  · exact ⟨_, rfl⟩
  · cases body s <;> exact ⟨_, rfl⟩

/-- What an operation can do: refuse, or end in its body's last state. -/
theorem operation_cases (body : State → Eff OpResult) (s : State) :
    (s.fault ≠ none ∧ operation body s = .next { s with result := .refused }) ∨
      (s.fault = none ∧ ∃ r, operation body s = .next { (body s).state with result := r }) := by
  by_cases h : s.fault = none
  · refine .inr ⟨h, ?_⟩
    rw [operation_running h]
    cases body s <;> exact ⟨_, rfl⟩
  · exact .inl ⟨h, operation_stopped h body⟩

end Sys2Proof.Machine
end

