-- ==== Sys2Proof/Laws/PerInstr.lean ====
section
/-! SUPPORT. A statement about the encoding of every instruction, constructor by constructor: a well-formed instruction that has a mail
word is read back from it in every context where its row of R82 is tried. -/

namespace Sys2Proof.Laws

open Sys2Proof Sys2Proof.Machine

/-- The round trip of one instruction. -/
def RoundTrip.Statement (i : Instr) : Prop :=
  ∀ (c : Context) (w : Word), i.wellFormed = true → i.inContext c = true → encode i = some w → decodeMail c w = i

theorem newucWord_ne : newucWord ≠ resetucWord := by decide

theorem RoundTrip.forward (v : Word) : RoundTrip.Statement (.forward v) := by
  intro c w hw hc he
  have hv : w = _ := (Option.some.inj he).symm
  have hne := newucWord_ne
  rcases decodeMail_cases c w with ⟨d, h⟩ | ⟨d, h⟩ | ⟨d, h⟩ | ⟨d, h⟩ | ⟨d, h⟩ | ⟨d, h⟩ | ⟨d, h⟩ <;>
    first | exact d | simp_all [Instr.inContext, Instr.wellFormed]

theorem RoundTrip.unlock : RoundTrip.Statement .unlock := by
  intro c w hw hc he
  have hv : w = _ := (Option.some.inj he).symm
  have hne := newucWord_ne
  rcases decodeMail_cases c w with ⟨d, h⟩ | ⟨d, h⟩ | ⟨d, h⟩ | ⟨d, h⟩ | ⟨d, h⟩ | ⟨d, h⟩ | ⟨d, h⟩ <;>
    first | exact d | simp_all [Instr.inContext, Instr.wellFormed]

theorem RoundTrip.ignAur (v : Word) : RoundTrip.Statement (.ignAur v) := by
  intro c w hw hc he
  have hv : w = _ := (Option.some.inj he).symm
  have hne := newucWord_ne
  rcases decodeMail_cases c w with ⟨d, h⟩ | ⟨d, h⟩ | ⟨d, h⟩ | ⟨d, h⟩ | ⟨d, h⟩ | ⟨d, h⟩ | ⟨d, h⟩ <;>
    first | exact d | simp_all [Instr.inContext, Instr.wellFormed]

theorem RoundTrip.params (v : Word) : RoundTrip.Statement (.params v) := by
  intro c w hw hc he
  have hv : w = _ := (Option.some.inj he).symm
  have hne := newucWord_ne
  rcases decodeMail_cases c w with ⟨d, h⟩ | ⟨d, h⟩ | ⟨d, h⟩ | ⟨d, h⟩ | ⟨d, h⟩ | ⟨d, h⟩ | ⟨d, h⟩ <;>
    first | exact d | simp_all [Instr.inContext, Instr.wellFormed]

theorem RoundTrip.newuc : RoundTrip.Statement .newuc := by
  intro c w hw hc he
  have hv : w = _ := (Option.some.inj he).symm
  have hne := newucWord_ne
  rcases decodeMail_cases c w with ⟨d, h⟩ | ⟨d, h⟩ | ⟨d, h⟩ | ⟨d, h⟩ | ⟨d, h⟩ | ⟨d, h⟩ | ⟨d, h⟩ <;>
    first | exact d | simp_all [Instr.inContext, Instr.wellFormed]

theorem RoundTrip.resetuc : RoundTrip.Statement .resetuc := by
  intro c w hw hc he
  have hv : w = _ := (Option.some.inj he).symm
  have hne := newucWord_ne
  rcases decodeMail_cases c w with ⟨d, h⟩ | ⟨d, h⟩ | ⟨d, h⟩ | ⟨d, h⟩ | ⟨d, h⟩ | ⟨d, h⟩ | ⟨d, h⟩ <;>
    first | exact d | simp_all [Instr.inContext, Instr.wellFormed]

theorem RoundTrip.ignAnc (v : Word) : RoundTrip.Statement (.ignAnc v) := by
  intro c w hw hc he
  have hv : w = _ := (Option.some.inj he).symm
  have hne := newucWord_ne
  rcases decodeMail_cases c w with ⟨d, h⟩ | ⟨d, h⟩ | ⟨d, h⟩ | ⟨d, h⟩ | ⟨d, h⟩ | ⟨d, h⟩ | ⟨d, h⟩ <;>
    first | exact d | simp_all [Instr.inContext, Instr.wellFormed]

theorem RoundTrip.poll : RoundTrip.Statement .poll := fun _ _ _ _ he => by cases he
theorem RoundTrip.pop : RoundTrip.Statement .pop := fun _ _ _ _ he => by cases he
theorem RoundTrip.save : RoundTrip.Statement .save := fun _ _ _ _ he => by cases he
theorem RoundTrip.restore (v : Word) : RoundTrip.Statement (.restore v) := fun _ _ _ _ he => by cases he
theorem RoundTrip.reset : RoundTrip.Statement .reset := fun _ _ _ _ he => by cases he
theorem RoundTrip.runRequest (a : Word) : RoundTrip.Statement (.runRequest a) := fun _ _ _ _ he => by cases he
theorem RoundTrip.readParameters (a : Word) : RoundTrip.Statement (.readParameters a) := fun _ _ _ _ he => by cases he
theorem RoundTrip.computeHash : RoundTrip.Statement .computeHash := fun _ _ _ _ he => by cases he
theorem RoundTrip.combine (p q m n : Nibble) : RoundTrip.Statement (.combine p q m n) := fun _ _ _ _ he => by cases he
theorem RoundTrip.accSetGranularity (m : AccMode) : RoundTrip.Statement (.accSetGranularity m) := fun _ _ _ _ he => by cases he
theorem RoundTrip.accSetBounds (a e : Word) : RoundTrip.Statement (.accSetBounds a e) := fun _ _ _ _ he => by cases he
theorem RoundTrip.accSetCursor (c : Word) : RoundTrip.Statement (.accSetCursor c) := fun _ _ _ _ he => by cases he
theorem RoundTrip.accReadWord : RoundTrip.Statement .accReadWord := fun _ _ _ _ he => by cases he
theorem RoundTrip.accReadNibble : RoundTrip.Statement .accReadNibble := fun _ _ _ _ he => by cases he
theorem RoundTrip.accWriteWord (v : Half) : RoundTrip.Statement (.accWriteWord v) := fun _ _ _ _ he => by cases he
theorem RoundTrip.accWriteNibble (v : Nibble) : RoundTrip.Statement (.accWriteNibble v) := fun _ _ _ _ he => by cases he

end Sys2Proof.Laws
end

