-- ==== Sys2Proof/Tests/Slice0.lean ====
section
/-! SUPPORT. The model's own tests: decoding of words written out bit by bit, one or two small steps per instruction with the values of
spec/95_test_vectors.md, and for every statement with hypotheses a concrete state that meets them. -/

namespace Sys2Proof.Tests

open Sys2Proof Sys2Proof.Machine

/-! ## Small states -/

/-- A block with a 64-byte working buffer, after its first RESET. -/
def base : State :=
  { State.reset with
    cfg := ⟨.low28, 0x11111111#32, 0x22222222#32, 7, 64⟩
    outq := [0x11111111#32]
    trace := [] }

/-- The same with a stopped block. -/
def stopped : State := { base with fault := some .accUnconfigured }

/-- The state an instruction ends in. -/
def after (i : Instr) (s : State) : State :=
  match exec i s with
  | .next t => t
  | .fault _ => s
  | .refused _ => s

/-- A memory from bytes at an address. -/
def bytesAt (a : Nat) : List Byte → Memory → Memory
  | [], m => m
  | b :: rest, m => bytesAt (a + 1) rest (m.write a b)

/-- A configured accelerator over `base`. -/
def configured (m : AccMode) (a e c : Word) : State := { base with acc := ⟨some m, some a, some e, some c⟩ }

/-- A block in APA with a record at 0x1000: the input `0123456789ABCDEF` at 0x2000, the output at 0x3000 (spec/95 P1). -/
def ready (wbufBytes : Nat) (size : List Byte) (work : List Byte) : State :=
  { base with
    cfg := ⟨.low28, 0x11111111#32, 0x22222222#32, 7, wbufBytes⟩
    pstate := .apa
    guest := bytesAt 0x1000 ([0x00#8, 0x00#8, 0x20#8, 0x00#8, 0xBE#8, 0xEF#8] ++ size ++ work ++ [0x00#8, 0x00#8, 0x30#8, 0x00#8])
      (bytesAt 0x2000 [0x01#8, 0x23#8, 0x45#8, 0x67#8, 0x89#8, 0xAB#8, 0xCD#8, 0xEF#8] []) }

/-- Size 8 at work address 0. -/
def ready8 : State := ready 64 [0x00#8, 0x08#8] [0x00#8, 0x00#8, 0x00#8, 0x00#8]

/-- Size 8 at work address 0, in a buffer one byte too small. -/
def short8 : State := ready 7 [0x00#8, 0x08#8] [0x00#8, 0x00#8, 0x00#8, 0x00#8]

/-- A state whose latch already holds a record. -/
def latched (n : Half) (wa : Word) (wbufBytes : Nat) : State :=
  { ready8 with
    cfg := ⟨.low28, 0x11111111#32, 0x22222222#32, 7, wbufBytes⟩
    req := ⟨0x2000#32, 0#16, n, wa, 0x3000#32⟩ }

/-! ## Well-formedness refuses -/

theorem test_wellFormed_ignAur : (Instr.ignAur 0xFF000000#32).wellFormed = false := by decide
theorem test_wellFormed_ignAnc_newuc : (Instr.ignAnc 0xCDD10001#32).wellFormed = false := by decide
theorem test_wellFormed_ignAnc_resetuc : (Instr.ignAnc 0xCDD10002#32).wellFormed = false := by decide
theorem test_wellFormed_others : (Instr.ignAur 0xCDD10001#32).wellFormed = true ∧ (Instr.ignAnc 0xFF000000#32).wellFormed = true := by decide

/-! ## Decoding (spec/95 §2, the words of R82 written out) -/

theorem test_decode_unlock : decodeMail ⟨false, .aur⟩ 0b11111111000000000000000000000000#32 = .unlock := by decide
theorem test_decode_ignAur : decodeMail ⟨false, .aur⟩ 0b11111111000000000000000000000001#32 = .ignAur 0xFF000001#32 := by decide
theorem test_decode_ignAur_command : decodeMail ⟨false, .aur⟩ 0xCDD10001#32 = .ignAur 0xCDD10001#32 := by decide
theorem test_decode_params : decodeMail ⟨false, .apa⟩ 0b11001101110100010000000000000010#32 = .params 0xCDD10002#32 := by decide
theorem test_decode_newuc : decodeMail ⟨false, .anc⟩ 0b11001101110100010000000000000001#32 = .newuc := by decide
theorem test_decode_resetuc : decodeMail ⟨false, .anc⟩ 0b11001101110100010000000000000010#32 = .resetuc := by decide
theorem test_decode_ignAnc : decodeMail ⟨false, .anc⟩ 0b01001101110100010000000000000001#32 = .ignAnc 0x4DD10001#32 := by decide
theorem test_decode_ignAnc_unlock : decodeMail ⟨false, .anc⟩ 0xFF000000#32 = .ignAnc 0xFF000000#32 := by decide
theorem test_decode_forward : decodeMail ⟨true, .apa⟩ 0b00000000000000000001000000000000#32 = .forward 0x1000#32 := by decide
theorem test_decode_forward_command : decodeMail ⟨true, .anc⟩ 0xCDD10002#32 = .forward 0xCDD10002#32 := by decide
theorem test_decode_bytes : decodeBytes ⟨false, .aur⟩ [0xFF#8, 0x00#8, 0x00#8, 0x00#8, 0x7A#8] = .ok (.unlock, [0x7A#8]) := by rfl
theorem test_decode_truncated : decodeBytes ⟨false, .aur⟩ [0xFF#8, 0x00#8, 0x00#8] = .error (.truncated 3) := by rfl
theorem test_decode_host_operations :
    decodeOp ⟨true, .anc⟩ .poll = .poll ∧ decodeOp ⟨true, .anc⟩ .pop = .pop ∧ decodeOp ⟨true, .anc⟩ .save = .save ∧
      decodeOp ⟨true, .anc⟩ (.restore 5#32) = .restore 5#32 ∧ decodeOp ⟨true, .anc⟩ .reset = .reset := by decide
theorem test_decode_accelerator :
    decodeAcc none (.setGranularity .nibble) = .accSetGranularity .nibble ∧ decodeAcc none (.setBounds 1#32 2#32) = .accSetBounds 1#32 2#32 ∧
      decodeAcc none (.setCursor 3#32) = .accSetCursor 3#32 ∧ decodeAcc (some .word) .readNext = .accReadWord ∧
      decodeAcc (some .nibble) .readNext = .accReadNibble ∧ decodeAcc (some .word) (.writeNext 0x1234#16) = .accWriteWord 0x1234#16 ∧
      decodeAcc (some .nibble) (.writeNext 0x0005#16) = .accWriteNibble 0x5#4 ∧
      encodeAcc (some .word) .accReadNibble = none := by decide
theorem test_decode_table_words :
    decodeTableWord 32 0xFF000000 = some .unlock ∧ decodeTableWord 32 0xCDD10001 = some .newuc ∧
      decodeTableWord 32 0xCDD10002 = some .resetuc ∧ decodeTableWord 32 0 = some (.ignAur 0#32) ∧ decodeTableWord 0 0 = none := by decide

/-! ## Mail words (spec/95 §3, §4) -/

theorem test_forward_emits : (after (.forward 0xCDD10002#32) base).events = [.forward 0xCDD10002#32] := by decide
theorem test_unlock_state : (after .unlock base).pstate = .apa ∧ (after .unlock base).outq = base.outq := by decide
theorem test_ignAur_warns : (after (.ignAur 0x12345678#32) base).events = [.warn 0x12345678#32] ∧
    (after (.ignAur 0x12345678#32) base).pstate = .aur := by decide
theorem test_ignAnc_warns : (after (.ignAnc 0xFF000000#32) { base with pstate := .anc }).events = [.warn 0xFF000000#32] := by decide
theorem test_newuc_upload : (after .newuc { base with pstate := .anc }).upload = true ∧
    (after .newuc { base with pstate := .anc }).pstate = .anc := by decide
theorem test_resetuc_twice : (after .resetuc (after .resetuc { base with pstate := .anc })).events = [.switch 7, .switch 7] := by decide
/-- M2, M3, M7. -/
theorem test_params_mask :
    recordAddress base.cfg 0x12345678#32 = 0x02345678#32 ∧ recordAddress base.cfg 0xFF000000#32 = 0x0F000000#32 ∧
      recordAddress { base.cfg with addrMask := .low30 } 0xF0001000#32 = 0x30001000#32 := by decide
/-- P1: `9B5FE1FB` at the output, DONE_MAIL behind INIT_MAIL, ANC. -/
theorem test_params_p1 :
    guestWord (after (.params 0xF0001000#32) ready8).guest 0x3000#32 = 0x9B5FE1FB#32 ∧
      (after (.params 0xF0001000#32) ready8).outq = [0x11111111#32, 0x22222222#32] ∧
      (after (.params 0xF0001000#32) ready8).pstate = .anc ∧
      (after (.params 0xF0001000#32) ready8).acc.cur = some 0x10#32 := by decide +kernel
/-- R117 with the buffer one byte short: the last word write faults, the words before it stay, nothing is pushed. -/
theorem test_params_fault :
    (after (.params 0x1000#32) short8).fault = some (.wbufOutOfRange 7) ∧ (after (.params 0x1000#32) short8).wbuf.read 5 = 0xAB#8 ∧
      (after (.params 0x1000#32) short8).wbuf.read 6 = 0x00#8 ∧ (after (.params 0x1000#32) short8).pstate = .apa ∧
      (after (.params 0x1000#32) short8).outq = [0x11111111#32] := by decide +kernel

/-! ## Host port operations (spec/95 §9) -/

theorem test_poll_emits : (after .poll base).events = [.hostIrq] := by decide
theorem test_poll_empty : (after .poll { base with outq := [] }).events = [] := by decide
theorem test_pop_head : (after .pop base).result = .word 0x11111111#32 ∧ (after .pop base).outq = [] ∧
    (after .pop (after .pop base)).result = .empty := by decide
/-- Z8. -/
theorem test_pop_after_fault : (after .pop stopped).result = .word 0x11111111#32 := by decide
/-- N4. -/
theorem test_save_upload_anc : (after .save { base with pstate := .anc, upload := true }).result = .word 6#32 := by decide
/-- N6. -/
theorem test_restore_five : (after (.restore 5#32) base).pstate = .apa ∧ (after (.restore 5#32) base).upload = true := by decide
/-- N7 to N10. -/
theorem test_restore_bad :
    (after (.restore 3#32) base).fault = some (.snapBadValue 3#32) ∧ (after (.restore 7#32) base).fault = some (.snapBadValue 7#32) ∧
      (after (.restore 8#32) base).fault = some (.snapBadValue 8#32) ∧
      (after (.restore 0x80000000#32) base).fault = some (.snapBadValue 0x80000000#32) := by decide
/-- R270's example. -/
theorem test_reset_appends :
    (after .reset { base with pstate := .anc, upload := true, outq := [0x22222222#32] }).outq = [0x22222222#32, 0x11111111#32] ∧
      (after .reset { base with pstate := .anc, upload := true }).snap = 0#32 := by decide
/-- Z7. -/
theorem test_stopped_refuses :
    (after .reset stopped).fault = some .accUnconfigured ∧ (after .poll stopped).events = [] ∧ (after .unlock stopped).pstate = .aur := by decide

/-! ## The decoder and the hash (spec/95 §5, §7, §8) -/

/-- Q1's fields, with a reserved field that is read and ignored. -/
theorem test_readParameters_fields :
    (after (.readParameters 0x1000#32) ready8).req = ⟨0x2000#32, 0xBEEF#16, 8#16, 0#32, 0x3000#32⟩ ∧
      (after (.readParameters 0x1000#32) ready8).trace.length = 5 := by decide
theorem test_runRequest_result :
    guestWord (after (.runRequest 0x1000#32) ready8).guest 0x3000#32 = 0x9B5FE1FB#32 ∧
      (after (.runRequest 0x1000#32) ready8).outq = [0x11111111#32] := by decide +kernel
/-- V10's shape with the first two input bytes `01 23`, and V8's result for one byte. -/
theorem test_computeHash_sizes :
    guestWord (after .computeHash (latched 1#16 0#32 2)).guest 0x3000#32 = 0x05EFE0AA#32 ∧
      (after .computeHash (latched 1#16 0#32 2)).wbuf = [(0, 0x01#8), (1, 0x23#8)] ∧
      (after .computeHash (latched 8#16 4#32 64)).he.accB = 0x9B5FE1FB#32 := by decide +kernel
/-- F3: outside the word window at once. F2's shape: the write at the window's end is made, the cursor wraps. F5: the third write is past the
buffer, and neither R184 nor R185 is reached. A size-0 hash in two bytes of buffer stops after one combining step. -/
theorem test_computeHash_stops :
    (after .computeHash (latched 2#16 0x02000000#32 64)).fault = some (.accOutOfWindow 0x02000000#32) ∧
      (after .computeHash (latched 2#16 0x01FFFFFF#32 0x04000000)).fault = some (.accEndOfRange 0x01FFFFFF#32) ∧
      (after .computeHash (latched 2#16 0x01FFFFFF#32 0x04000000)).wbuf = [(0x3FFFFFE, 0x01#8), (0x3FFFFFF, 0x23#8)] ∧
      (after .computeHash (latched 2#16 0x01FFFFFF#32 0x04000000)).acc.cur = some 0#32 ∧
      (after .computeHash (latched 8#16 0x7E#32 0x100)).fault = some (.wbufOutOfRange 0x101) ∧
      (after .computeHash (latched 8#16 0x7E#32 0x100)).acc = ⟨some .word, some 0#32, some 0x01FFFFFF#32, some 0x80#32⟩ ∧
      (after .computeHash (latched 8#16 0x7E#32 0x100)).he = ready8.he ∧
      (after .computeHash (latched 0#16 0#32 2)).fault = some (.wbufOutOfRange 2) ∧
      (after .computeHash (latched 0#16 0#32 2)).he.stepCounter = 1#16 := by decide +kernel
/-- S1, S4. -/
theorem test_combine_vectors :
    (after (.combine 0#4 0#4 0#4 0#4) { base with he := initRegs 0#32 }).he =
        ⟨0x170A7489#32, 0xBB540B1D#32, 0xAB5E4B94#32, 0x07003400#32, 8#16, 1#16⟩ ∧
      (after (.combine 0#4 0#4 8#4 8#4) { base with he := initRegs 0#32 }).he =
        ⟨0x170AF409#32, 0x7B540B5D#32, 0x6B5ECB54#32, 0x07003400#32, 8#16, 1#16⟩ := by decide +kernel
/-- S7 (no rotation) and S8 (the counter wraps). -/
theorem test_combine_rotate :
    (after (.combine 0#4 0#4 0#4 0#4) { base with he := { initRegs 0#32 with rotBase := 31#16 } }).he.accB = 0xCE44C814#32 ∧
      (after (.combine 0#4 0#4 0#4 0#4) { base with he := { initRegs 0#32 with stepCounter := 0xFFFF#16 } }).he.accB = 0x70B83591#32 ∧
      (after (.combine 0#4 0#4 0#4 0#4) { base with he := { initRegs 0#32 with stepCounter := 0xFFFF#16 } }).he.stepCounter = 0#16 := by
  decide +kernel

/-! ## The accelerator (spec/95 §6) -/

theorem test_accSetGranularity : (after (.accSetGranularity .nibble) base).acc = ⟨some .nibble, none, none, none⟩ := by decide
/-- R30, R91. -/
theorem test_accMode_codes : accModeCode .word = 0#32 ∧ accModeCode .nibble = 1#32 := by decide
/-- A10, and the one-unit window. -/
theorem test_accSetBounds :
    (after (.accSetBounds 5#32 4#32) base).fault = some (.accBadBounds 5#32 4#32) ∧
      (after (.accSetBounds 5#32 4#32) base).acc = ⟨none, none, none, none⟩ ∧
      (after (.accSetBounds 3#32 3#32) base).acc = ⟨none, some 3#32, some 3#32, none⟩ := by decide
theorem test_accSetCursor : (after (.accSetCursor 9#32) base).acc = ⟨none, none, none, some 9#32⟩ := by decide
/-- A2's shape. -/
theorem test_accReadWord_value :
    (after .accReadWord { configured .word 0#32 0x01FFFFFF#32 4#32 with wbuf := bytesAt 8 [0x12#8, 0x34#8] [] }).result = .half 0x1234#16 ∧
      (after .accReadWord (configured .word 0#32 0x01FFFFFF#32 4#32)).acc.cur = some 5#32 := by decide
/-- A6, A9. -/
theorem test_accReadWord_faults :
    (after .accReadWord (configured .word 3#32 3#32 3#32)).fault = some (.accEndOfRange 3#32) ∧
      (after .accReadWord (configured .word 3#32 3#32 3#32)).result = .noValue ∧
      (after .accReadWord (configured .word 0#32 0xF#32 0x10#32)).fault = some (.accOutOfWindow 0x10#32) := by decide
/-- A3, A4. -/
theorem test_accReadNibble_halves :
    (after .accReadNibble { configured .nibble 0#32 0x07FFFFFF#32 0x20#32 with wbuf := [(0x10, 0xA7#8)] }).result = .nibble 0xA#4 ∧
      (after .accReadNibble { configured .nibble 0#32 0x07FFFFFF#32 0x21#32 with wbuf := [(0x10, 0xA7#8)] }).result = .nibble 0x7#4 := by decide
/-- A7, A16. -/
theorem test_accReadNibble_faults :
    (after .accReadNibble base).fault = some .accUnconfigured ∧
      (after .accReadNibble (configured .nibble 0#32 0x07FFFFFF#32 0x80#32)).fault = some (.wbufOutOfRange 0x40) := by decide
/-- A1, A5. -/
theorem test_accWriteWord_bytes :
    (after (.accWriteWord 0x0123#16) (configured .word 0#32 0x01FFFFFF#32 0#32)).wbuf = [(0, 0x01#8), (1, 0x23#8)] ∧
      (after (.accWriteWord 0xBEEF#16) (configured .word 5#32 7#32 7#32)).wbuf = [(14, 0xBE#8), (15, 0xEF#8)] ∧
      (after (.accWriteWord 0xBEEF#16) (configured .word 5#32 7#32 7#32)).acc.cur = some 5#32 ∧
      (after (.accWriteWord 0xBEEF#16) (configured .word 5#32 7#32 7#32)).fault = some (.accEndOfRange 7#32) := by decide
/-- A13's shape. -/
theorem test_accWriteWord_range :
    (after (.accWriteWord 0xFFFF#16) (configured .word 0#32 0x01FFFFFF#32 0x20#32)).fault = some (.wbufOutOfRange 0x41) ∧
      (after (.accWriteWord 0xFFFF#16) (configured .word 0#32 0x01FFFFFF#32 0x20#32)).wbuf = [] := by decide
/-- A11, A12. -/
theorem test_accWriteNibble_refused :
    (after (.accWriteNibble 1#4) (configured .nibble 0#32 0x07FFFFFF#32 0#32)).fault = some .accUnsupported ∧
      (after (.accWriteNibble 1#4) (configured .nibble 0#32 0xF#32 0x10#32)).fault = some (.accOutOfWindow 0x10#32) := by decide

/-! ## Steps -/

theorem test_step_runs_mail :
    step { base with inbox := [.request (.mail 0xFF000000#32), .request .poll] } =
      .next { base with inbox := [.request .poll], pstate := .apa } := by rfl
theorem test_step_host_store :
    step { base with inbox := [.storeGuest 0xFFFFFFFF#32 0x5A#8] } = .next { base with guest := [(0xFFFFFFFF, 0x5A#8)] } := by rfl

/-! ## Witnesses: a state and operands that meet each statement's hypotheses -/

theorem witness_ForwardEmitsTheWord : base.fault = none := rfl
theorem witness_UnlockAcceptsTheRequest : base.fault = none := rfl
theorem witness_IgnoredWordsOnlyWarn : base.fault = none := rfl
theorem witness_NewucBeginsAnUpload : base.fault = none := rfl
theorem witness_ResetucEmitsOneSwitch : base.fault = none := rfl
theorem witness_ParamsRunsOneHash_completes :
    ready8.fault = none ∧ hashFaultFree ready8.cfg (recordAt ready8.guest (recordAddress ready8.cfg 0xF0001000#32)) := by
  unfold hashFaultFree; decide +kernel
theorem witness_ParamsRunsOneHash_faults :
    short8.fault = none ∧ ¬ hashFaultFree short8.cfg (recordAt short8.guest (recordAddress short8.cfg 0x1000#32)) := by
  unfold hashFaultFree; decide +kernel
theorem witness_ParamsAccessOrder :
    ready8.fault = none ∧ hashFaultFree ready8.cfg (recordAt ready8.guest (recordAddress ready8.cfg 0xF0001000#32)) :=
  witness_ParamsRunsOneHash_completes
theorem witness_RecordAddressKeepsTheLowBits :
    base.cfg.addrMask = .low28 ∧ ({ base.cfg with addrMask := .low30 } : Construction).addrMask = .low30 := by decide
theorem witness_PollSignalsPendingMail : base.fault = none := rfl
theorem witness_PopTakesTheHead : ({ base with outq := [] } : State).outq = [] ∧ base.outq = 0x11111111#32 :: [] := by decide
theorem witness_SaveReturnsTheSnapshot : base.fault = none := rfl
/-- The largest and the smallest value of each clause. -/
theorem witness_RestoreLoadsTheSnapshot :
    base.fault = none ∧ ((6#32).toNat < 8 ∧ (6#32).toNat % 4 ≠ 3) ∧ ((0#32).toNat < 8 ∧ (0#32).toNat % 4 ≠ 3) ∧
      ((7#32).toNat % 4 = 3) ∧ (8 ≤ (8#32).toNat) ∧ (8 ≤ (0xFFFFFFFF#32).toNat) := by decide
theorem witness_SaveRestoreRoundTrip : base.fault = none ∧ ready8.fault = none := by decide
theorem witness_ResetWritesFourItems : base.fault = none := rfl
theorem witness_ReadParametersLatchesTheRecord : base.fault = none := rfl
theorem witness_RunRequestReadsAndHashes_completes : ready8.fault = none ∧ hashFaultFree ready8.cfg (recordAt ready8.guest 0x1000#32) := by
  unfold hashFaultFree; decide +kernel
theorem witness_RunRequestReadsAndHashes_faults : short8.fault = none ∧ ¬ hashFaultFree short8.cfg (recordAt short8.guest 0x1000#32) := by
  unfold hashFaultFree; decide +kernel
/-- The last fault-free buffer and the first faulting one, for an even and for an odd size (F6), and for size 0 (F11). -/
theorem witness_ComputeHashIsTheChecksum_completes :
    (latched 2#16 0#32 2).fault = none ∧ hashFaultFree (latched 2#16 0#32 2).cfg (latched 2#16 0#32 2).req ∧
      hashFaultFree (latched 1#16 0x01FFFFFE#32 0x03FFFFFE).cfg (latched 1#16 0x01FFFFFE#32 0x03FFFFFE).req ∧
      hashFaultFree (latched 0#16 0#32 0x20000).cfg (latched 0#16 0#32 0x20000).req := by
  unfold hashFaultFree; decide +kernel
theorem witness_ComputeHashIsTheChecksum_faults :
    (latched 2#16 0#32 1).fault = none ∧ ¬ hashFaultFree (latched 2#16 0#32 1).cfg (latched 2#16 0#32 1).req ∧
      ¬ hashFaultFree (latched 1#16 0x01FFFFFF#32 0x04000000).cfg (latched 1#16 0x01FFFFFF#32 0x04000000).req ∧
      ¬ hashFaultFree (latched 0#16 0#32 0x1FFFF).cfg (latched 0#16 0#32 0x1FFFF).req := by
  unfold hashFaultFree; decide +kernel
theorem witness_HashIsFaultFreeExactlyUnderTheConditions :
    (latched 2#16 0#32 2).fault = none ∧ ¬ hashFaultFree (latched 2#16 0#32 1).cfg (latched 2#16 0#32 1).req := by
  unfold hashFaultFree; decide +kernel
theorem witness_HashCounts : (latched 3#16 5#32 64).fault = none ∧ hashFaultFree (latched 3#16 5#32 64).cfg (latched 3#16 5#32 64).req := by
  unfold hashFaultFree; decide +kernel
theorem witness_OneByteHashLeavesTheSeeds :
    (latched 1#16 0#32 2).fault = none ∧ (latched 1#16 0#32 2).req.inputSize = 1#16 ∧
      hashFaultFree (latched 1#16 0#32 2).cfg (latched 1#16 0#32 2).req := by
  unfold hashFaultFree; decide +kernel
theorem witness_ZeroLengthHashReadsOldBytes :
    (latched 0#16 0x40000000#32 0x20000).fault = none ∧ (latched 0#16 0x40000000#32 0x20000).req.inputSize = 0#16 ∧
      hashFaultFree (latched 0#16 0x40000000#32 0x20000).cfg (latched 0#16 0x40000000#32 0x20000).req := by
  unfold hashFaultFree; decide +kernel
/-- Two placements of the same eight bytes. -/
theorem witness_ResultDependsOnlyOnTheInput :
    (latched 8#16 0#32 8).fault = none ∧ (latched 8#16 9#32 64).fault = none ∧
      hashFaultFree (latched 8#16 0#32 8).cfg (latched 8#16 0#32 8).req ∧
      hashFaultFree (latched 8#16 9#32 64).cfg (latched 8#16 9#32 64).req ∧
      (latched 8#16 0#32 8).req.inputSize = (latched 8#16 9#32 64).req.inputSize ∧
      (∀ k < (latched 8#16 0#32 8).req.inputSize.toNat,
        (latched 8#16 0#32 8).guest.read (guestAddr (latched 8#16 0#32 8).req.sourceAddress k) =
          (latched 8#16 9#32 64).guest.read (guestAddr (latched 8#16 9#32 64).req.sourceAddress k)) ∧
      ¬ (latched 8#16 0#32 8).req.inputSize = 0#16 := by
  unfold hashFaultFree; decide +kernel
theorem witness_CombineMixesFourNibbles : base.fault = none := rfl
theorem witness_AcceleratorSetOperations :
    base.fault = none ∧ (3#32).toNat ≤ (3#32).toNat ∧ (0#32).toNat ≤ (0xFFFFFFFF#32).toNat ∧ (2#32).toNat < (3#32).toNat := by decide
/-- The last completing cursor, the buffer's last word, and each fault at its boundary. -/
theorem witness_WordReadRule :
    (configured .word 0#32 32#32 31#32).fault = none ∧ (31#32).toNat < (32#32).toNat ∧ 2 * (31#32).toNat + 1 < base.cfg.wbufBytes ∧
      ({ base with acc := ⟨some .word, some 0#32, some 4#32, none⟩ } : State).acc.cur = none ∧ base.acc.mode = none ∧
      ((4#32).toNat < (5#32).toNat) ∧ base.cfg.wbufBytes ≤ 2 * (32#32).toNat ∧
      ({ base.cfg with wbufBytes := 65 } : Construction).wbufBytes = 2 * (32#32).toNat + 1 ∧ (31#32).toNat ≤ (31#32).toNat := by decide
theorem witness_NibbleReadRule :
    (configured .nibble 0#32 128#32 127#32).fault = none ∧ (127#32).toNat < (128#32).toNat ∧ (127#32).toNat / 2 < base.cfg.wbufBytes ∧
      base.cfg.wbufBytes ≤ (128#32).toNat / 2 ∧ (7#32).toNat < (8#32).toNat ∧ base.acc.mode = none := by decide
theorem witness_WordWriteRule :
    (configured .word 0#32 32#32 31#32).fault = none ∧ (31#32).toNat < (32#32).toNat ∧ 2 * (31#32).toNat + 1 < base.cfg.wbufBytes ∧
      base.cfg.wbufBytes ≤ 2 * (32#32).toNat + 1 ∧ base.acc.cur = none := by decide
theorem witness_NibbleWriteRule :
    (configured .nibble 0#32 15#32 15#32).fault = none ∧ (15#32).toNat ≤ (15#32).toNat ∧ (15#32).toNat < (16#32).toNat ∧
      base.acc.start = none := by decide
theorem witness_AdvanceWrapsWithAFault :
    (configured .word 5#32 7#32 7#32).fault = none ∧ (5#32).toNat ≤ (7#32).toNat ∧ 2 * (7#32).toNat + 1 < base.cfg.wbufBytes ∧
      (configured .nibble 5#32 7#32 6#32).acc = ⟨some .nibble, some 5#32, some 7#32, some 6#32⟩ ∧ (6#32).toNat / 2 < base.cfg.wbufBytes := by
  decide
theorem witness_FirstFailingCheckIsReported :
    base.fault = none ∧ base.acc.mode = none ∧ (configured .word 5#32 7#32 4#32).fault = none ∧
      (configured .nibble 0#32 15#32 15#32).acc = ⟨some .nibble, some 0#32, some 15#32, some 15#32⟩ := by decide
/-- A14's shape: two words written, eight nibbles read, no fault. -/
theorem witness_NibbleReadsReturnTheWordsWritten :
    base.cfg.wf ∧ ∃ rs t, runAll ([0x0123#16, 0x4567#16].map .accWriteWord ++
        [.accSetGranularity .nibble, .accSetBounds 0#32 0x07FFFFFF#32, .accSetCursor (4#32 * 0x10#32)] ++
        List.replicate (4 * 2) .accReadNibble) (configured .word 0#32 0x01FFFFFF#32 0x10#32) = some (rs, t) ∧
      t.fault = none ∧ rs.drop 5 = [0#4, 1#4, 2#4, 3#4, 4#4, 5#4, 6#4, 7#4].map .nibble :=
  ⟨by decide, _, _, rfl, rfl, rfl⟩
theorem witness_ModeChangeKeepsTheUnits :
    (configured .word 0#32 128#32 127#32).fault = none ∧ (127#32).toNat < (128#32).toNat ∧ (127#32).toNat / 2 < base.cfg.wbufBytes := by decide
theorem witness_GuestWordsAreBigEndian_wraps :
    storeWord [] 0xFFFFFFFE#32 0x01020304#32 = [(0, 0x03#8), (1, 0x04#8), (0xFFFFFFFE, 0x01#8), (0xFFFFFFFF, 0x02#8)] := by decide
/-- Each hashing instruction, completing and faulting, and an instruction that stores nothing. -/
theorem witness_OnlyTheResultIsStored :
    (∃ t, exec (.params 0x1000#32) ready8 = .next t) ∧ (∃ t, exec (.runRequest 0x1000#32) short8 = .next t) ∧
      (∃ t, exec .computeHash (latched 2#16 0#32 2) = .next t) ∧ ∃ t, exec .poll base = .next t :=
  ⟨⟨_, rfl⟩, ⟨_, rfl⟩, ⟨_, rfl⟩, ⟨_, rfl⟩⟩
theorem witness_OnlyTheLoadIsWritten :
    (∃ t, exec (.params 0x1000#32) short8 = .next t) ∧ (∃ t, exec (.runRequest 0x1000#32) ready8 = .next t) ∧
      (∃ t, exec .computeHash (latched 3#16 0#32 4) = .next t) ∧
      (configured .word 0#32 7#32 7#32).acc.cur = some 7#32 ∧ (∃ t, exec (.accWriteWord 1#16) (configured .word 0#32 7#32 7#32) = .next t) ∧
      (base.acc.cur = none ∧ ∃ t, exec (.accWriteWord 1#16) base = .next t) ∧ ∃ t, exec .reset base = .next t :=
  ⟨⟨_, rfl⟩, ⟨_, rfl⟩, ⟨_, rfl⟩, rfl, ⟨_, rfl⟩, ⟨rfl, _, rfl⟩, ⟨_, rfl⟩⟩
theorem witness_StepRunsTheDecodedInstruction :
    ({ base with inbox := [.request .poll] } : State).inbox = .request .poll :: [] ∧ base.inbox = [] ∧
      ({ base with inbox := [.storeGuest 0xFFFFFFFF#32 1#8] } : State).inbox = .storeGuest 0xFFFFFFFF#32 1#8 :: [] ∧
      ({ base with inbox := [.storeWbuf 63 1#8] } : State).inbox = .storeWbuf 63 1#8 :: [] ∧ 63 < base.cfg.wbufBytes := by decide
theorem witness_PlacedWordRunsNext : 0xCDD10002 < 2 ^ 32 ∧ 2 ^ 32 - 1 < 2 ^ 32 := by decide
theorem witness_HandleMailTransitions :
    base.fault = none ∧ ({ base with upload := true } : State).upload = true ∧ base.upload = false ∧ base.pstate = .aur ∧
      ({ base with pstate := .apa } : State).pstate = .apa ∧ ({ base with pstate := .anc } : State).pstate = .anc ∧
      (0xFF000001#32 : Word) ≠ 0xFF000000#32 ∧ (0xCDD10003#32 : Word) ≠ 0xCDD10001#32 ∧ (0xCDD10003#32 : Word) ≠ 0xCDD10002#32 := by decide
/-- A run that starts one hash, and sends the unlock word and an address again after it. -/
theorem witness_AtMostOneHash :
    (∀ op ∈ [HostOp.mail 0x1000#32, .mail 0xFF000000#32, .mail 0x1000#32], op ≠ .reset ∧ ∀ v, op ≠ .restore v) ∧
      hashesRun [.mail 0x1000#32, .mail 0xFF000000#32, .mail 0x1000#32] ready8 = 1 := by
  refine ⟨by simp, by decide +kernel⟩
theorem witness_FaultedBlockIsStopped : stopped.fault ≠ none ∧ (Instr.reset ≠ .pop) := by decide
theorem witness_WritersOfEachItem : ∃ t, exec .unlock base = .next t ∧ t.pstate ≠ base.pstate := ⟨_, rfl, by decide⟩
theorem witness_EventsComeFromTheirInstruction : ∃ t, exec .poll base = .next t ∧ t.events ≠ base.events := ⟨_, rfl, by decide⟩
theorem witness_UnspecifiedStateIsNeverRead :
    base.visible = ({ base with he := initRegs 5#32, req := ⟨1#32, 2#16, 3#16, 4#32, 5#32⟩ } : State).visible ∧
      base ≠ { base with he := initRegs 5#32, req := ⟨1#32, 2#16, 3#16, 4#32, 5#32⟩ } := by decide +kernel
theorem witness_InvariantKeptByStep :
    ready8.Inv ∧ ∃ t, step { ready8 with inbox := [.request (.mail 0x1000#32)] } = .next t := by
  refine ⟨?_, _, rfl⟩
  unfold State.Inv; decide +kernel
theorem witness_DecodeOfEncode :
    (Instr.ignAur 0xFFFFFFFF#32).wellFormed = true ∧ (Instr.ignAur 0xFFFFFFFF#32).inContext ⟨false, .aur⟩ = true ∧
      encodeBytes (.ignAur 0xFFFFFFFF#32) = some [0xFF#8, 0xFF#8, 0xFF#8, 0xFF#8] ∧
      (Instr.forward 0#32).inContext ⟨true, .anc⟩ = true ∧ encodeBytes (.forward 0#32) = some [0#8, 0#8, 0#8, 0#8] ∧
      encodeOp (.ignAur 0xFFFFFFFF#32) = some (.mail 0xFFFFFFFF#32) ∧ encodeOp (.restore 7#32) = some (.restore 7#32) ∧
      (Instr.restore 7#32).wellFormed = true ∧ (Instr.restore 7#32).inContext ⟨true, .apa⟩ = true ∧
      encodeAcc none (.accSetCursor 9#32) = some (.setCursor 9#32) ∧
      encodeAcc (some .nibble) (.accWriteNibble 0xF#4) = some (.writeNext 0xF#16) := by decide

end Sys2Proof.Tests
end

section
/-! The invariant of the machine (spec/00_scope.md R7, spec/42_accelerator.md R152, spec/43_hash_engine.md R181): it holds at reset and
every step keeps it. -/

namespace Sys2Proof.Machine

/-! ## What one step is, by the next host action -/

theorem step_idle {s : State} (h : s.inbox = []) : step s = .next s := by
  simp [step, fetch, h]

theorem step_storeGuest {s : State} {a : Word} {b : Byte} {rest : List HostAction} (h : s.inbox = .storeGuest a b :: rest) :
    step s = .next (hostStoreGuest a b { s with inbox := rest }) := by
  simp [step, fetch, h]

theorem step_storeWbuf {s : State} {i : Nat} {b : Byte} {rest : List HostAction} (h : s.inbox = .storeWbuf i b :: rest) :
    step s = .next (hostStoreWbuf i b { s with inbox := rest }) := by
  simp [step, fetch, h]

theorem step_request {s : State} {op : HostOp} {rest : List HostAction} (h : s.inbox = .request op :: rest) :
    step s = exec (decodeOp s.context op) { s with inbox := rest } := by
  simp [step, fetch, h]

/-! ## The invariant and the parts of an operation

An update of a field that `State.Inv` does not read leaves `State.Inv` the same proposition by definition: the proof for such an update
is the hypothesis itself. -/

theorem Keeps.inv {s t : State} (h : Keeps s t) (hs : s.Inv) : t.Inv := by
  obtain ⟨hcfg, hwf, hbelow, hguest, hguestBelow, hbounds, hlbuf⟩ := hs
  unfold State.Inv
  rw [h.untouched.cfg, h.untouched.guest, h.lbuf]
  exact ⟨hcfg, h.wf hwf, h.below hbelow, hguest, hguestBelow, h.bounds hbounds, hlbuf⟩

theorem Eff.bind_inv {α β : Type} {e : Eff α} {k : α → State → Eff β} (he : e.state.Inv)
    (hk : ∀ v t, t.Inv → (k v t).state.Inv) : (e.bind k).state.Inv := by
  cases e with
  | ok v t => exact hk v t he
  | raised t => exact he

theorem restart_inv {s : State} (hs : s.Inv) : (restart s).Inv := by
  obtain ⟨hcfg, hwf, hbelow, hguest, hguestBelow, -, hlbuf⟩ := hs
  exact ⟨hcfg, hwf, hbelow, hguest, hguestBelow, rfl, hlbuf⟩

theorem memWrite_inv {s : State} (hs : s.Inv) (a v : Word) : (memWrite a v s).Inv := by
  obtain ⟨hcfg, hwf, hbelow, hguest, hguestBelow, hbounds, hlbuf⟩ := hs
  exact ⟨hcfg, hwf, hbelow, storeWord_wf hguest a v, storeWord_below hguestBelow a v, hbounds, hlbuf⟩

theorem hostStoreGuest_inv {s : State} (hs : s.Inv) (a : Word) (b : Byte) : (hostStoreGuest a b s).Inv := by
  obtain ⟨hcfg, hwf, hbelow, hguest, hguestBelow, hbounds, hlbuf⟩ := hs
  exact ⟨hcfg, hwf, hbelow, Memory.wf_write hguest _ b, Memory.below_write hguestBelow (guestAddr_lt a 0) b, hbounds, hlbuf⟩

theorem hostStoreWbuf_inv {s : State} (hs : s.Inv) (i : Nat) (b : Byte) : (hostStoreWbuf i b s).Inv := by
  unfold hostStoreWbuf
  split
  · exact hs
  · next hi =>
    obtain ⟨hcfg, hwf, hbelow, hrest⟩ := hs
    exact ⟨hcfg, Memory.wf_write hwf i b, Memory.below_write hbelow (Nat.lt_of_not_le hi) b, hrest⟩

/-! ## The invariant and a hash -/

/-- The copy is the one write of `LBUF`, and R181's rounded length is at most 65536. -/
theorem copyInput_inv {s : State} (hs : s.Inv) : (copyInput s).Inv := by
  obtain ⟨hcfg, hwf, hbelow, hguest, hguestBelow, hbounds, -⟩ := hs
  refine ⟨hcfg, hwf, hbelow, hguest, hguestBelow, hbounds, ?_⟩
  calc (copyInput s).tr.lbuf.length = round4 s.req.inputSize := guestBytes_length ..
    _ ≤ 65536 := round4_le _

theorem hashRequest_inv {s : State} (hs : s.Inv) : (hashRequest s).state.Inv :=
  Eff.bind_inv ((keeps_hashBody s).inv (copyInput_inv hs)) fun _ _ ht => memWrite_inv ht _ _

theorem runRequest_inv (a : Word) {s : State} (hs : s.Inv) : (runRequest a s).state.Inv :=
  hashRequest_inv (s := readRecord a s) hs

/-! ## The invariant and every step -/

/-- Whatever next state it answers, it keeps the invariant. -/
def KeepsInv (m : State → Host.Outcome State Fault Refusal) : Prop :=
  ∀ s t : State, s.Inv → m s = .next t → t.Inv

theorem keepsInv_operation {body : State → Eff OpResult} (hb : ∀ s : State, s.Inv → (body s).state.Inv) :
    KeepsInv (operation body) := by
  intro s t hs h
  rcases operation_cases body s with ⟨-, he⟩ | ⟨-, r, he⟩
  · cases he.symm.trans h; exact hs
  · cases he.symm.trans h; exact hb s hs

theorem keepsInv_command {body : State → Eff Unit} (hb : ∀ s : State, s.Inv → (body s).state.Inv) : KeepsInv (command body) :=
  keepsInv_operation fun s hs => Eff.bind_inv (hb s hs) fun _ _ ht => ht

theorem keepsInv_execPop : KeepsInv execPop := by
  intro s t hs h
  unfold execPop at h
  split at h <;> cases h <;> exact hs

theorem keepsInv_exec (i : Instr) : KeepsInv (exec i) := by
  cases i with
  | forward w => exact keepsInv_command fun _ hs => hs
  | unlock => exact keepsInv_command fun _ hs => hs
  | ignAur w => exact keepsInv_command fun _ hs => hs
  | params w => exact keepsInv_command fun _ hs => Eff.bind_inv (runRequest_inv _ hs) fun _ _ ht => ht
  | newuc => exact keepsInv_command fun _ hs => hs
  | resetuc => exact keepsInv_command fun _ hs => hs
  | ignAnc w => exact keepsInv_command fun _ hs => hs
  | poll =>
    refine keepsInv_command fun s hs => ?_
    show (if s.irqPending then emit .hostIrq s else s).Inv
    split <;> exact hs
  | pop => exact keepsInv_execPop
  | save => exact keepsInv_operation fun _ hs => hs
  | restore v => exact keepsInv_command fun _ hs => by split <;> exact hs
  | reset => exact keepsInv_command fun _ hs => restart_inv hs
  | runRequest a => exact keepsInv_command fun _ hs => runRequest_inv a hs
  | readParameters a => exact keepsInv_operation fun _ hs => hs
  | computeHash => exact keepsInv_command fun _ hs => hashRequest_inv hs
  | combine p q m n => exact keepsInv_command fun _ hs => hs
  | accSetGranularity m => exact keepsInv_command fun _ hs => hs
  | accSetBounds a e => exact keepsInv_command fun s hs => (keeps_setBounds a e s).inv hs
  | accSetCursor c => exact keepsInv_command fun _ hs => hs
  | accReadWord => exact keepsInv_operation fun s hs => Eff.bind_inv ((keeps_readWord s).inv hs) fun _ _ ht => ht
  | accReadNibble => exact keepsInv_operation fun s hs => Eff.bind_inv ((keeps_readNibble s).inv hs) fun _ _ ht => ht
  | accWriteWord v => exact keepsInv_command fun s hs => (keeps_writeWord v s).inv hs
  | accWriteNibble v => exact keepsInv_command fun s hs => (keeps_writeNibble v s).inv hs

theorem keepsInv_step : KeepsInv step := by
  intro s t hs h
  cases hin : s.inbox with
  | nil => cases (step_idle hin).symm.trans h; exact hs
  | cons action rest =>
    cases action with
    | request op => exact keepsInv_exec _ { s with inbox := rest } t hs ((step_request hin).symm.trans h)
    | storeGuest a b => cases (step_storeGuest hin).symm.trans h; exact hostStoreGuest_inv (s := { s with inbox := rest }) hs a b
    | storeWbuf i b => cases (step_storeWbuf hin).symm.trans h; exact hostStoreWbuf_inv (s := { s with inbox := rest }) hs i b

/-! ## The obligations -/

/-- Settles O46, by cases on the next host action and, for an operation, on its instruction. -/
theorem invariantKeptByStep : Obligations.InvariantKeptByStep := keepsInv_step

theorem construction_wf : Config.construction.wf := ⟨Nat.succ_pos _, Config.wbufLastIndex.isLt⟩

/-- Settles O45: reset lists no byte in either memory, configures no window and holds an empty `LBUF`. -/
theorem invariantAtReset : Obligations.InvariantAtReset :=
  ⟨construction_wf, ⟨.nil, by simp [State.reset]⟩, by simp [State.reset], ⟨.nil, by simp [State.reset]⟩, by simp [State.reset],
    rfl, Nat.zero_le _⟩

end Sys2Proof.Machine
end

section
/-! Which instruction writes which item of state (spec/10_state.md R36): the two frame statements, for the items and for the working
buffer. -/

namespace Sys2Proof.Machine

/-! ## A relation between a state and what follows it -/

/-- Every next state `m` answers stands in relation `R` to the state before. -/
def NextRelated (R : State → State → Prop) (m : State → Host.Outcome State Fault Refusal) : Prop :=
  ∀ s t : State, m s = .next t → R s t

section
variable {R : State → State → Prop} (refl : ∀ s, R s s) (result : ∀ s t r, R s t → R s { t with result := r })
include refl result

/-- A reflexive relation that does not read the returned value holds over an operation when its running body keeps it. -/
theorem nextRelated_operation {body : State → Eff OpResult} (hb : ∀ s : State, s.fault = none → R s (body s).state) :
    NextRelated R (operation body) := by
  intro s t h
  rcases operation_cases body s with ⟨-, he⟩ | ⟨hf, r, he⟩
  · cases he.symm.trans h; exact result s s _ (refl s)
  · cases he.symm.trans h; exact result s _ r (hb s hf)

theorem nextRelated_command {body : State → Eff Unit} (hb : ∀ s : State, s.fault = none → R s (body s).state) :
    NextRelated R (command body) := by
  intro s t h
  rcases command_cases body s with ⟨-, he⟩ | ⟨hf, he⟩
  · cases he.symm.trans h; exact result s s _ (refl s)
  · cases he.symm.trans h; exact result s _ _ (hb s hf)

end

/-- What holds where a part ends, and is kept by the rest, holds where the sequence ends. -/
theorem Eff.bind_state {α β : Type} {P : State → Prop} {e : Eff α} {k : α → State → Eff β} (he : P e.state)
    (hk : ∀ v u, P u → P (k v u).state) : P (e.bind k).state := by
  cases e with
  | ok v u => exact hk v u he
  | raised u => exact he

/-! ## The frame of an accelerator operation -/

/-- `t` differs from `s` at most in the accelerator's registers, `FAULT` and the trace. -/
def AccelFrame (s t : State) : Prop := ∃ a f e, t = { s with acc := a, fault := f, trace := e }

theorem AccelFrame.refl (s : State) : AccelFrame s s := ⟨_, _, _, rfl⟩

theorem AccelFrame.trans {s t u : State} (h : AccelFrame s t) (g : AccelFrame t u) : AccelFrame s u := by
  obtain ⟨a, f, e, rfl⟩ := h
  obtain ⟨a', f', e', rfl⟩ := g
  exact ⟨a', f', e', rfl⟩

theorem AccelFrame.bind {α β : Type} {s : State} {e : Eff α} {k : α → State → Eff β} (he : AccelFrame s e.state)
    (hk : ∀ v t, AccelFrame t (k v t).state) : AccelFrame s (e.bind k).state :=
  Eff.bind_keeps (R := AccelFrame) (fun _ _ _ h g => h.trans g) he fun v t _ => hk v t

/-- The prologue changes nothing: it passes with the configured cursor, or raises. -/
theorem accPrologue_cases (s : State) :
    (∃ w, accPrologue s = .ok w s ∧ s.acc.cur = some w.cur) ∨ ∃ f, accPrologue s = raise f s := by
  unfold accPrologue
  split
  · next hcur =>
    split
    · exact .inr ⟨_, rfl⟩
    · exact .inl ⟨_, rfl, hcur⟩
  · exact .inr ⟨_, rfl⟩

theorem accelFrame_raise {α : Type} (f : BlockFault) (s : State) : AccelFrame s (raise f s : Eff α).state := ⟨_, _, _, rfl⟩

theorem accelFrame_accPrologue (s : State) : AccelFrame s (accPrologue s).state := by
  rcases accPrologue_cases s with ⟨w, hw, -⟩ | ⟨f, hf⟩
  · rw [hw]; exact .refl s
  · rw [hf]; exact accelFrame_raise f s

theorem accelFrame_wbRead (i : Nat) (s : State) : AccelFrame s (wbRead i s).state := by
  unfold wbRead
  split
  · exact accelFrame_raise _ s
  · exact .refl s

/-- The access is traced, then the cursor advances (R160). -/
theorem accelFrame_tracedAdvance (e : TraceEntry) (w : AccWindow) (s : State) :
    AccelFrame s (accAdvance w (s.traced e)).state := by
  unfold accAdvance
  split <;> exact ⟨_, _, _, rfl⟩

theorem accelFrame_readWord (s : State) : AccelFrame s (readWord s).state := by
  unfold readWord
  exact (accelFrame_accPrologue s).bind fun w s1 => (accelFrame_wbRead _ s1).bind fun _ s2 =>
    (accelFrame_wbRead _ s2).bind fun _ s3 => (accelFrame_tracedAdvance _ w s3).bind fun _ s4 => .refl s4

theorem accelFrame_readNibble (s : State) : AccelFrame s (readNibble s).state := by
  unfold readNibble
  exact (accelFrame_accPrologue s).bind fun w s1 => (accelFrame_wbRead _ s1).bind fun _ s2 =>
    (accelFrame_tracedAdvance _ w s2).bind fun _ s3 => .refl s3

/-- Returning the value read leaves the state. -/
theorem AccelFrame.returned {α β : Type} {s : State} {e : Eff α} (h : AccelFrame s e.state) (f : α → β) :
    AccelFrame s (e.bind fun v u => .ok (f v) u).state :=
  h.bind fun _ u => .refl u

theorem accelFrame_setBounds (a b : Word) (s : State) : AccelFrame s (setBounds a b s).state := by
  unfold setBounds
  split <;> exact ⟨_, _, _, rfl⟩

/-- Every nibble write raises and changes nothing else (R157). -/
theorem writeNibble_raises (v : Nibble) (s : State) : ∃ f, writeNibble v s = .raised { s with fault := some f } := by
  unfold writeNibble
  rcases accPrologue_cases s with ⟨w, hw, -⟩ | ⟨f, hf⟩
  · exact ⟨.accUnsupported, by rw [hw]; rfl⟩
  · exact ⟨f, by rw [hf]; rfl⟩

/-- A word write leaves the working buffer, or writes the two bytes of the cursor's unit (R156); for the rest it is in the frame. -/
theorem writeWord_frame (v : Half) (s : State) :
    ∃ m, AccelFrame { s with wbuf := m } (writeWord v s).state ∧ (m = s.wbuf ∨ ∃ c : Word, s.acc.cur = some c ∧
      m = (s.wbuf.write (wordHighIndex c) (highByte v)).write (wordLowIndex c) (lowByte v)) := by
  unfold writeWord
  rcases accPrologue_cases s with ⟨w, hw, hcur⟩ | ⟨f, hf⟩
  · rw [hw, Eff.bind_ok]
    split
    · exact ⟨s.wbuf, accelFrame_raise _ s, .inl rfl⟩
    · next hlow =>
      have hl : wordLowIndex w.cur < s.cfg.wbufBytes := Nat.lt_of_not_le hlow
      have hh : wordHighIndex w.cur < s.cfg.wbufBytes := Nat.lt_of_succ_lt hl
      rw [wbWrite_ok hh, Eff.bind_ok, wbWrite_ok (by exact hl), Eff.bind_ok]
      exact ⟨_, accelFrame_tracedAdvance _ w _, .inr ⟨w.cur, hcur, rfl⟩⟩
  · rw [hf]
    exact ⟨s.wbuf, accelFrame_raise f s, .inl rfl⟩

/-! ## The frame of a hash -/

/-- A whole hash leaves untouched what steps 1 to 8 do, but for guest memory, where its result goes. -/
theorem untouched_hashRequest (s : State) :
    Untouched { s with guest := (hashRequest s).state.guest } (hashRequest s).state := by
  have hu := untouched_hashBody s
  rcases hashRequest_cases s with ⟨t, hb, hr⟩ | ⟨t, hb, hr⟩ <;> rw [hb] at hu <;> rw [hr] <;> exact { hu with guest := rfl }

/-- The working-buffer bytes the load of a record does not cover (R183). -/
def OutsideLoad (p : RequestParams) (x : Nat) : Prop :=
  x < 2 * p.workAddress.toNat ∨ 2 * p.workAddress.toNat + p.inputSize.toNat + p.inputSize.toNat % 2 ≤ x

theorem loadedByte_outside {p : RequestParams} {x : Nat} (hx : OutsideLoad p x) (guest wbuf : Memory) :
    loadedByte guest wbuf p x = wbuf.read x :=
  if_neg (by unfold OutsideLoad at hx; omega)

theorem partlyLoadedByte_outside {p : RequestParams} {x : Nat} (hx : OutsideLoad p x) (c : Construction) (guest wbuf : Memory) :
    partlyLoadedByte c guest wbuf p x = wbuf.read x :=
  if_neg (by unfold OutsideLoad at hx; unfold writtenWords; omega)

/-- Complete or not, a hash writes the working buffer only where its load goes. -/
theorem hashRequest_wbuf_outside {s : State} (h : s.fault = none) {x : Nat} (hx : OutsideLoad s.req x) :
    (hashRequest s).state.wbuf.read x = s.wbuf.read x := by
  by_cases hf : hashFaultFree s.cfg s.req
  · obtain ⟨t, ht, hl, -⟩ := hashRequest_ok h hf
    rw [ht]
    exact (hl.buffer x).trans (loadedByte_outside hx _ _)
  · obtain ⟨t, ht, hs⟩ := hashRequest_raises hf
    rw [ht]
    exact (hs.buffer x).trans (partlyLoadedByte_outside hx _ _ _)

/-! ## The writers of each item (R36) -/

/-- The items in which `t` differs from `s` are those instruction `i` may write; `FAULT` is written only where it was none. -/
def WrittenBy (i : Instr) (s t : State) : Prop :=
  t.cfg = s.cfg ∧ t.inbox = s.inbox ∧
  (t.pstate ≠ s.pstate → i = .unlock ∨ (∃ w, i = .params w) ∨ (∃ v, i = .restore v) ∨ i = .reset) ∧
  (t.upload ≠ s.upload → i = .newuc ∨ (∃ v, i = .restore v) ∨ i = .reset) ∧
  (t.he ≠ s.he → (∃ w, i = .params w) ∨ (∃ a, i = .runRequest a) ∨ i = .computeHash ∨ ∃ p q m n, i = .combine p q m n) ∧
  (t.tr ≠ s.tr → (∃ w, i = .params w) ∨ (∃ a, i = .runRequest a) ∨ i = .computeHash) ∧
  (t.req ≠ s.req → (∃ w, i = .params w) ∨ (∃ a, i = .runRequest a) ∨ ∃ a, i = .readParameters a) ∧
  (t.outq ≠ s.outq → (∃ w, i = .params w) ∨ i = .reset ∨ i = .pop) ∧
  (t.acc ≠ s.acc → (∃ w, i = .params w) ∨ (∃ a, i = .runRequest a) ∨ i = .computeHash ∨ i = .reset ∨
    (∃ m, i = .accSetGranularity m) ∨ (∃ a e, i = .accSetBounds a e) ∨ (∃ c, i = .accSetCursor c) ∨
    i = .accReadWord ∨ i = .accReadNibble ∨ ∃ v, i = .accWriteWord v) ∧
  (t.fault ≠ s.fault → s.fault = none)

theorem writtenBy_refl (i : Instr) (s : State) : WrittenBy i s s := by simp [WrittenBy]

theorem writtenBy_operation {i : Instr} {body : State → Eff OpResult}
    (hb : ∀ s : State, s.fault = none → WrittenBy i s (body s).state) : NextRelated (WrittenBy i) (operation body) :=
  nextRelated_operation (writtenBy_refl i) (fun _ _ _ h => h) hb

theorem writtenBy_command {i : Instr} {body : State → Eff Unit}
    (hb : ∀ s : State, s.fault = none → WrittenBy i s (body s).state) : NextRelated (WrittenBy i) (command body) :=
  nextRelated_command (writtenBy_refl i) (fun _ _ _ h => h) hb

/-- An operation in the accelerator's frame, by an instruction that may write the accelerator's registers. -/
theorem AccelFrame.writtenBy {i : Instr} {s t : State} (h : AccelFrame s t) (hs : s.fault = none)
    (ha : i = .accReadWord ∨ i = .accReadNibble ∨ (∃ a e, i = .accSetBounds a e) ∨ ∃ v, i = .accWriteWord v) : WrittenBy i s t := by
  obtain ⟨a, f, e, rfl⟩ := h
  refine ⟨rfl, rfl, absurd rfl, absurd rfl, absurd rfl, absurd rfl, absurd rfl, absurd rfl, fun _ => ?_, fun _ => hs⟩
  rcases ha with rfl | rfl | ⟨a, e, rfl⟩ | ⟨v, rfl⟩ <;> simp

theorem writtenBy_params (w : Word) {s : State} (hs : s.fault = none) : WrittenBy (.params w) s
    ((runRequest (recordAddress s.cfg w) s).bind fun _ u => .ok () { mailPush u.cfg.doneMail u with pstate := .anc }).state := by
  have hu := untouched_hashRequest (readRecord (recordAddress s.cfg w) s)
  have hkept : ∀ {u : State}, u.cfg = s.cfg ∧ u.inbox = s.inbox ∧ u.upload = s.upload → WrittenBy (.params w) s u := by
    rintro u ⟨hcfg, hinbox, hupload⟩
    simp [WrittenBy, hcfg, hinbox, hupload, hs]
  exact hkept (Eff.bind_state (P := fun u => u.cfg = s.cfg ∧ u.inbox = s.inbox ∧ u.upload = s.upload)
    ⟨hu.cfg, hu.inbox, hu.upload⟩ fun _ _ h => h)

theorem writtenBy_runRequest (a : Word) {s : State} (hs : s.fault = none) :
    WrittenBy (.runRequest a) s (runRequest a s).state := by
  have hu := untouched_hashRequest (readRecord a s)
  have hcfg : (runRequest a s).state.cfg = s.cfg := hu.cfg
  have hinbox : (runRequest a s).state.inbox = s.inbox := hu.inbox
  have hpstate : (runRequest a s).state.pstate = s.pstate := hu.pstate
  have hupload : (runRequest a s).state.upload = s.upload := hu.upload
  have houtq : (runRequest a s).state.outq = s.outq := hu.outq
  simp [WrittenBy, hcfg, hinbox, hpstate, hupload, houtq, hs]

theorem writtenBy_computeHash {s : State} (hs : s.fault = none) : WrittenBy .computeHash s (hashRequest s).state := by
  have hu := untouched_hashRequest s
  simp [WrittenBy, hu.cfg, hu.inbox, hu.pstate, hu.upload, hu.req, hu.outq, hs]

theorem writtenBy_exec (i : Instr) : NextRelated (WrittenBy i) (exec i) := by
  cases i with
  | forward | unlock | ignAur | newuc | resetuc | ignAnc | reset | combine =>
    exact writtenBy_command fun _ _ => by simp [WrittenBy, Eff.state]
  | accSetGranularity | accSetCursor =>
    exact writtenBy_command fun _ _ => by simp [WrittenBy, Eff.state, setGranularity, setCursor]
  | save | readParameters => exact writtenBy_operation fun _ _ => by simp [WrittenBy, Eff.state]
  | params w => exact writtenBy_command fun _ hs => writtenBy_params w hs
  | runRequest a => exact writtenBy_command fun _ hs => writtenBy_runRequest a hs
  | computeHash => exact writtenBy_command fun _ hs => writtenBy_computeHash hs
  | poll => exact writtenBy_command fun _ _ => by simp only [Eff.state]; split <;> simp [WrittenBy]
  | pop =>
    intro s t h
    rw [exec_pop, execPop] at h
    split at h <;> cases h <;> simp [WrittenBy]
  | restore v => exact writtenBy_command fun _ hs => by split <;> simp [WrittenBy, Eff.state, hs]
  | accSetBounds a e => exact writtenBy_command fun s hs => (accelFrame_setBounds a e s).writtenBy hs (by simp)
  | accReadWord =>
    exact writtenBy_operation fun s hs => ((accelFrame_readWord s).returned _).writtenBy hs (by simp)
  | accReadNibble =>
    exact writtenBy_operation fun s hs => ((accelFrame_readNibble s).returned _).writtenBy hs (by simp)
  | accWriteWord v =>
    refine writtenBy_command fun s hs => ?_
    obtain ⟨m, hframe, -⟩ := writeWord_frame v s
    exact hframe.writtenBy (i := .accWriteWord v) (s := { s with wbuf := m }) hs (by simp)
  | accWriteNibble v =>
    refine writtenBy_command fun s hs => ?_
    obtain ⟨f, hf⟩ := writeNibble_raises v s
    simp [hf, WrittenBy, Eff.state, hs]

/-- Settles O42, by cases on the instruction: the frame of a hash, the frame of an accelerator operation, and the update of every
other arm. -/
theorem writersOfEachItem : Obligations.WritersOfEachItem := writtenBy_exec

/-! ## The writers of the working buffer (R36, R279) -/

/-- From `s` to `t` the working buffer changes at most where the load of the record `p s` goes. -/
def LoadWritten (p : State → RequestParams) (s t : State) : Prop :=
  ∀ x, OutsideLoad (p s) x → t.wbuf.read x = s.wbuf.read x

theorem loadWritten_command {p : State → RequestParams} {body : State → Eff Unit}
    (hb : ∀ s : State, s.fault = none → LoadWritten p s (body s).state) : NextRelated (LoadWritten p) (command body) :=
  nextRelated_command (fun _ _ _ => rfl) (fun _ _ _ h => h) hb

theorem loadWritten_computeHash : NextRelated (LoadWritten State.req) (exec .computeHash) :=
  loadWritten_command fun _ hs _ hx => hashRequest_wbuf_outside hs hx

theorem loadWritten_runRequest (a : Word) : NextRelated (LoadWritten fun s => recordAt s.guest a) (exec (.runRequest a)) :=
  loadWritten_command fun s hs _ hx => hashRequest_wbuf_outside (s := readRecord a s) hs hx

theorem loadWritten_params (w : Word) :
    NextRelated (LoadWritten fun s => recordAt s.guest (recordAddress s.cfg w)) (exec (.params w)) :=
  loadWritten_command fun s hs x hx => Eff.bind_state (P := fun u => u.wbuf.read x = s.wbuf.read x)
    (hashRequest_wbuf_outside (s := readRecord (recordAddress s.cfg w) s) hs hx) fun _ _ h => h

/-- From `s` to `t` the working buffer changes at most in the two bytes of the cursor's unit, and not at all without a cursor. -/
def UnitWritten (s t : State) : Prop :=
  (∀ c : Word, s.acc.cur = some c → ∀ x, x ≠ wordHighIndex c → x ≠ wordLowIndex c → t.wbuf.read x = s.wbuf.read x) ∧
    (s.acc.cur = none → t.wbuf = s.wbuf)

theorem unitWritten_writeWord (v : Half) (s : State) : UnitWritten s (writeWord v s).state := by
  obtain ⟨m, ⟨a, f, e, ht⟩, rfl | ⟨c, hc, rfl⟩⟩ := writeWord_frame v s
  · rw [ht]
    exact ⟨fun _ _ _ _ _ => rfl, fun _ => rfl⟩
  · rw [ht]
    refine ⟨fun d hd x hhigh hlow => ?_, fun hnone => by cases hc.symm.trans hnone⟩
    cases hc.symm.trans hd
    simp [hhigh, hlow]

theorem unitWritten_accWriteWord (v : Half) : NextRelated UnitWritten (exec (.accWriteWord v)) :=
  nextRelated_command (fun _ => ⟨fun _ _ _ _ _ => rfl, fun _ => rfl⟩) (fun _ _ _ h => h) fun s _ => unitWritten_writeWord v s

/-- The working buffer is as before. -/
def WbufSame (s t : State) : Prop := t.wbuf = s.wbuf

theorem AccelFrame.wbufSame {s t : State} (h : AccelFrame s t) : WbufSame s t := by
  obtain ⟨a, f, e, rfl⟩ := h
  rfl

theorem wbufSame_operation {body : State → Eff OpResult} (hb : ∀ s, WbufSame s (body s).state) :
    NextRelated WbufSame (operation body) :=
  nextRelated_operation (R := WbufSame) (fun _ => rfl) (fun _ _ _ h => h) fun s _ => hb s

theorem wbufSame_command {body : State → Eff Unit} (hb : ∀ s, WbufSame s (body s).state) : NextRelated WbufSame (command body) :=
  nextRelated_command (R := WbufSame) (fun _ => rfl) (fun _ _ _ h => h) fun s _ => hb s

theorem wbufSame_exec {i : Instr} (hparams : ∀ w, i ≠ .params w) (hrun : ∀ a, i ≠ .runRequest a) (hcompute : i ≠ .computeHash)
    (hwrite : ∀ v, i ≠ .accWriteWord v) : NextRelated WbufSame (exec i) := by
  cases i with
  | params w => exact absurd rfl (hparams w)
  | runRequest a => exact absurd rfl (hrun a)
  | computeHash => exact absurd rfl hcompute
  | accWriteWord v => exact absurd rfl (hwrite v)
  | forward | unlock | ignAur | newuc | resetuc | ignAnc | reset | combine | accSetGranularity | accSetCursor =>
    exact wbufSame_command fun _ => rfl
  | save | readParameters => exact wbufSame_operation fun _ => rfl
  | poll => exact wbufSame_command fun _ => by simp only [Eff.state]; split <;> rfl
  | pop =>
    intro s t h
    rw [exec_pop, execPop] at h
    split at h <;> cases h <;> rfl
  | restore v => exact wbufSame_command fun _ => by split <;> rfl
  | accSetBounds a e => exact wbufSame_command fun s => (accelFrame_setBounds a e s).wbufSame
  | accReadWord => exact wbufSame_operation fun s => ((accelFrame_readWord s).returned _).wbufSame
  | accReadNibble => exact wbufSame_operation fun s => ((accelFrame_readNibble s).returned _).wbufSame
  | accWriteNibble v =>
    refine wbufSame_command fun s => ?_
    obtain ⟨f, hf⟩ := writeNibble_raises v s
    rw [hf]
    rfl

/-- Settles O35, from the frame of a hash, the frame of a word write, and by cases on every other instruction. -/
theorem onlyTheLoadIsWritten : Obligations.OnlyTheLoadIsWritten := fun s t =>
  ⟨fun w => loadWritten_params w s t, fun a => loadWritten_runRequest a s t, loadWritten_computeHash s t,
    fun v c hc h => (unitWritten_accWriteWord v s t h).1 c hc, fun v hnone h => (unitWritten_accWriteWord v s t h).2 hnone,
    fun _ hparams hrun hcompute hwrite => wbufSame_exec hparams hrun hcompute hwrite s t⟩

end Sys2Proof.Machine
end

section
/-! The guest memory (spec/20_memory.md): its accesses are big-endian with addresses mod 2^32 (R51, R52), only the result of a hash is
stored (R54, R280), and every operation runs to completion (R60). -/

namespace Sys2Proof.Machine

/-! ## Guest accesses (R51, R52) -/

theorem guestAddr_eq_mod (a : Word) (k : Nat) : guestAddr a k = (a.toNat + k) % 2 ^ 32 := by
  rw [guestAddr, BitVec.toNat_add, BitVec.toNat_ofNat, Nat.add_mod_mod]

/-- The byte of a stored word at each of its four addresses: none of the later byte writes meets an earlier one. -/
theorem storeWord_read_same (m : Memory) (a v : Word) {k : Nat} (hk : k < 4) :
    (storeWord m a v).read (guestAddr a k) = v.extractLsb' (24 - 8 * k) 8 := by
  have haddr : ∀ j < 4, guestAddr a k = guestAddr a j ↔ k = j := fun j hj =>
    ⟨guestAddr_inj (by omega) (by omega), congrArg (guestAddr a)⟩
  simp only [storeWord, Memory.read_write, haddr 0 (by decide), haddr 1 (by decide), haddr 2 (by decide), haddr 3 (by decide)]
  obtain rfl | rfl | rfl | rfl : k = 0 ∨ k = 1 ∨ k = 2 ∨ k = 3 := by omega
  all_goals rfl

/-- A word is its four bytes, the most significant first. -/
theorem be32_bytes (v : Word) :
    be32 (v.extractLsb' 24 8) (v.extractLsb' 16 8) (v.extractLsb' 8 8) (v.extractLsb' 0 8) = v := by
  rw [be32, BitVec.extractLsb'_append_extractLsb'_eq_extractLsb' (start₂ := 24) (start₁ := 16) rfl,
    BitVec.extractLsb'_append_extractLsb'_eq_extractLsb' (start₂ := 16) (start₁ := 8) rfl,
    BitVec.extractLsb'_append_extractLsb'_eq_extractLsb' (start₂ := 8) (start₁ := 0) rfl]
  exact BitVec.extractLsb'_eq_self

theorem guestWord_storeWord (m : Memory) (a v : Word) : guestWord (storeWord m a v) a = v := by
  rw [guestWord, storeWord_read_same m a v (k := 0) (by decide), storeWord_read_same m a v (k := 1) (by decide),
    storeWord_read_same m a v (k := 2) (by decide), storeWord_read_same m a v (k := 3) (by decide)]
  exact be32_bytes v

/-- Settles O33, from the four bytes of a stored word and the bytes it leaves. -/
theorem guestWordsAreBigEndian : Obligations.GuestWordsAreBigEndian := by
  intro m addr v
  simp only [← guestAddr_eq_mod]
  refine ⟨rfl, rfl, rfl, storeWord_read_same m addr v (by decide), storeWord_read_same m addr v (by decide),
    storeWord_read_same m addr v (by decide), storeWord_read_same m addr v (by decide), fun x h0 h1 h2 h3 => ?_,
    guestWord_storeWord m addr v⟩
  refine storeWord_read_other m addr v x fun k hk => ?_
  obtain rfl | rfl | rfl | rfl : k = 0 ∨ k = 1 ∨ k = 2 ∨ k = 3 := by omega
  exacts [h0, h1, h2, h3]

/-! ## The writers of guest memory (R54, R280) -/

/-- From `s` to `t` guest memory changes at most in the four bytes at the output address of the record `p s`. -/
def ResultStored (p : State → RequestParams) (s t : State) : Prop :=
  ∀ x, (∀ k < 4, x ≠ guestAddr (p s).outputAddress k) → t.guest.read x = s.guest.read x

/-- Complete or not, a hash stores at most its result. -/
theorem resultStored_hashRequest (s : State) : ResultStored State.req s (hashRequest s).state := by
  intro x hx
  have hguest := (untouched_hashBody s).guest
  rcases hashRequest_cases s with ⟨t, hbody, hrequest⟩ | ⟨t, hbody, hrequest⟩
  · rw [hbody] at hguest
    rw [hrequest]
    exact congrArg (Memory.read · x) hguest
  · rw [hbody] at hguest
    rw [hrequest]
    exact (storeWord_read_other t.guest _ _ x hx).trans (congrArg (Memory.read · x) hguest)

theorem resultStored_command {p : State → RequestParams} {body : State → Eff Unit}
    (hb : ∀ s, ResultStored p s (body s).state) : NextRelated (ResultStored p) (command body) :=
  nextRelated_command (fun _ _ _ => rfl) (fun _ _ _ h => h) fun s _ => hb s

theorem resultStored_computeHash : NextRelated (ResultStored State.req) (exec .computeHash) :=
  resultStored_command resultStored_hashRequest

theorem resultStored_runRequest (a : Word) : NextRelated (ResultStored fun s => recordAt s.guest a) (exec (.runRequest a)) :=
  resultStored_command fun s => resultStored_hashRequest (readRecord a s)

theorem resultStored_params (w : Word) :
    NextRelated (ResultStored fun s => recordAt s.guest (recordAddress s.cfg w)) (exec (.params w)) :=
  resultStored_command fun s x hx => Eff.bind_state (P := fun u => u.guest.read x = s.guest.read x)
    (resultStored_hashRequest (readRecord (recordAddress s.cfg w) s) x hx) fun _ _ h => h

/-- Guest memory is as before. -/
def GuestSame (s t : State) : Prop := t.guest = s.guest

theorem Keeps.guestSame {s t : State} (h : Keeps s t) : GuestSame s t := h.untouched.guest

theorem guestSame_operation {body : State → Eff OpResult} (hb : ∀ s, GuestSame s (body s).state) :
    NextRelated GuestSame (operation body) :=
  nextRelated_operation (R := GuestSame) (fun _ => rfl) (fun _ _ _ h => h) fun s _ => hb s

theorem guestSame_command {body : State → Eff Unit} (hb : ∀ s, GuestSame s (body s).state) :
    NextRelated GuestSame (command body) :=
  nextRelated_command (R := GuestSame) (fun _ => rfl) (fun _ _ _ h => h) fun s _ => hb s

theorem guestSame_exec {i : Instr} (hparams : ∀ w, i ≠ .params w) (hrun : ∀ a, i ≠ .runRequest a)
    (hcompute : i ≠ .computeHash) : NextRelated GuestSame (exec i) := by
  cases i with
  | params w => exact absurd rfl (hparams w)
  | runRequest a => exact absurd rfl (hrun a)
  | computeHash => exact absurd rfl hcompute
  | forward | unlock | ignAur | newuc | resetuc | ignAnc | reset | combine | accSetGranularity | accSetCursor =>
    exact guestSame_command fun _ => rfl
  | save | readParameters => exact guestSame_operation fun _ => rfl
  | poll => exact guestSame_command fun _ => by simp only [Eff.state]; split <;> rfl
  | pop =>
    intro s t h
    rw [exec_pop, execPop] at h
    split at h <;> cases h <;> rfl
  | restore v => exact guestSame_command fun _ => by split <;> rfl
  | accSetBounds a e => exact guestSame_command fun s => (keeps_setBounds a e s).guestSame
  | accReadWord =>
    exact guestSame_operation fun s => Eff.bind_state (P := GuestSame s) (keeps_readWord s).guestSame fun _ _ h => h
  | accReadNibble =>
    exact guestSame_operation fun s => Eff.bind_state (P := GuestSame s) (keeps_readNibble s).guestSame fun _ _ h => h
  | accWriteWord v => exact guestSame_command fun s => (keeps_writeWord v s).guestSame
  | accWriteNibble v => exact guestSame_command fun s => (keeps_writeNibble v s).guestSame

/-- Settles O34, from what a hash stores and by cases on every other instruction. -/
theorem onlyTheResultIsStored : Obligations.OnlyTheResultIsStored := fun s t =>
  ⟨fun w => resultStored_params w s t, fun a => resultStored_runRequest a s t, resultStored_computeHash s t,
    fun _ hparams hrun hcompute => guestSame_exec hparams hrun hcompute s t⟩

/-! ## Every operation ends (R60, R283) -/

/-- In every state it answers a next state. -/
def Answers (m : State → Host.Outcome State Fault Refusal) : Prop := ∀ s, ∃ t, m s = .next t

theorem answers_operation (body : State → Eff OpResult) : Answers (operation body) := operation_next body

theorem answers_command (body : State → Eff Unit) : Answers (command body) := operation_next _

/-- `POP` answers the head of `OUTQ`, or that there is none (R225). -/
theorem answers_execPop : Answers execPop := by
  intro s
  unfold execPop
  split
  · exact ⟨_, rfl⟩
  · exact ⟨_, rfl⟩

theorem answers_exec (i : Instr) : Answers (exec i) := by
  cases i with
  | pop => exact answers_execPop
  | save | readParameters | accReadWord | accReadNibble => exact answers_operation _
  | forward | unlock | ignAur | params | newuc | resetuc | ignAnc | poll | restore | reset | runRequest | computeHash | combine
  | accSetGranularity | accSetBounds | accSetCursor | accWriteWord | accWriteNibble => exact answers_command _

/-- Settles O41, by cases on the instruction: each is a command or an operation, but for `POP`. That a fault of the block and a refused
operation are next states is notes/assumptions/12.md. -/
theorem everyOperationEnds : Obligations.EveryOperationEnds := answers_exec

end Sys2Proof.Machine
end

section
/-! The encoding (spec/30_encoding.md): the masked record address (R84), the decoder against R82's table, and the round trips between
instructions, mail words, requests and accelerator operations (R80, R82, R85). -/

namespace Sys2Proof.Machine

open Laws

/-! ## The record address (R84) -/

/-- How many low bits `ADDR_MASK` keeps. -/
def keptBits : AddrMask → Nat
  | .low28 => 28
  | .low30 => 30

theorem addrMaskWord_toNat (m : AddrMask) : (addrMaskWord m).toNat = 2 ^ keptBits m - 1 := by
  cases m <;> rfl

theorem recordAddress_toNat (c : Construction) (w : Word) :
    (recordAddress c w).toNat = w.toNat % 2 ^ keptBits c.addrMask := by
  rw [recordAddress, BitVec.toNat_and, addrMaskWord_toNat, Nat.and_two_pow_sub_one_eq_mod]

/-- Settles O8: either mask is a power of two less one. -/
theorem recordAddressKeepsTheLowBits : Obligations.RecordAddressKeepsTheLowBits := fun c w =>
  ⟨fun h => by rw [recordAddress_toNat, h, keptBits], fun h => by rw [recordAddress_toNat, h, keptBits]⟩

/-! ## The decoder and R82's table -/

/-- An exact row admits its one word (R83). -/
theorem admits_exact (u : Bool) (p : Option PState) (v : Word) (f : Word → Instr) (c : Context) (w : Word) :
    MailRow.admits ⟨u, p, v, 0xFFFFFFFF#32, f⟩ c w = (u == c.upload && (p == none || p == some c.pstate) && w == v) := by
  have hmask : w &&& 0xFFFFFFFF#32 = w := BitVec.and_allOnes
  rw [MailRow.admits, hmask]

/-- A row of any other word admits every word in its context. -/
theorem admits_any (u : Bool) (p : Option PState) (f : Word → Instr) (c : Context) (w : Word) :
    MailRow.admits ⟨u, p, 0#32, 0#32, f⟩ c w = (u == c.upload && (p == none || p == some c.pstate)) := by
  simp [MailRow.admits]

/-- Settles O47, context by context: there the rows tried are the exact matches and then the row of any other word. -/
theorem decodeIsTheTable : Obligations.DecodeIsTheTable := by
  intro c w
  obtain ⟨upload, pstate⟩ := c
  cases upload with
  | true => simp [tableDecode, mailRows, admits_any, decodeMail]
  | false =>
    cases pstate with
    | aur => by_cases hw : w = 0xFF000000#32 <;> simp [tableDecode, mailRows, admits_exact, admits_any, decodeMail, unlockWord, hw]
    | apa => simp [tableDecode, mailRows, admits_exact, admits_any, decodeMail]
    | anc =>
      by_cases hn : w = 0xCDD10001#32
      · simp [tableDecode, mailRows, admits_exact, admits_any, decodeMail, newucWord, hn]
      · by_cases hr : w = 0xCDD10002#32 <;>
          simp [tableDecode, mailRows, admits_exact, admits_any, decodeMail, newucWord, resetucWord, hn, hr]

/-- Settles O49, row by row of R82. -/
theorem encodeOfDecode : Obligations.EncodeOfDecode := by
  intro c w
  obtain ⟨d, hu⟩ | ⟨d, hu, hp, rfl⟩ | ⟨d, hu, hp, hw⟩ | ⟨d, hu, hp⟩ | ⟨d, hu, hp, rfl⟩ | ⟨d, hu, hp, rfl⟩ |
    ⟨d, hu, hp, hn, hr⟩ := decodeMail_cases c w
  all_goals simp [Instr.wellFormed, Instr.inContext, encode, *]

/-! ## Decoding an encoding -/

/-- A mail word's four bytes, followed by anything, decode to its instruction and what follows. -/
theorem decodeBytes_bytesOfWord (c : Context) (w : Word) (rest : List Byte) :
    decodeBytes c (bytesOfWord w ++ rest) = .ok (decodeMail c w, rest) :=
  congrArg (fun v => Except.ok (decodeMail c v, rest)) (be32_bytes w)

/-- The mail word of a well-formed instruction decodes to it in every context where its row is tried. -/
theorem decodeMail_of_encode (i : Instr) : RoundTrip.Statement i := by
  cases i with
  | forward v => exact RoundTrip.forward v
  | unlock => exact RoundTrip.unlock
  | ignAur v => exact RoundTrip.ignAur v
  | params v => exact RoundTrip.params v
  | newuc => exact RoundTrip.newuc
  | resetuc => exact RoundTrip.resetuc
  | ignAnc v => exact RoundTrip.ignAnc v
  | poll | pop | save | restore | reset | runRequest | readParameters | computeHash | combine | accSetGranularity | accSetBounds
  | accSetCursor | accReadWord | accReadNibble | accWriteWord | accWriteNibble => exact fun _ _ _ _ he => nomatch he

/-- A host request for an instruction delivers its mail word, or is a port operation of its own, the same in every context. -/
theorem encodeOp_cases {i : Instr} {op : HostOp} (h : encodeOp i = some op) :
    (∃ w, encode i = some w ∧ op = .mail w) ∨ ∀ c, decodeOp c op = i := by
  cases i with
  | forward | unlock | ignAur | params | newuc | resetuc | ignAnc => exact .inl ⟨_, rfl, (Option.some.inj h).symm⟩
  | poll | pop | save | restore | reset => cases h; exact .inr fun _ => rfl
  | runRequest | readParameters | computeHash | combine | accSetGranularity | accSetBounds | accSetCursor | accReadWord
  | accReadNibble | accWriteWord | accWriteNibble => exact nomatch h

theorem decodeOp_of_encodeOp {i : Instr} {c : Context} {op : HostOp} (hwf : i.wellFormed = true) (hc : i.inContext c = true)
    (h : encodeOp i = some op) : decodeOp c op = i := by
  obtain ⟨w, hw, rfl⟩ | hport := encodeOp_cases h
  · exact decodeMail_of_encode i c w hwf hc hw
  · exact hport c

/-- The accelerator operation of a row decodes to the row; a nibble is the low four bits of the value its request holds. -/
theorem decodeAcc_of_encodeAcc {i : Instr} {mode : Option AccMode} {op : AccOp} (h : encodeAcc mode i = some op) :
    decodeAcc mode op = i := by
  cases i with
  | accSetGranularity | accSetBounds | accSetCursor => cases h; rfl
  | accReadWord | accReadNibble | accWriteWord =>
    obtain ⟨rfl, hop⟩ := Option.ite_none_right_eq_some.mp h
    cases hop
    rfl
  | accWriteNibble v =>
    obtain ⟨rfl, hop⟩ := Option.ite_none_right_eq_some.mp h
    cases hop
    have hv : (v.setWidth 16).setWidth 4 = v := by rw [BitVec.setWidth_setWidth_of_le v (by decide), BitVec.setWidth_eq]
    exact congrArg Instr.accWriteNibble hv
  | forward | unlock | ignAur | params | newuc | resetuc | ignAnc | poll | pop | save | restore | reset | runRequest | readParameters
  | computeHash | combine => exact nomatch h

/-- Settles O48: a mail instruction's bytes are its word's, and a request and an accelerator operation are read back row by row. -/
theorem decodeOfEncode : Obligations.DecodeOfEncode := by
  refine ⟨fun i c rest bs hwf hc hb => ?_, fun _ _ _ => decodeOp_of_encodeOp, fun _ _ _ => decodeAcc_of_encodeAcc⟩
  obtain ⟨w, hw, rfl⟩ := Option.map_eq_some_iff.mp hb
  exact ⟨rfl, by rw [decodeBytes_bytesOfWord, decodeMail_of_encode i c w hwf hc hw]⟩

/-! ## Requests and their rows (R80) -/

/-- Settles O51: each request is its row by definition, and the low four bits of a value are its bits 3 to 0. -/
theorem requestsDecodeToTheirRows : Obligations.RequestsDecodeToTheirRows :=
  ⟨fun _ => ⟨rfl, rfl, rfl, rfl, fun _ => rfl, fun _ => rfl⟩, fun _ => ⟨fun _ => rfl, fun _ _ => rfl, fun _ => rfl⟩, rfl, rfl,
    fun _ => rfl, fun _ => congrArg Instr.accWriteNibble (BitVec.setWidth_eq_extractLsb' (by decide))⟩

end Sys2Proof.Machine
end

section
/-! The protocol state machine (spec/40_protocol.md): which words each mail instruction is and what it does (R110 to R120), what a whole
hash leaves after `run_request` and after `PARAMS` (R115 to R117), and that the protocol starts one hash at most (R122). -/

namespace Sys2Proof.Machine

/-! ## Which words are which instruction (R82) -/

/-- A word in a context is an instruction exactly when the instruction's row is tried there and holds the word: the two round trips
of the encoding. -/
theorem decodeMail_eq_iff (c : Context) (w : Word) (i : Instr) :
    decodeMail c w = i ↔ i.wellFormed = true ∧ i.inContext c = true ∧ encode i = some w := by
  constructor
  · rintro rfl
    exact encodeOfDecode c w
  · rintro ⟨hwf, hc, he⟩
    exact decodeMail_of_encode i c w hwf hc he

theorem decodeMail_eq_forward_iff (c : Context) (w v : Word) : decodeMail c w = .forward v ↔ c.upload = true ∧ v = w := by
  simp [decodeMail_eq_iff, Instr.wellFormed, Instr.inContext, encode]

theorem decodeMail_eq_unlock_iff (c : Context) (w : Word) :
    decodeMail c w = .unlock ↔ c.upload = false ∧ c.pstate = .aur ∧ w = 0xFF000000#32 := by
  simp [decodeMail_eq_iff, Instr.wellFormed, Instr.inContext, encode, unlockWord, and_assoc, eq_comm (b := w)]

theorem decodeMail_eq_ignAur_iff (c : Context) (w v : Word) :
    decodeMail c w = .ignAur v ↔ c.upload = false ∧ c.pstate = .aur ∧ w ≠ 0xFF000000#32 ∧ v = w := by
  rw [decodeMail_eq_iff]
  obtain rfl | hv := eq_or_ne v w
  · simp [Instr.wellFormed, Instr.inContext, encode, unlockWord, and_comm, and_assoc]
  · simp [encode, hv]

theorem decodeMail_eq_params_iff (c : Context) (w v : Word) :
    decodeMail c w = .params v ↔ c.upload = false ∧ c.pstate = .apa ∧ v = w := by
  simp [decodeMail_eq_iff, Instr.wellFormed, Instr.inContext, encode, and_assoc]

theorem decodeMail_eq_newuc_iff (c : Context) (w : Word) :
    decodeMail c w = .newuc ↔ c.upload = false ∧ c.pstate = .anc ∧ w = 0xCDD10001#32 := by
  simp [decodeMail_eq_iff, Instr.wellFormed, Instr.inContext, encode, newucWord, and_assoc, eq_comm (b := w)]

theorem decodeMail_eq_resetuc_iff (c : Context) (w : Word) :
    decodeMail c w = .resetuc ↔ c.upload = false ∧ c.pstate = .anc ∧ w = 0xCDD10002#32 := by
  simp [decodeMail_eq_iff, Instr.wellFormed, Instr.inContext, encode, resetucWord, and_assoc, eq_comm (b := w)]

theorem decodeMail_eq_ignAnc_iff (c : Context) (w v : Word) :
    decodeMail c w = .ignAnc v ↔ c.upload = false ∧ c.pstate = .anc ∧ w ≠ 0xCDD10001#32 ∧ w ≠ 0xCDD10002#32 ∧ v = w := by
  rw [decodeMail_eq_iff]
  obtain rfl | hv := eq_or_ne v w
  · simp [Instr.wellFormed, Instr.inContext, encode, newucWord, resetucWord, and_comm, and_assoc]
  · simp [encode, hv]

/-! ## What each mail word but `PARAMS` does to a running block (R112 to R120) -/

section
variable {s : State} (hs : s.fault = none)
include hs

/-- A command whose body completes leaves the body's state, but for the returned value. -/
theorem command_ok_arch {u : State} {body : State → Eff Unit} (hb : body s = .ok () u) :
    ∃ t, command body s = .next t ∧ t.arch = u.arch :=
  ⟨_, command_ok hs hb, rfl⟩

theorem exec_forward_arch (w : Word) :
    ∃ t, exec (.forward w) s = .next t ∧ t.arch = ({ s with events := s.events ++ [.forward w] } : State).arch := by
  rw [exec_forward]
  exact command_ok_arch hs rfl

theorem exec_unlock_arch : ∃ t, exec .unlock s = .next t ∧ t.arch = ({ s with pstate := .apa } : State).arch := by
  rw [exec_unlock]
  exact command_ok_arch hs rfl

theorem exec_ignAur_arch (w : Word) :
    ∃ t, exec (.ignAur w) s = .next t ∧ t.arch = ({ s with events := s.events ++ [.warn w] } : State).arch := by
  rw [exec_ignAur]
  exact command_ok_arch hs rfl

theorem exec_newuc_arch : ∃ t, exec .newuc s = .next t ∧ t.arch = ({ s with upload := true } : State).arch := by
  rw [exec_newuc]
  exact command_ok_arch hs rfl

theorem exec_resetuc_arch : ∃ t, exec .resetuc s = .next t ∧
    t.arch = ({ s with events := s.events ++ [.switch s.cfg.defaultModuleId] } : State).arch := by
  rw [exec_resetuc]
  exact command_ok_arch hs rfl

theorem exec_ignAnc_arch (w : Word) :
    ∃ t, exec (.ignAnc w) s = .next t ∧ t.arch = ({ s with events := s.events ++ [.warn w] } : State).arch := by
  rw [exec_ignAnc]
  exact command_ok_arch hs rfl

end

/-! ## What `run_request` and `PARAMS` leave (R115 to R117) -/

theorem HashLeaves.with_result {s t : State} {p : RequestParams} (h : HashLeaves s p t) (r : OpResult) :
    HashLeaves s p { t with result := r } := { h with }

theorem HashStops.with_result {s t : State} {p : RequestParams} {before : List TraceEntry} (h : HashStops s p before t)
    (r : OpResult) : HashStops s p before { t with result := r } := { h with }

/-- A hash reads of the state it starts in only what reading the record leaves as it was. -/
theorem HashLeaves.of_readRecord {a : Word} {s t : State} {p : RequestParams} (h : HashLeaves (readRecord a s) p t) :
    HashLeaves s p t := { h with }

theorem HashStops.of_readRecord {a : Word} {s t : State} {p : RequestParams} {before : List TraceEntry}
    (h : HashStops (readRecord a s) p before t) : HashStops s p before t := { h with }

theorem runRequest_ok {a : Word} {s : State} (hs : s.fault = none) (hf : hashFaultFree s.cfg (recordAt s.guest a)) :
    ∃ t, runRequest a s = .ok () t ∧ HashLeaves s (recordAt s.guest a) t ∧ t.outq = s.outq ∧ t.pstate = s.pstate := by
  obtain ⟨t, ht, hleaves, houtq, hpstate, -⟩ := hashRequest_ok (s := readRecord a s) hs hf
  exact ⟨t, ht, hleaves.of_readRecord, houtq, hpstate⟩

theorem runRequest_raises {a : Word} {s : State} (hf : ¬ hashFaultFree s.cfg (recordAt s.guest a)) :
    ∃ t, runRequest a s = .raised t ∧ HashStops s (recordAt s.guest a) (recordTrace a ++ s.trace) t := by
  obtain ⟨t, ht, hstops⟩ := hashRequest_raises (s := readRecord a s) hf
  exact ⟨t, ht, hstops.of_readRecord⟩

/-- Settles O17: the record read, then a hash that completes or stops. -/
theorem runRequestReadsAndHashes : Obligations.RunRequestReadsAndHashes := by
  refine ⟨fun a s hs hf => ?_, fun a s hs hf => ?_⟩
  · obtain ⟨t, ht, hleaves, houtq, hpstate⟩ := runRequest_ok hs hf
    exact ⟨_, command_ok hs ht, hleaves.with_result _, houtq, hpstate⟩
  · obtain ⟨t, ht, hstops⟩ := runRequest_raises hf
    exact ⟨_, command_raised hs ht, hstops.with_result _⟩

/-- After a hash that completes, `PARAMS` pushes `DONE_MAIL` and goes to `ANC`, and both leave what the hash left (R116). -/
theorem exec_params_completes {w : Word} {s : State} (hs : s.fault = none)
    (hf : hashFaultFree s.cfg (recordAt s.guest (recordAddress s.cfg w))) :
    ∃ t, exec (.params w) s = .next t ∧ HashLeaves s (recordAt s.guest (recordAddress s.cfg w)) t ∧
      t.outq = s.outq ++ [s.cfg.doneMail] ∧ t.pstate = .anc := by
  obtain ⟨t, ht, hleaves, houtq, -⟩ := runRequest_ok hs hf
  rw [exec_params]
  refine ⟨_, command_ok (t := { mailPush t.cfg.doneMail t with pstate := .anc }) hs (by rw [ht, Eff.bind_ok]),
    { hleaves with }, ?_, rfl⟩
  simp [houtq, hleaves.cfg]

/-- A hash that a fault stops is all that `PARAMS` does (R117). -/
theorem exec_params_stops {w : Word} {s : State} (hs : s.fault = none)
    (hf : ¬ hashFaultFree s.cfg (recordAt s.guest (recordAddress s.cfg w))) :
    ∃ t, exec (.params w) s = .next t ∧ HashStops s (recordAt s.guest (recordAddress s.cfg w))
      (recordTrace (recordAddress s.cfg w) ++ s.trace) t := by
  obtain ⟨t, ht, hstops⟩ := runRequest_raises hf
  rw [exec_params]
  exact ⟨_, command_raised hs (by rw [ht, Eff.bind_raised]), hstops.with_result _⟩

/-- Settles O6, by whether R199 admits the record. -/
theorem paramsRunsOneHash : Obligations.ParamsRunsOneHash :=
  ⟨decodeMail_eq_params_iff, fun _ _ => exec_params_completes, fun _ _ => exec_params_stops⟩

/-! ## At most one hash (R122) -/

/-- The block can start no further hash without a reset or a restore: it is stopped, it forwards every word, or it awaits commands. -/
def HashSpent (s : State) : Prop := s.fault ≠ none ∨ s.upload = true ∨ s.pstate = .anc

/-- Complete or not, a `PARAMS` of a running block is the last (R116, R117). -/
theorem hashSpent_of_params {w : Word} {s t : State} (hs : s.fault = none) (h : exec (.params w) s = .next t) : HashSpent t := by
  by_cases hf : hashFaultFree s.cfg (recordAt s.guest (recordAddress s.cfg w))
  · obtain ⟨u, hu, -, -, hpstate⟩ := exec_params_completes hs hf
    cases hu.symm.trans h
    exact .inr (.inr hpstate)
  · obtain ⟨u, hu, hstops⟩ := exec_params_stops hs hf
    cases hu.symm.trans h
    exact .inl (by simp [hstops.fault])

/-- An operation is an instruction of the context it is decoded in. -/
theorem decodeOp_inContext (c : Context) (op : HostOp) : (decodeOp c op).inContext c = true := by
  cases op with
  | mail w =>
    obtain ⟨-, hc, -⟩ := encodeOfDecode c w
    exact hc
  | poll | pop | save | restore | reset => rfl

/-- No mail word is a `RESET` or a `RESTORE`: a mail instruction has a word of its own, and they have none (R80). -/
theorem decodeOp_ne_restart {op : HostOp} (hop : op ≠ .reset ∧ ∀ v, op ≠ .restore v) (c : Context) :
    decodeOp c op ≠ .reset ∧ ∀ v, decodeOp c op ≠ .restore v := by
  cases op with
  | mail w => simp [decodeOp, decodeMail_eq_iff, encode]
  | poll | pop | save => simp [decodeOp]
  | restore v => exact absurd rfl (hop.2 v)
  | reset => exact absurd rfl hop.1

theorem eq_params_of_isParams {i : Instr} (h : isParams i = true) : ∃ w, i = .params w := by
  unfold isParams at h
  split at h
  · exact ⟨_, rfl⟩
  · cases h

theorem not_running_params_of_hashSpent {s : State} (hs : HashSpent s) (op : HostOp) :
    ¬ (s.fault = none ∧ isParams (decodeOp s.context op) = true) := by
  rintro ⟨hfault, hparams⟩
  obtain ⟨w, hi⟩ := eq_params_of_isParams hparams
  have hctx := hi ▸ decodeOp_inContext s.context op
  obtain ⟨hu, hp⟩ : s.upload = false ∧ s.pstate = .apa := by simpa [Instr.inContext, State.context] using hctx
  simp [HashSpent, hfault, hu, hp] at hs

/-- The protocol is one-way: without a reset or a restore `FAULT` and `UPLOAD` stay set, and `ANC` is not left (R122). -/
theorem hashSpent_next {op : HostOp} {s t : State} (hop : op ≠ .reset ∧ ∀ v, op ≠ .restore v) (hs : HashSpent s)
    (h : exec (decodeOp s.context op) s = .next t) : HashSpent t := by
  obtain ⟨-, -, hpstate, hupload, -, -, -, -, -, hfault⟩ := writtenBy_exec _ s t h
  have hctx := decodeOp_inContext s.context op
  obtain ⟨hreset, hrestore⟩ := decodeOp_ne_restart hop s.context
  obtain hf | hu | hp := hs
  · have hkept : t.fault = s.fault := by_contra fun hne => hf (hfault hne)
    exact .inl (hkept ▸ hf)
  · have hkept : t.upload = s.upload := by
      by_contra hne
      obtain hi | ⟨v, hi⟩ | hi := hupload hne
      · rw [hi] at hctx
        simp [Instr.inContext, State.context, hu] at hctx
      · exact hrestore v hi
      · exact hreset hi
    exact .inr (.inl (hkept.trans hu))
  · have hkept : t.pstate = s.pstate := by
      by_contra hne
      obtain hi | ⟨w, hi⟩ | ⟨v, hi⟩ | hi := hpstate hne
      · rw [hi] at hctx
        simp [Instr.inContext, State.context, hp] at hctx
      · rw [hi] at hctx
        simp [Instr.inContext, State.context, hp] at hctx
      · exact hrestore v hi
      · exact hreset hi
    exact .inr (.inr (hkept.trans hp))

theorem hashesRun_cons {op : HostOp} {s t : State} (h : exec (decodeOp s.context op) s = .next t) (rest : List HostOp) :
    hashesRun (op :: rest) s =
      (if s.fault = none ∧ isParams (decodeOp s.context op) = true then 1 else 0) + hashesRun rest t := by
  rw [hashesRun, h]

theorem hashesRun_of_hashSpent (ops : List HostOp) {s : State} (hops : ∀ op ∈ ops, op ≠ .reset ∧ ∀ v, op ≠ .restore v)
    (hs : HashSpent s) : hashesRun ops s = 0 := by
  induction ops generalizing s with
  | nil => rfl
  | cons op rest ih =>
    obtain ⟨hop, hrest⟩ := List.forall_mem_cons.mp hops
    obtain ⟨t, ht⟩ := answers_exec (decodeOp s.context op) s
    rw [hashesRun_cons ht, if_neg (not_running_params_of_hashSpent hs op), ih hrest (hashSpent_next hop hs ht)]

/-- Settles O39, by induction on the operations: after the first `PARAMS` a running block takes, `HashSpent` holds to the end. -/
theorem atMostOneHash : Obligations.AtMostOneHash := by
  intro ops
  induction ops with
  | nil => exact fun _ _ => Nat.zero_le 1
  | cons op rest ih =>
    intro s hops
    obtain ⟨-, hrest⟩ := List.forall_mem_cons.mp hops
    obtain ⟨t, ht⟩ := answers_exec (decodeOp s.context op) s
    rw [hashesRun_cons ht]
    split
    · next hrun =>
      have hspent : HashSpent t := by
        obtain ⟨hfault, hparams⟩ := hrun
        obtain ⟨w, hi⟩ := eq_params_of_isParams hparams
        exact hashSpent_of_params hfault (hi ▸ ht)
      rw [hashesRun_of_hashSpent rest hrest hspent]
    · rw [Nat.zero_add]
      exact ih t hrest

/-! ## The mail instructions (R110 to R120) -/

/-- Settles O38, row by row of R110: the row's context and word decode to its instruction, which has the row's effect. -/
theorem handleMailTransitions : Obligations.HandleMailTransitions := by
  intro w s hs i
  refine ⟨fun hu => ?_, fun hu hp hw => ?_, fun hu hp hw => ?_, fun hu hp => ?_, fun hu hp hw => ?_, fun hu hp hw => ?_,
    fun hu hp hn hr => ?_⟩
  · have hi : i = .forward w := (decodeMail_eq_forward_iff _ _ _).2 ⟨hu, rfl⟩
    exact hi ▸ exec_forward_arch hs w
  · have hi : i = .unlock := (decodeMail_eq_unlock_iff _ _).2 ⟨hu, hp, hw⟩
    exact hi ▸ exec_unlock_arch hs
  · have hi : i = .ignAur w := (decodeMail_eq_ignAur_iff _ _ _).2 ⟨hu, hp, hw, rfl⟩
    exact hi ▸ exec_ignAur_arch hs w
  · exact (decodeMail_eq_params_iff _ _ _).2 ⟨hu, hp, rfl⟩
  · have hi : i = .newuc := (decodeMail_eq_newuc_iff _ _).2 ⟨hu, hp, hw⟩
    exact hi ▸ exec_newuc_arch hs
  · have hi : i = .resetuc := (decodeMail_eq_resetuc_iff _ _).2 ⟨hu, hp, hw⟩
    exact hi ▸ exec_resetuc_arch hs
  · have hi : i = .ignAnc w := (decodeMail_eq_ignAnc_iff _ _ _).2 ⟨hu, hp, hn, hr, rfl⟩
    exact hi ▸ exec_ignAnc_arch hs w

/-- Settles O1: the row's words, and its one event. -/
theorem forwardEmitsTheWord : Obligations.ForwardEmitsTheWord :=
  ⟨decodeMail_eq_forward_iff, fun w _ hs => exec_forward_arch hs w⟩

/-- Settles O2: the row's one word, and its one write. -/
theorem unlockAcceptsTheRequest : Obligations.UnlockAcceptsTheRequest :=
  ⟨decodeMail_eq_unlock_iff, fun _ hs => exec_unlock_arch hs⟩

/-- Settles O3: the words of both rows, and the warning of each. -/
theorem ignoredWordsOnlyWarn : Obligations.IgnoredWordsOnlyWarn :=
  ⟨decodeMail_eq_ignAur_iff, decodeMail_eq_ignAnc_iff, fun w _ hs => ⟨exec_ignAur_arch hs w, exec_ignAnc_arch hs w⟩⟩

/-- Settles O4: the row's one word and its one write, after which every word is in the row of `FORWARD`. -/
theorem newucBeginsAnUpload : Obligations.NewucBeginsAnUpload := by
  refine ⟨decodeMail_eq_newuc_iff, fun s hs => ?_⟩
  obtain ⟨t, ht, harch⟩ := exec_newuc_arch hs
  have hupload : t.upload = true := congrArg State.upload harch
  exact ⟨t, ht, harch, fun w => (decodeMail_eq_forward_iff _ _ _).2 ⟨hupload, rfl⟩⟩

/-- Settles O5: the row's one word, and its one event. -/
theorem resetucEmitsOneSwitch : Obligations.ResetucEmitsOneSwitch :=
  ⟨decodeMail_eq_resetuc_iff, fun _ hs => exec_resetuc_arch hs⟩

end Sys2Proof.Machine
end

section
/-! The parameter decoder (spec/41_parameters.md): the request record as sixteen consecutive guest bytes, and what `read_parameters`
latches and reads (R140, R141). -/

namespace Sys2Proof.Machine

/-- The fields of a record whose sixteen bytes, in address order, are `b 0` to `b 15` (R89). -/
def recordOfBytes (b : Nat → Byte) : RequestParams :=
  ⟨b 0 ++ b 1 ++ b 2 ++ b 3, b 4 ++ b 5, b 6 ++ b 7, b 8 ++ b 9 ++ b 10 ++ b 11, b 12 ++ b 13 ++ b 14 ++ b 15⟩

/-- Byte `k` of an access at offset `j` of a record is byte `j + k` of the record, mod 2^32 (R51). -/
theorem guestAddr_add_ofNat (a : Word) (j k : Nat) : guestAddr (a + BitVec.ofNat 32 j) k = guestAddr a (j + k) := by
  rw [guestAddr, guestAddr, BitVec.add_assoc, ← BitVec.ofNat_add]

theorem guestHalf_add_ofNat (m : Memory) (a : Word) (j : Nat) :
    guestHalf m (a + BitVec.ofNat 32 j) = m.read (guestAddr a j) ++ m.read (guestAddr a (j + 1)) := by
  simp only [guestHalf, be16, guestAddr_add_ofNat, Nat.add_zero]

theorem guestWord_add_ofNat (m : Memory) (a : Word) (j : Nat) :
    guestWord m (a + BitVec.ofNat 32 j) = m.read (guestAddr a j) ++ m.read (guestAddr a (j + 1)) ++
      m.read (guestAddr a (j + 2)) ++ m.read (guestAddr a (j + 3)) := by
  simp only [guestWord, be32, guestAddr_add_ofNat, Nat.add_zero]

/-- R89's field offsets leave no gap: the fields are the sixteen bytes from the record's address on, in order and mod 2^32. -/
theorem recordAt_eq_recordOfBytes (m : Memory) (a : Word) :
    recordAt m a = recordOfBytes fun k => m.read ((a.toNat + k) % 2 ^ 32) := by
  simp only [recordAt, recordOfBytes, sourceOffset, reservedOffset, sizeOffset, workOffset, outputOffset,
    guestWord_add_ofNat, guestHalf_add_ofNat, guestAddr_eq_mod]

/-- A running block answers `read_parameters` with the state after the five reads, and returns the record it latched. -/
theorem exec_readParameters_running {a : Word} {s : State} (hs : s.fault = none) :
    exec (.readParameters a) s = .next { readRecord a s with result := .record (readRecord a s).req } := by
  rw [exec_readParameters, operation_running hs, finish_ok]

/-- The five reads of R140, newest first: the source field, at the record's own address, is read first. -/
theorem readRecord_trace_eq (a : Word) (s : State) :
    (readRecord a s).trace = [.guestRead (a + 12#32) 4, .guestRead (a + 8#32) 4, .guestRead (a + 6#32) 2,
      .guestRead (a + 4#32) 2, .guestRead a 4] ++ s.trace := by
  have hsource : a + sourceOffset = a := BitVec.add_zero a
  rw [readRecord_trace, hsource]
  rfl

theorem readRecord_arch (a : Word) (s : State) :
    (readRecord a s).arch = ({ s with req := recordAt s.guest a } : State).arch := rfl

/-- Settles O16: the state after the reads, with the record it latches written byte by byte. -/
theorem readParametersLatchesTheRecord : Obligations.ReadParametersLatchesTheRecord := by
  intro a s hs b p
  have hp : recordAt s.guest a = p := recordAt_eq_recordOfBytes s.guest a
  rw [← hp]
  exact ⟨_, exec_readParameters_running hs, readRecord_arch a s, rfl, readRecord_trace_eq a s⟩

end Sys2Proof.Machine
end

section
/-! The accelerator (spec/42_accelerator.md): its set operations (R151 to R153), what a data operation that its checks admit leaves, and
which fault one that they refuse raises (R154 to R161). -/

namespace Sys2Proof.Machine

/-! ## The set operations (R151 to R153) -/

theorem setBounds_ok {a e : Word} (h : a.toNat ≤ e.toNat) (s : State) :
    setBounds a e s = .ok () { s with acc := ⟨s.acc.mode, some a, some e, s.acc.cur⟩ } :=
  if_neg (Nat.not_lt.mpr h)

theorem setBounds_bad {a e : Word} (h : e.toNat < a.toNat) (s : State) :
    setBounds a e s = .raised { s with fault := some (.accBadBounds a e) } :=
  if_pos h

/-- Settles O24: each body's one update, and the fault of a window that ends before it starts. -/
theorem acceleratorSetOperations : Obligations.AcceleratorSetOperations := fun s hs =>
  ⟨fun m => command_ok_arch hs (body := setGranularity m) rfl, fun _ _ h => command_ok_arch hs (setBounds_ok h s),
    fun _ _ h => ⟨_, command_raised hs (setBounds_bad h s), rfl⟩, fun c => command_ok_arch hs (body := setCursor c) rfl⟩

/-! ## What a data operation does as an instruction -/

section
variable {α : Type} {s t : State} (hs : s.fault = none) {body : State → Eff α} (f : α → OpResult)
include hs

/-- A read that completes returns its value. -/
theorem operation_bind_ok {v : α} (hb : body s = .ok v t) :
    operation (fun s => (body s).bind fun v s => .ok (f v) s) s = .next { t with result := f v } := by
  rw [operation_running hs, hb, Eff.bind_ok, finish_ok]

/-- A read that raises returns no value (R160). -/
theorem operation_bind_raised (hb : body s = .raised t) :
    operation (fun s => (body s).bind fun v s => .ok (f v) s) s = .next { t with result := .noValue } := by
  rw [operation_running hs, hb, Eff.bind_raised, finish_raised]

end

/-- The instruction raises the fault, returns nothing and does nothing else. -/
def FaultsWith (f : BlockFault) (i : Instr) (s : State) : Prop :=
  exec i s = .next { s with fault := some f, result := .noValue }

theorem FaultsWith.arch {f : BlockFault} {i : Instr} {s : State} (h : FaultsWith f i s) :
    ∃ t, exec i s = .next t ∧ t.arch = ({ s with fault := some f } : State).arch := ⟨_, h, rfl⟩

theorem FaultsWith.reported {f : BlockFault} {i : Instr} {s : State} (h : FaultsWith f i s) :
    ∃ t, exec i s = .next t ∧ t.fault = some f := ⟨_, h, rfl⟩

theorem FaultsWith.fault_ne_none {f : BlockFault} {i : Instr} {s t : State} (h : FaultsWith f i s) (ht : exec i s = .next t) :
    t.fault ≠ none := by
  cases h.symm.trans ht
  exact Option.some_ne_none f

/-- The state after a running block's admitted access at unit `c` of the window `[a, e]`, which leaves the working buffer `w` (R160): the
cursor is on the next unit, or, after the access at the window's end, back at the start with the fault raised and no value returned. -/
def State.afterAccess (s : State) (m : AccMode) (a e c : Word) (w : Memory) (entry : TraceEntry) (r : OpResult) : State :=
  { s with
    wbuf := w
    acc := ⟨some m, some a, some e, some (if c = e then a else c + 1#32)⟩
    fault := if c = e then some (.accEndOfRange e) else none
    result := if c = e then .noValue else r
    trace := entry :: s.trace }

theorem afterAccess_end (s : State) (m : AccMode) (a c : Word) (w : Memory) (entry : TraceEntry) (r : OpResult) :
    s.afterAccess m a c c w entry r = { s with
      wbuf := w
      acc := ⟨some m, some a, some c, some a⟩
      fault := some (.accEndOfRange c)
      result := .noValue
      trace := entry :: s.trace } := by simp [State.afterAccess]

theorem afterAccess_inside {s : State} (hs : s.fault = none) {c e : Word} (h : c ≠ e) (m : AccMode) (a : Word) (w : Memory)
    (entry : TraceEntry) (r : OpResult) :
    s.afterAccess m a e c w entry r = { s with
      wbuf := w
      acc := ⟨some m, some a, some e, some (c + 1#32)⟩
      result := r
      trace := entry :: s.trace } := by simp [State.afterAccess, h, hs]

/-- The cursor after an admitted access is R160's modular one. -/
theorem nextUnit_eq_mod {a e c : Word} (hl : a.toNat ≤ c.toNat) (hu : c.toNat ≤ e.toNat) :
    (if c = e then a else c + 1#32) = BitVec.ofNat 32 (a.toNat + (c.toNat - a.toNat + 1) % (e.toNat - a.toNat + 1)) := by
  split
  · next hce => rw [hce, Nat.mod_self, Nat.add_zero, BitVec.ofNat_toNat, BitVec.setWidth_eq]
  · next hce =>
    have hlt : c.toNat < e.toNat := BitVec.lt_of_le_ne hu hce
    rw [Nat.mod_eq_of_lt (by omega), ← Nat.add_assoc, Nat.add_sub_cancel' hl, BitVec.ofNat_add, BitVec.ofNat_toNat, BitVec.setWidth_eq]

/-! ## The bytes of a unit (R150, R156) -/

/-- A memory with the two bytes of word unit `c` written, the high one first. -/
def Memory.storeUnit (m : Memory) (c : Word) (v : Half) : Memory :=
  (m.write (2 * c.toNat) (highByte v)).write (2 * c.toNat + 1) (lowByte v)

theorem Memory.read_storeUnit (m : Memory) (c : Word) (v : Half) (i : Nat) :
    (m.storeUnit c v).read i = if i = 2 * c.toNat then highByte v
      else if i = 2 * c.toNat + 1 then lowByte v else m.read i := by
  rw [Memory.storeUnit, Memory.read_write, Memory.read_write]
  split <;> split
  · omega
  all_goals rfl

theorem Memory.read_storeUnit_high (m : Memory) (c : Word) (v : Half) : (m.storeUnit c v).read (2 * c.toNat) = highByte v := by
  rw [Memory.read_storeUnit, if_pos rfl]

theorem Memory.read_storeUnit_low (m : Memory) (c : Word) (v : Half) : (m.storeUnit c v).read (2 * c.toNat + 1) = lowByte v := by
  rw [Memory.read_storeUnit, if_neg (by omega), if_pos rfl]

/-- The high nibble is the one of a unit whose lowest address bit is clear. -/
theorem nibbleOf_eq_ite (c : Word) (b : Byte) :
    nibbleOf c b = if c.getLsbD 0 = false then b.extractLsb' 4 4 else b.extractLsb' 0 4 := by
  have hbit : c.getLsbD 0 = false ↔ c.toNat % 2 = 0 := by simp [BitVec.getLsbD]
  simp only [hbit]
  rfl

/-! ## The checks, in the order of R161 -/

/-- A fault of the prologue is the fault of each of the four data operations, before anything else (R158, R159). -/
theorem faultsWith_of_prologue {s : State} {f : BlockFault} {i : Instr} (v : Half) (n : Nibble) (hs : s.fault = none)
    (hf : accPrologue s = raise f s) (hi : i ∈ [Instr.accReadWord, .accReadNibble, .accWriteWord v, .accWriteNibble n]) :
    FaultsWith f i s := by
  simp only [List.mem_cons, List.not_mem_nil, or_false] at hi
  obtain rfl | rfl | rfl | rfl := hi
  · have hraised : readWord s = .raised { s with fault := some f } := by rw [readWord, hf]; rfl
    exact operation_bind_raised hs _ hraised
  · have hraised : readNibble s = .raised { s with fault := some f } := by rw [readNibble, hf]; rfl
    exact operation_bind_raised hs _ hraised
  · have hraised : writeWord v s = .raised { s with fault := some f } := by rw [writeWord, hf]; rfl
    exact command_raised hs hraised
  · have hraised : writeNibble n s = .raised { s with fault := some f } := by rw [writeNibble, hf]; rfl
    exact command_raised hs hraised

section
variable {s : State} {m : AccMode} {a e c : Word} (hacc : s.acc = ⟨some m, some a, some e, some c⟩) (hl : a.toNat ≤ c.toNat)
include hacc hl

/-- Past the buffer a word read raises at its first byte in access order (R154). -/
theorem readWord_range_high (hu : c.toNat ≤ e.toNat) (hw : s.cfg.wbufBytes ≤ 2 * c.toNat) :
    readWord s = .raised { s with fault := some (.wbufOutOfRange (2 * c.toNat)) } := by
  rw [readWord, accPrologue_ok hacc hl hu]
  simp [wordHighIndex, wbRead, hw]

/-- At a buffer that ends inside the unit it raises at the second byte. -/
theorem readWord_range_low (hu : c.toNat ≤ e.toNat) (hw : s.cfg.wbufBytes = 2 * c.toNat + 1) :
    readWord s = .raised { s with fault := some (.wbufOutOfRange (2 * c.toNat + 1)) } := by
  rw [readWord, accPrologue_ok hacc hl hu]
  simp [wordHighIndex, wordLowIndex, wbRead, hw]

/-- After the prologue a nibble write is refused (R157). -/
theorem writeNibble_refused (hu : c.toNat ≤ e.toNat) (n : Nibble) :
    writeNibble n s = .raised { s with fault := some .accUnsupported } := by
  rw [writeNibble, accPrologue_ok hacc hl hu]
  rfl

end

/-- A word read at the window's end: the access is made, the cursor wraps, then the fault (R154, R160). -/
theorem readWord_end {s : State} {m : AccMode} {a c : Word} (hacc : s.acc = ⟨some m, some a, some c, some c⟩)
    (hl : a.toNat ≤ c.toNat) (hw : 2 * c.toNat + 1 < s.cfg.wbufBytes) :
    readWord s = .raised { s with
      acc := ⟨some m, some a, some c, some a⟩
      trace := .wordRead c :: s.trace
      fault := some (.accEndOfRange c) } := by
  have hhigh : wbRead (wordHighIndex c) s = .ok (s.wbuf.read (2 * c.toNat)) s := wbRead_ok (Nat.lt_of_succ_lt hw)
  have hlow : wbRead (wordLowIndex c) s = .ok (s.wbuf.read (2 * c.toNat + 1)) s := wbRead_ok hw
  rw [readWord, accPrologue_ok hacc hl (Nat.le_refl _), Eff.bind_ok, hhigh, Eff.bind_ok, hlow, Eff.bind_ok, accAdvance_end rfl]
  simp [State.traced, hacc]

section
variable {s : State} (hs : s.fault = none)
include hs

theorem faultsWith_unconfigured {i : Instr} (v : Half) (n : Nibble)
    (h : s.acc.mode = none ∨ s.acc.start = none ∨ s.acc.stop = none ∨ s.acc.cur = none)
    (hi : i ∈ [Instr.accReadWord, .accReadNibble, .accWriteWord v, .accWriteNibble n]) : FaultsWith .accUnconfigured i s :=
  faultsWith_of_prologue v n hs (accPrologue_unconfigured h) hi

variable {m : AccMode} {a e c : Word} (hacc : s.acc = ⟨some m, some a, some e, some c⟩)
include hacc

theorem faultsWith_outside {i : Instr} (v : Half) (n : Nibble) (ho : c.toNat < a.toNat ∨ e.toNat < c.toNat)
    (hi : i ∈ [Instr.accReadWord, .accReadNibble, .accWriteWord v, .accWriteNibble n]) : FaultsWith (.accOutOfWindow c) i s :=
  faultsWith_of_prologue v n hs (accPrologue_outside hacc ho) hi

variable (hl : a.toNat ≤ c.toNat) (hu : c.toNat ≤ e.toNat)
include hl hu

theorem faultsWith_readWord_high (hw : s.cfg.wbufBytes ≤ 2 * c.toNat) :
    FaultsWith (.wbufOutOfRange (2 * c.toNat)) .accReadWord s :=
  operation_bind_raised hs _ (readWord_range_high hacc hl hu hw)

theorem faultsWith_readWord_low (hw : s.cfg.wbufBytes = 2 * c.toNat + 1) :
    FaultsWith (.wbufOutOfRange (2 * c.toNat + 1)) .accReadWord s :=
  operation_bind_raised hs _ (readWord_range_low hacc hl hu hw)

theorem faultsWith_readNibble_range (hw : s.cfg.wbufBytes ≤ c.toNat / 2) :
    FaultsWith (.wbufOutOfRange (c.toNat / 2)) .accReadNibble s :=
  operation_bind_raised hs _ (readNibble_range hacc hl hu hw)

theorem faultsWith_writeWord_range (v : Half) (hw : s.cfg.wbufBytes ≤ 2 * c.toNat + 1) :
    FaultsWith (.wbufOutOfRange (2 * c.toNat + 1)) (.accWriteWord v) s :=
  command_raised hs (writeWord_range hacc hl hu hw v)

theorem faultsWith_writeNibble (n : Nibble) : FaultsWith .accUnsupported (.accWriteNibble n) s :=
  command_raised hs (writeNibble_refused hacc hl hu n)

/-! ## The admitted accesses -/

theorem exec_accReadWord_admitted (hw : 2 * c.toNat + 1 < s.cfg.wbufBytes) :
    exec .accReadWord s = .next (s.afterAccess m a e c s.wbuf (.wordRead c)
      (.half (s.wbuf.read (2 * c.toNat) ++ s.wbuf.read (2 * c.toNat + 1)))) := by
  obtain rfl | hne := eq_or_ne c e
  · rw [afterAccess_end]
    exact operation_bind_raised hs _ (readWord_end hacc hl hw)
  · rw [afterAccess_inside hs hne]
    exact operation_bind_ok hs .half (readWord_ok hacc hl (BitVec.lt_of_le_ne hu hne) hw)

theorem exec_accReadNibble_admitted (hw : c.toNat / 2 < s.cfg.wbufBytes) :
    exec .accReadNibble s = 
      .next (s.afterAccess m a e c s.wbuf (.nibbleRead c) (.nibble (nibbleOf c (s.wbuf.read (c.toNat / 2))))) := by
  obtain rfl | hne := eq_or_ne c e
  · rw [afterAccess_end]
    exact operation_bind_raised hs _ (readNibble_end hacc hl hw)
  · rw [afterAccess_inside hs hne]
    exact operation_bind_ok hs .nibble (readNibble_ok hacc hl (BitVec.lt_of_le_ne hu hne) hw)

theorem exec_accWriteWord_admitted (v : Half) (hw : 2 * c.toNat + 1 < s.cfg.wbufBytes) :
    exec (.accWriteWord v) s = .next (s.afterAccess m a e c (s.wbuf.storeUnit c v) (.wordWrite c) .noValue) := by
  obtain rfl | hne := eq_or_ne c e
  · rw [afterAccess_end]
    exact command_raised hs (writeWord_end hacc hl hw v)
  · rw [afterAccess_inside hs hne]
    exact command_ok hs (writeWord_ok hacc hl (BitVec.lt_of_le_ne hu hne) hw v)

end

/-! ## The rule of each data operation (R154 to R157) -/

/-- Settles O25: the admitted read before and at the window's end, and each check that refuses one. -/
theorem wordReadRule : Obligations.WordReadRule := by
  intro s hs
  refine ⟨fun a e c hacc hl hu hw => ?_, fun h => (faultsWith_unconfigured hs 0 0 h (by simp)).arch,
    fun a e c hacc ho => (faultsWith_outside hs hacc 0 0 ho (by simp)).arch,
    fun a e c hacc hl hu => ⟨fun hw => (faultsWith_readWord_high hs hacc hl hu hw).arch,
      fun hw => (faultsWith_readWord_low hs hacc hl hu hw).arch⟩, fun a c hacc hl hw => ?_⟩
  · rw [exec_accReadWord_admitted hs hacc hl (Nat.le_of_lt hu) hw, afterAccess_inside hs (BitVec.toNat_ne_iff_ne.mp (Nat.ne_of_lt hu))]
    exact ⟨_, rfl, rfl, rfl⟩
  · rw [exec_accReadWord_admitted hs hacc hl (Nat.le_refl _) hw, afterAccess_end]
    exact ⟨_, rfl, rfl, rfl⟩

/-- Settles O26: the admitted read before and at the window's end, and each check that refuses one. -/
theorem nibbleReadRule : Obligations.NibbleReadRule := by
  intro s hs
  refine ⟨fun a e c hacc hl hu hw => ?_, fun h => (faultsWith_unconfigured hs 0 0 h (by simp)).arch,
    fun a e c hacc ho => (faultsWith_outside hs hacc 0 0 ho (by simp)).arch,
    fun a e c hacc hl hu hw => (faultsWith_readNibble_range hs hacc hl hu hw).arch, fun a c hacc hl hw => ?_⟩
  · rw [exec_accReadNibble_admitted hs hacc hl (Nat.le_of_lt hu) hw, nibbleOf_eq_ite,
      afterAccess_inside hs (BitVec.toNat_ne_iff_ne.mp (Nat.ne_of_lt hu))]
    exact ⟨_, rfl, rfl, rfl⟩
  · rw [exec_accReadNibble_admitted hs hacc hl (Nat.le_refl _) hw, afterAccess_end]
    exact ⟨_, rfl, rfl, rfl⟩

/-- Settles O27: the admitted write before and at the window's end, and each check that refuses one. -/
theorem wordWriteRule : Obligations.WordWriteRule := by
  intro s v hs
  refine ⟨fun a e c hacc hl hu hw => ?_, fun h => (faultsWith_unconfigured hs v 0 h (by simp)).arch,
    fun a e c hacc ho => (faultsWith_outside hs hacc v 0 ho (by simp)).arch,
    fun a e c hacc hl hu hw => (faultsWith_writeWord_range hs hacc hl hu v hw).arch, fun a c hacc hl hw => ?_⟩
  · rw [exec_accWriteWord_admitted hs hacc hl (Nat.le_of_lt hu) v hw, afterAccess_inside hs (BitVec.toNat_ne_iff_ne.mp (Nat.ne_of_lt hu))]
    exact ⟨_, rfl, rfl, Memory.read_storeUnit s.wbuf c v⟩
  · rw [exec_accWriteWord_admitted hs hacc hl (Nat.le_refl _) v hw, afterAccess_end]
    exact ⟨_, rfl, rfl, Memory.read_storeUnit s.wbuf c v⟩

/-- Settles O28: the prologue's two faults, and the refusal after it. -/
theorem nibbleWriteRule : Obligations.NibbleWriteRule := fun _ v hs =>
  ⟨fun _ _ _ hacc hl hu => (faultsWith_writeNibble hs hacc hl hu v).arch,
    fun h => (faultsWith_unconfigured hs 0 v h (by simp)).arch,
    fun _ _ _ hacc ho => (faultsWith_outside hs hacc 0 v ho (by simp)).arch⟩

/-! ## The advance and the order of the checks (R160, R161) -/

/-- Settles O29: each of the three admitted accesses leaves `State.afterAccess`, whose cursor is the modular one. -/
theorem advanceWrapsWithAFault : Obligations.AdvanceWrapsWithAFault := by
  intro s v m a e c hs hacc hl hu i hi
  rw [← nextUnit_eq_mod hl hu]
  obtain ⟨-, rfl | rfl, hw⟩ | ⟨-, rfl, hw⟩ := hi
  · exact ⟨_, exec_accReadWord_admitted hs hacc hl hu hw, rfl, rfl, fun h => if_pos h, nofun⟩
  · refine ⟨_, exec_accWriteWord_admitted hs hacc hl hu v hw, rfl, rfl, fun h => if_pos h, fun _ => ?_⟩
    exact ⟨Memory.read_storeUnit_high .., Memory.read_storeUnit_low ..⟩
  · exact ⟨_, exec_accReadNibble_admitted hs hacc hl hu hw, rfl, rfl, fun h => if_pos h, nofun⟩

theorem inside_of_not_outside {a e c : Word} (h : ¬ (c.toNat < a.toNat ∨ e.toNat < c.toNat)) :
    a.toNat ≤ c.toNat ∧ c.toNat ≤ e.toNat := by
  omega

section
variable {s : State} (hs : s.fault = none) {m : AccMode} {a e c : Word} (hacc : s.acc = ⟨some m, some a, some e, some c⟩)
include hs hacc

theorem accReadWord_reports : ∃ t, exec .accReadWord s = .next t ∧ t.fault =
    if c.toNat < a.toNat ∨ e.toNat < c.toNat then some (.accOutOfWindow c)
    else if s.cfg.wbufBytes ≤ 2 * c.toNat then some (.wbufOutOfRange (2 * c.toNat))
    else if s.cfg.wbufBytes ≤ 2 * c.toNat + 1 then some (.wbufOutOfRange (2 * c.toNat + 1))
    else if c = e then some (.accEndOfRange e) else none := by
  split
  · next hout => exact (faultsWith_outside hs hacc 0 0 hout (by simp)).reported
  · next hout =>
    obtain ⟨hl, hu⟩ := inside_of_not_outside hout
    split
    · next hhigh => exact (faultsWith_readWord_high hs hacc hl hu hhigh).reported
    · split
      · next hlow => exact (faultsWith_readWord_low hs hacc hl hu (by omega)).reported
      · next hlow => exact ⟨_, exec_accReadWord_admitted hs hacc hl hu (Nat.lt_of_not_le hlow), rfl⟩

theorem accWriteWord_reports (v : Half) : ∃ t, exec (.accWriteWord v) s = .next t ∧ t.fault =
    if c.toNat < a.toNat ∨ e.toNat < c.toNat then some (.accOutOfWindow c)
    else if s.cfg.wbufBytes ≤ 2 * c.toNat + 1 then some (.wbufOutOfRange (2 * c.toNat + 1))
    else if c = e then some (.accEndOfRange e) else none := by
  split
  · next hout => exact (faultsWith_outside hs hacc v 0 hout (by simp)).reported
  · next hout =>
    obtain ⟨hl, hu⟩ := inside_of_not_outside hout
    split
    · next hrange => exact (faultsWith_writeWord_range hs hacc hl hu v hrange).reported
    · next hrange => exact ⟨_, exec_accWriteWord_admitted hs hacc hl hu v (Nat.lt_of_not_le hrange), rfl⟩

theorem accReadNibble_reports : ∃ t, exec .accReadNibble s = .next t ∧ t.fault =
    if c.toNat < a.toNat ∨ e.toNat < c.toNat then some (.accOutOfWindow c)
    else if s.cfg.wbufBytes ≤ c.toNat / 2 then some (.wbufOutOfRange (c.toNat / 2))
    else if c = e then some (.accEndOfRange e) else none := by
  split
  · next hout => exact (faultsWith_outside hs hacc 0 0 hout (by simp)).reported
  · next hout =>
    obtain ⟨hl, hu⟩ := inside_of_not_outside hout
    split
    · next hrange => exact (faultsWith_readNibble_range hs hacc hl hu hrange).reported
    · next hrange => exact ⟨_, exec_accReadNibble_admitted hs hacc hl hu (Nat.lt_of_not_le hrange), rfl⟩

theorem accWriteNibble_reports (n : Nibble) : ∃ t, exec (.accWriteNibble n) s = .next t ∧ t.fault =
    if c.toNat < a.toNat ∨ e.toNat < c.toNat then some (.accOutOfWindow c) else some .accUnsupported := by
  split
  · next hout => exact (faultsWith_outside hs hacc 0 n hout (by simp)).reported
  · next hout =>
    obtain ⟨hl, hu⟩ := inside_of_not_outside hout
    exact (faultsWith_writeNibble hs hacc hl hu n).reported

end

/-- Settles O30: each operation's checks, one after another. -/
theorem firstFailingCheckIsReported : Obligations.FirstFailingCheckIsReported := fun _ v n hs =>
  ⟨fun h _ hi => (faultsWith_unconfigured hs v n h hi).reported,
    fun _ _ _ hacc => ⟨accReadWord_reports hs hacc, accWriteWord_reports hs hacc v⟩,
    fun _ _ _ hacc => ⟨accReadNibble_reports hs hacc, accWriteNibble_reports hs hacc n⟩⟩

end Sys2Proof.Machine
end

section
/-! Word writes followed by nibble reads (spec/42_accelerator.md R162): runs of instructions that raise no fault, what the writes of such a
run leave in the working buffer, and what its reads return. -/

namespace Sys2Proof.Machine

/-! ## Runs that raise no fault -/

/-- No instruction clears `FAULT`. -/
theorem fault_none_of_exec {i : Instr} {s t : State} (h : exec i s = .next t) (ht : t.fault = none) : s.fault = none := by
  obtain ⟨-, -, -, -, -, -, -, -, -, hfault⟩ := writtenBy_exec i s t h
  by_contra hs
  exact hs (hfault fun heq => hs (heq ▸ ht))

/-- The instructions, run from `s`, return `rs` and end in `t`, and none of them raises a fault or is refused. -/
def CleanRun (l : List Instr) (s : State) (rs : List OpResult) (t : State) : Prop :=
  runAll l s = some (rs, t) ∧ t.fault = none

theorem CleanRun.nil {s t : State} {rs : List OpResult} (h : CleanRun [] s rs t) : rs = [] ∧ t = s := by
  obtain ⟨hrun, -⟩ := h
  cases hrun
  exact ⟨rfl, rfl⟩

theorem runAll_cons {i : Instr} {s u : State} (h : exec i s = .next u) (rest : List Instr) :
    runAll (i :: rest) s = (runAll rest u).map fun r => (u.result :: r.1, r.2) := by
  rw [runAll, h]

theorem CleanRun.cons {i : Instr} {rest : List Instr} {s t : State} {rs : List OpResult} (h : CleanRun (i :: rest) s rs t) :
    ∃ u rs', exec i s = .next u ∧ CleanRun rest u rs' t ∧ rs = u.result :: rs' := by
  obtain ⟨hrun, ht⟩ := h
  obtain ⟨u, hu⟩ := answers_exec i s
  rw [runAll_cons hu] at hrun
  obtain ⟨⟨rs', t'⟩, hrest, heq⟩ := Option.map_eq_some_iff.mp hrun
  cases heq
  exact ⟨u, rs', hu, ⟨hrest, ht⟩, rfl⟩

theorem CleanRun.fault_none {l : List Instr} {s t : State} {rs : List OpResult} (h : CleanRun l s rs t) : s.fault = none := by
  induction l generalizing s rs with
  | nil => exact h.nil.2 ▸ h.2
  | cons i rest ih =>
    obtain ⟨u, rs', hu, hrest, -⟩ := h.cons
    exact fault_none_of_exec hu (ih hrest)

theorem CleanRun.append {l l' : List Instr} {s t : State} {rs : List OpResult} (h : CleanRun (l ++ l') s rs t) :
    ∃ u rs₁ rs₂, CleanRun l s rs₁ u ∧ CleanRun l' u rs₂ t ∧ rs = rs₁ ++ rs₂ := by
  induction l generalizing s rs with
  | nil => exact ⟨s, [], rs, ⟨rfl, h.fault_none⟩, h, rfl⟩
  | cons i l ih =>
    obtain ⟨u, rs', hu, hrest, rfl⟩ := h.cons
    obtain ⟨v, rs₁, rs₂, h₁, h₂, rfl⟩ := ih hrest
    refine ⟨v, u.result :: rs₁, rs₂, ⟨?_, h₁.2⟩, h₂, rfl⟩
    rw [runAll_cons hu, h₁.1]
    rfl

theorem CleanRun.length {l : List Instr} {s t : State} {rs : List OpResult} (h : CleanRun l s rs t) : rs.length = l.length := by
  induction l generalizing s rs with
  | nil => exact congrArg List.length h.nil.1
  | cons i rest ih =>
    obtain ⟨u, rs', -, hrest, rfl⟩ := h.cons
    rw [List.length_cons, ih hrest, List.length_cons]

/-! ## The steps of such a run -/

section
variable {s t : State} {m : AccMode} {a e c : Word} (hacc : s.acc = ⟨some m, some a, some e, some c⟩) (ht : t.fault = none)
include hacc ht

/-- A word write that raises no fault passed every check (R161) and is the admitted one before the window's end. -/
theorem accWriteWord_clean {v : Half} (h : exec (.accWriteWord v) s = .next t) :
    c.toNat < e.toNat ∧ 2 * c.toNat + 1 < s.cfg.wbufBytes ∧ t.acc = ⟨some m, some a, some e, some (c + 1#32)⟩ ∧
      t.cfg = s.cfg ∧ t.wbuf = s.wbuf.storeUnit c v := by
  have hs := fault_none_of_exec h ht
  obtain ⟨u, hu, hfault⟩ := accWriteWord_reports hs hacc v
  cases hu.symm.trans h
  rw [ht] at hfault
  split_ifs at hfault with hout hrange hend
  obtain ⟨hl, hle⟩ := inside_of_not_outside hout
  have hw := Nat.lt_of_not_le hrange
  rw [exec_accWriteWord_admitted hs hacc hl hle v hw, afterAccess_inside hs hend] at h
  cases h
  exact ⟨BitVec.lt_of_le_ne hle hend, hw, rfl, rfl, rfl⟩

/-- The same of a nibble read. -/
theorem accReadNibble_clean (h : exec .accReadNibble s = .next t) :
    c.toNat < e.toNat ∧ t.acc = ⟨some m, some a, some e, some (c + 1#32)⟩ ∧ t.wbuf = s.wbuf ∧
      t.result = .nibble (nibbleOf c (s.wbuf.read (c.toNat / 2))) := by
  have hs := fault_none_of_exec h ht
  obtain ⟨u, hu, hfault⟩ := accReadNibble_reports hs hacc
  cases hu.symm.trans h
  rw [ht] at hfault
  split_ifs at hfault with hout hrange hend
  obtain ⟨hl, hle⟩ := inside_of_not_outside hout
  rw [exec_accReadNibble_admitted hs hacc hl hle (Nat.lt_of_not_le hrange), afterAccess_inside hs hend] at h
  cases h
  exact ⟨BitVec.lt_of_le_ne hle hend, rfl, rfl, rfl⟩

end

theorem toNat_succ_of_lt {c e : Word} (h : c.toNat < e.toNat) : (c + 1#32).toNat = c.toNat + 1 :=
  BitVec.toNat_add_of_lt (Nat.lt_of_le_of_lt h e.isLt)

/-! ## The word writes -/

/-- The bytes of a word in the order in which a word write stores them (R156). -/
def wordBytes (v : Half) : List Byte := [highByte v, lowByte v]

/-- Word writes from unit `c` that raise no fault leave the words' bytes from byte `2c` on, and every byte before it. -/
theorem cleanRun_writes {a e : Word} (vs : List Half) {s t : State} {c : Word} {rs : List OpResult}
    (hacc : s.acc = ⟨some .word, some a, some e, some c⟩) (h : CleanRun (vs.map .accWriteWord) s rs t) :
    (∀ i < 2 * c.toNat, t.wbuf.read i = s.wbuf.read i) ∧
      bytesFrom t.wbuf (2 * c.toNat) (2 * vs.length) = vs.flatMap wordBytes := by
  induction vs generalizing s c rs with
  | nil =>
    obtain ⟨-, rfl⟩ := h.nil
    exact ⟨fun _ _ => rfl, rfl⟩
  | cons v vs ih =>
    obtain ⟨u, rs', hu, hrest, -⟩ := h.cons
    obtain ⟨hend, -, hacc', -, hwbuf⟩ := accWriteWord_clean hacc hrest.fault_none hu
    obtain ⟨hbefore, hbytes⟩ := ih hacc' hrest
    rw [toNat_succ_of_lt hend] at hbefore hbytes
    have hhigh : t.wbuf.read (2 * c.toNat) = highByte v := by
      rw [hbefore _ (by omega), hwbuf, Memory.read_storeUnit_high]
    have hlow : t.wbuf.read (2 * c.toNat + 1) = lowByte v := by
      rw [hbefore _ (by omega), hwbuf, Memory.read_storeUnit_low]
    refine ⟨fun i hi => ?_, ?_⟩
    · rw [hbefore i (by omega), hwbuf, Memory.read_storeUnit, if_neg (by omega), if_neg (by omega)]
    · rw [List.length_cons, Nat.mul_succ, bytesFrom_succ, bytesFrom_succ, hhigh, hlow, List.flatMap_cons, ← hbytes]
      rfl

/-! ## The configuration between the writes and the reads -/

/-- Nibble mode, bounds and cursor set without a fault are what the accelerator then holds, over the working buffer as before. -/
theorem cleanRun_configure {first last cursor : Word} {s t : State} {rs : List OpResult}
    (h : CleanRun [.accSetGranularity .nibble, .accSetBounds first last, .accSetCursor cursor] s rs t) :
    t.acc = ⟨some .nibble, some first, some last, some cursor⟩ ∧ t.wbuf = s.wbuf := by
  have hs := h.fault_none
  obtain ⟨u, rs₁, hu, h₁, -⟩ := h.cons
  obtain ⟨v, rs₂, hv, h₂, -⟩ := h₁.cons
  obtain ⟨w, rs₃, hw, h₃, -⟩ := h₂.cons
  obtain ⟨-, rfl⟩ := h₃.nil
  rw [exec_accSetGranularity, command_ok (body := setGranularity .nibble) hs rfl] at hu
  cases hu
  rw [exec_accSetBounds] at hv
  obtain hbad | hle := Nat.lt_or_ge last.toNat first.toNat
  · rw [command_raised h₁.fault_none (setBounds_bad hbad _)] at hv
    cases hv
    exact absurd h₂.fault_none (Option.some_ne_none _)
  · rw [command_ok h₁.fault_none (setBounds_ok hle _)] at hv
    cases hv
    rw [exec_accSetCursor, command_ok (body := setCursor cursor) h₂.fault_none rfl] at hw
    cases hw
    exact ⟨rfl, rfl⟩

/-! ## The nibble reads -/

/-- The nibbles of a byte in the order in which nibble reads return them (R155). -/
def byteNibbles (b : Byte) : List Nibble := [highNibble b, lowNibble b]

/-- Nibble reads from an even unit that raise no fault return the nibbles of the bytes from that unit's on. -/
theorem cleanRun_reads {a e : Word} (k : Nat) {s t : State} {c : Word} {b : Nat} {rs : List OpResult}
    (hacc : s.acc = ⟨some .nibble, some a, some e, some c⟩) (hb : c.toNat = 2 * b)
    (h : CleanRun (List.replicate (2 * k) .accReadNibble) s rs t) :
    rs = ((bytesFrom s.wbuf b k).flatMap byteNibbles).map .nibble := by
  induction k generalizing s c b rs with
  | zero => exact h.nil.1
  | succ k ih =>
    rw [Nat.mul_succ, List.replicate_succ, List.replicate_succ] at h
    obtain ⟨u, rs₁, hu, h₁, rfl⟩ := h.cons
    obtain ⟨v, rs₂, hv, h₂, rfl⟩ := h₁.cons
    obtain ⟨hlt, hacc₁, hwbuf₁, hresult₁⟩ := accReadNibble_clean hacc h₁.fault_none hu
    obtain ⟨hlt', hacc₂, hwbuf₂, hresult₂⟩ := accReadNibble_clean hacc₁ h₂.fault_none hv
    have hodd : (c + 1#32).toNat = 2 * b + 1 := hb ▸ toNat_succ_of_lt hlt
    have heven : (c + 1#32 + 1#32).toNat = 2 * (b + 1) := (toNat_succ_of_lt hlt').trans (by rw [hodd, Nat.mul_succ])
    have hhigh : u.result = .nibble (highNibble (s.wbuf.read b)) := by
      rw [hresult₁, nibbleOf_even (by omega), hb, Nat.mul_div_cancel_left b (by decide)]
    have hlow : v.result = .nibble (lowNibble (s.wbuf.read b)) := by
      rw [hresult₂, nibbleOf_odd (by omega), hwbuf₁, hodd, show (2 * b + 1) / 2 = b by omega]
    rw [ih hacc₂ heven h₂, hwbuf₂, hwbuf₁, hhigh, hlow, bytesFrom_succ]
    rfl

/-- A word's nibbles are those of its two bytes, the high byte first. -/
theorem flatMap_byteNibbles_wordBytes (v : Half) : (wordBytes v).flatMap byteNibbles = nibblesOf v := by
  have hpart (j i : Nat) (hi : i + 4 ≤ 8) : (v.extractLsb' j 8).extractLsb' i 4 = v.extractLsb' (j + i) 4 :=
    BitVec.eq_of_getLsbD_eq fun k hk => by simp [show i + k < 8 by omega, Nat.add_assoc]
  simp only [wordBytes, List.flatMap_cons, List.flatMap_nil, byteNibbles, highNibble, lowNibble, highByte, lowByte,
    hpart _ 4 (by decide), hpart _ 0 (by decide)]
  rfl

/-- Settles O31: the writes leave the words' bytes from byte `2c` on, which is the byte of nibble unit `4c`: the writes were inside the
buffer, so `4c` does not wrap. -/
theorem nibbleReadsReturnTheWordsWritten : Obligations.NibbleReadsReturnTheWordsWritten := by
  intro s t vs a e c first last rs _ hcfg hacc hrun ht
  have hclean : CleanRun _ s rs t := ⟨hrun, ht⟩
  obtain ⟨v, rs₁₂, rs₃, h₁₂, hreads, rfl⟩ := hclean.append
  have hlength : rs₁₂.length = vs.length + 3 := by simp [h₁₂.length]
  rw [List.drop_left' hlength]
  cases vs with
  | nil => exact hreads.nil.1
  | cons w ws =>
    obtain ⟨u, _, _, hwrites, hconfigure, -⟩ := h₁₂.append
    have hinside : 2 * c.toNat + 1 < s.cfg.wbufBytes := by
      obtain ⟨_, _, hfirst, hrest, -⟩ := CleanRun.cons hwrites
      obtain ⟨-, hw, -⟩ := accWriteWord_clean hacc hrest.fault_none hfirst
      exact hw
    have hcursor : (4#32 * c).toNat = 2 * (2 * c.toNat) := by
      obtain ⟨-, hbytes⟩ := hcfg
      rw [BitVec.toNat_mul, BitVec.toNat_ofNat]
      omega
    obtain ⟨-, hbytes⟩ := cleanRun_writes (w :: ws) hacc hwrites
    obtain ⟨hacc', hwbuf⟩ := cleanRun_configure hconfigure
    have hfour : 4 * (w :: ws).length = 2 * (2 * (w :: ws).length) := by omega
    rw [hfour] at hreads
    rw [cleanRun_reads _ hacc' hcursor hreads, hwbuf, hbytes, List.flatMap_assoc]
    simp only [flatMap_byteNibbles_wordBytes]

end Sys2Proof.Machine
end

section
/-! The hash engine (spec/43_hash_engine.md): the combining step in closed form (R190 to R193), what `compute_hash` leaves or where it
stops (R180, R199), how many accesses it makes (R198), its one-byte and empty inputs (R195, R196), and what its result depends on
(R200, R201). -/

namespace Sys2Proof.Machine

/-! ## The combining step (R190 to R193) -/

/-- R191's sign nibble: all ones where bit 7 of the first mixing value is set. -/
def signNibble (new2 : Nibble) : Nibble := if new2.getLsbD 3 then 0xF#4 else 0x0#4

/-- Bit 7 of the first mixing value is the top bit of the new low nibble. -/
theorem mixed_bit7_iff (new2 prev2 : Nibble) :
    (new2.setWidth 16 <<< 4 ||| prev2.setWidth 16) &&& 0x0080#16 ≠ 0#16 ↔ new2.getLsbD 3 := by
  revert new2 prev2
  decide

/-- Four nibbles, the highest first, as the or of their shifts. -/
theorem nibbles_append_eq_or (a b c d : Nibble) : (a ++ b ++ c ++ d : Half) =
    a.setWidth 16 <<< 12 ||| b.setWidth 16 <<< 8 ||| c.setWidth 16 <<< 4 ||| d.setWidth 16 :=
  (BitVec.setWidth_eq _).symm.trans BitVec.setWidth_append_append_append_eq_shiftLeft_setWidth_or

/-- R191: the sign copy sets the two upper nibbles to the sign nibble, into which the other two nibbles are then xored. -/
theorem mixed_eq_append (prev1 prev2 new1 new2 : Nibble) :
    mixed prev1 prev2 new1 new2 = (new1 ^^^ signNibble new2) ++ (prev1 ^^^ signNibble new2) ++ new2 ++ prev2 := by
  rw [nibbles_append_eq_or]
  simp only [mixed, mixed_bit7_iff, signNibble]
  apply BitVec.eq_of_getLsbD_eq
  intro i hi
  split
  · interval_cases i <;> simp
  · interval_cases i <;> simp

/-- R192: the two shifts of the rotation have no bit in common, so they may be added. -/
theorem rotr32_eq_add (x : Word) (r : Nat) :
    rotr32 x r = if r % 32 = 0 then x else (x >>> (r % 32)) + (x <<< (32 - r % 32)) := by
  have hr : r % 32 < 32 := Nat.mod_lt r (by decide)
  unfold rotr32
  generalize r % 32 = k at hr
  split
  · next h0 => simp [h0]
  · have hdisjoint : x >>> k &&& x <<< (32 - k) = 0#32 := by
      ext i hi
      have hpast : ¬ i < 32 - k → x.getLsbD (k + i) = false := fun h => BitVec.getLsbD_of_ge x _ (by omega)
      by_cases hlow : i < 32 - k <;> simp [hlow, hpast]
    exact (BitVec.add_eq_or_of_and_eq_zero _ _ hdisjoint).symm

/-- R192: a rotation amount is taken mod 32, which divides the 2^16 that the sum of the two registers wraps at. -/
theorem rotate_amount_eq (r k : Half) : (r.toNat + k.toNat) % 32 = (r + k).toNat % 32 := by
  rw [BitVec.toNat_add]
  omega

/-- Settles O23: the model's step with the mixing value and the rotation rewritten to R191's and R192's forms. -/
theorem combineMixesFourNibbles : Obligations.CombineMixesFourNibbles := by
  intro prev1 prev2 new1 new2 s hs e mixed' a combined steps rotate rotated b c d
  have hmixed : mixed prev1 prev2 new1 new2 = mixed' := mixed_eq_append prev1 prev2 new1 new2
  have hrotated : rotr32 combined ((s.he.rotBase.toNat + steps.toNat) % 32) = rotated := by
    rw [rotate_amount_eq, rotr32_eq_add, Nat.mod_mod]
  have hregs : combineRegs s.he prev1 prev2 new1 new2 = ⟨a, b, c, d, s.he.rotBase, steps⟩ := by
    simp only [combineRegs, hmixed]
    rw [hrotated]
  rw [exec_combine, ← hregs]
  exact ⟨_, command_ok hs rfl, rfl⟩

/-! ## What `compute_hash` leaves or where it stops (R180, R199) -/

theorem exec_computeHash_completes {s : State} (hs : s.fault = none) (hf : hashFaultFree s.cfg s.req) :
    ∃ t, exec .computeHash s = .next t ∧ HashLeaves s s.req t ∧ t.outq = s.outq ∧ t.pstate = s.pstate ∧
      t.trace = .guestWrite s.req.outputAddress t.he.accB :: hashTrace s.req ++ s.trace := by
  obtain ⟨t, ht, hleaves, houtq, hpstate, htrace⟩ := hashRequest_ok hs hf
  exact ⟨_, command_ok hs ht, hleaves.with_result _, houtq, hpstate, htrace⟩

theorem exec_computeHash_stops {s : State} (hs : s.fault = none) (hf : ¬ hashFaultFree s.cfg s.req) :
    ∃ t, exec .computeHash s = .next t ∧ HashStops s s.req s.trace t := by
  obtain ⟨t, ht, hstops⟩ := hashRequest_raises hf
  exact ⟨_, command_raised hs ht, hstops.with_result _⟩

/-- Settles O18, by whether R199 admits the record. -/
theorem computeHashIsTheChecksum : Obligations.ComputeHashIsTheChecksum := by
  refine ⟨fun s hs hf => ?_, fun s => exec_computeHash_stops⟩
  obtain ⟨t, ht, hleaves, houtq, hpstate, -⟩ := exec_computeHash_completes hs hf
  exact ⟨t, ht, hleaves, houtq, hpstate⟩

/-- Settles O52: a hash that completes has no fault, and one that stops has the fault of its first offending access. -/
theorem hashIsFaultFreeExactlyUnderTheConditions : Obligations.HashIsFaultFreeExactlyUnderTheConditions := by
  intro s hs
  by_cases hf : hashFaultFree s.cfg s.req
  · obtain ⟨t, ht, hleaves, -⟩ := exec_computeHash_completes hs hf
    exact ⟨t, ht, iff_of_true hleaves.fault hf, fun h => absurd hf h⟩
  · obtain ⟨t, ht, hstops⟩ := exec_computeHash_stops hs hf
    exact ⟨t, ht, iff_of_false (by simp [hstops.fault]) hf, fun _ => hstops.fault⟩

/-! ## The number of accesses and combining steps (R198)

`q` picks entries by their kind alone: `w` and `r` say whether it picks the word writes and the nibble reads. -/

section
variable {q : TraceEntry → Bool} {w r : Bool}

theorem countP_loadTrace (hw : ∀ u, q (.wordWrite u) = w) (u : Word) (k : Nat) :
    (loadTrace u k).countP q = k * w.toNat := by
  induction k with
  | zero => simp [loadTrace]
  | succ k ih => cases w <;> simp [loadTrace, ih, hw]

theorem countP_stepTrace (hr : ∀ u, q (.nibbleRead u) = r) (u : Word) (k : Nat) :
    (stepTrace u k).countP q = k * (q .combined).toNat + 2 * k * r.toNat := by
  induction k with
  | zero => simp [stepTrace]
  | succ k ih => cases r <;> cases hc : q .combined <;> simp [stepTrace, ih, hr, hc] <;> omega

/-- The result write is not picked; the nibble reads are a pair for each combining step and the first pair. -/
theorem countP_hash {e : TraceEntry} (he : q e = false) (hw : ∀ u, q (.wordWrite u) = w) (hr : ∀ u, q (.nibbleRead u) = r)
    (p : RequestParams) :
    (e :: hashTrace p).countP q = (p.inputSize.toNat + 1) / 2 * w.toNat +
      2 * (combiningSteps p.inputSize.toNat + 1) * r.toNat + combiningSteps p.inputSize.toNat * (q .combined).toNat +
      (copyTrace p).countP q := by
  simp only [hashTrace, List.countP_append, List.countP_cons, countP_stepTrace hr, countP_loadTrace hw, he, hr]
  cases r <;> simp <;> omega

end

theorem copyTrace_of_size_zero {p : RequestParams} (h : p.inputSize = 0#16) : copyTrace p = [] := by
  simp [copyTrace, h]

theorem countP_copyTrace {q : TraceEntry → Bool} (hq : ∀ a n, q (.guestBulkRead a n) = false) (p : RequestParams) :
    (copyTrace p).countP q = 0 := by
  unfold copyTrace
  split <;> simp [hq]

theorem one_le_toNat {n : Half} (h : n ≠ 0#16) : 1 ≤ n.toNat := by
  rw [Nat.one_le_iff_ne_zero]
  simpa [BitVec.toNat_eq] using h

theorem combiningSteps_toNat (n : Half) : combiningSteps n.toNat = if n = 0#16 then 131071 else n.toNat - 1 := by
  simp [combiningSteps, BitVec.toNat_eq]

theorem combineBytes_stepCounter (r : HashRegs) (b : Byte) (l : List Byte) :
    (combineBytes r b l).stepCounter = r.stepCounter + BitVec.ofNat 16 l.length := by
  induction l generalizing r b with
  | nil => simp [combineBytes]
  | cons c l ih =>
    rw [combineBytes, ih, List.length_cons, Nat.add_comm, BitVec.ofNat_add, ← BitVec.add_assoc]
    rfl

theorem checksum_stepCounter (x : Word) (l : List Byte) :
    (checksum x l).stepCounter = BitVec.ofNat 16 (l.length - 1) := by
  cases l with
  | nil => rfl
  | cons b l => exact (combineBytes_stepCounter _ b l).trans (BitVec.zero_add _)

/-- A hash mixes one byte more than it makes combining steps. -/
theorem mixedBytes_length (guest wbuf : Memory) (p : RequestParams) :
    (mixedBytes guest wbuf p).length = combiningSteps p.inputSize.toNat + 1 := by
  unfold mixedBytes combiningSteps
  split
  · simp
  · rw [guestBytes_length]
    omega

/-- The 16-bit step counter after a hash: it wraps once for size 0. -/
theorem hashRegsOf_stepCounter (guest wbuf : Memory) (p : RequestParams) :
    (hashRegsOf guest wbuf p).stepCounter = if p.inputSize = 0#16 then 0xFFFF#16 else p.inputSize - 1#16 := by
  rw [hashRegsOf, checksum_stepCounter, mixedBytes_length, Nat.add_sub_cancel, combiningSteps_toNat]
  split
  · rfl
  · next h =>
    have hpos := one_le_toNat h
    apply BitVec.eq_of_toNat_eq
    simp
    omega

/-- Settles O19: the counts of the hash's trace, to which the result write adds none of the three kinds, and the counter's wrap. -/
theorem hashCounts : Obligations.HashCounts := by
  intro s hs hf
  obtain ⟨t, ht, hleaves, -, -, htrace⟩ := exec_computeHash_completes hs hf
  refine ⟨t, _, ht, htrace, ?_, ?_, ?_, ?_⟩
  · rw [countP_hash (w := true) (r := false) rfl (fun _ => rfl) (fun _ => rfl), countP_copyTrace fun _ _ => rfl]
    simp [TraceEntry.isWordWrite]
  · rw [countP_hash (w := false) (r := true) rfl (fun _ => rfl) (fun _ => rfl), countP_copyTrace fun _ _ => rfl,
      combiningSteps_toNat]
    simp [TraceEntry.isNibbleRead]
    split
    · rfl
    · next h => have := one_le_toNat h; omega
  · rw [countP_hash (w := false) (r := false) rfl (fun _ => rfl) (fun _ => rfl), countP_copyTrace fun _ _ => rfl,
      combiningSteps_toNat]
    simp [TraceEntry.isCombined]
  · rw [hleaves.registers, hashRegsOf_stepCounter]

/-! ## One byte and none (R195, R196) -/

theorem hashRegsOf_of_size_one (guest wbuf : Memory) {p : RequestParams} (h : p.inputSize = 1#16) :
    hashRegsOf guest wbuf p = initRegs ((guest.read p.sourceAddress.toNat).setWidth 32) := by
  have haddr : guestAddr p.sourceAddress 0 = p.sourceAddress.toNat := congrArg BitVec.toNat (BitVec.add_zero _)
  have hbytes : guestBytes guest p.sourceAddress 1 = [guest.read p.sourceAddress.toNat] := by simp [guestBytes, haddr]
  simp [hashRegsOf, mixedBytes, h, hbytes, checksum, combineBytes, sumBytes]

theorem hashRegsOf_of_size_zero (guest wbuf : Memory) {p : RequestParams} (h : p.inputSize = 0#16) :
    hashRegsOf guest wbuf p =
      checksum 0#32 ((List.range 131072).map fun k => wbuf.read (firstHashedByte p.workAddress + k)) := by
  simp only [hashRegsOf, mixedBytes, h]
  rfl

theorem loadedByte_of_size_zero (guest wbuf : Memory) {p : RequestParams} (h : p.inputSize = 0#16) (i : Nat) :
    loadedByte guest wbuf p i = wbuf.read i := by
  rw [loadedByte, h, if_neg (by simp)]

/-- R184 for the sum of one byte. -/
theorem initRegs_byte (x : Byte) : initRegs (x.setWidth 32) =
    ⟨x.setWidth 32 + 0x170A7489#32, 0x05EFE0AA#32, 0xDAF4B157#32, 0x6BBEC3B6#32, x.setWidth 16 + 8#16, 0#16⟩ := by
  have hbase : (8#32 + x.setWidth 32).setWidth 16 = x.setWidth 16 + 8#16 := by
    rw [BitVec.setWidth_add _ _ (by decide), BitVec.add_comm, BitVec.setWidth_setWidth_of_le _ (by decide)]
    rfl
  rw [initRegs, hbase, BitVec.add_comm]
  rfl

theorem HashLeaves.guestWord_output {s t : State} {p : RequestParams} (h : HashLeaves s p t) :
    guestWord t.guest p.outputAddress = (hashRegsOf s.guest s.wbuf p).accB := by
  rw [h.output, guestWord_storeWord]

/-- Settles O20: the registers of R184 for the one byte's sum, whose `acc_b` is the constant stored. -/
theorem oneByteHashLeavesTheSeeds : Obligations.OneByteHashLeavesTheSeeds := by
  intro s hs hsize hf x
  obtain ⟨t, ht, hleaves, -⟩ := exec_computeHash_completes hs hf
  have hregs : hashRegsOf s.guest s.wbuf s.req = initRegs (x.setWidth 32) := hashRegsOf_of_size_one _ _ hsize
  refine ⟨t, ht, ?_, ?_⟩
  · rw [hleaves.registers, hregs, initRegs_byte]
  · rw [hleaves.guestWord_output, hregs, initRegs_byte]

/-- Settles O21: without a load there is no read of the guest and no write of the buffer, whose bytes R196 hashes. -/
theorem zeroLengthHashReadsOldBytes : Obligations.ZeroLengthHashReadsOldBytes := by
  intro s hs hsize hf
  obtain ⟨t, ht, hleaves, -, -, htrace⟩ := exec_computeHash_completes hs hf
  refine ⟨t, _, ht, htrace, ?_, fun i => ?_, ?_⟩
  · rw [countP_hash (w := false) (r := false) rfl (fun _ => rfl) (fun _ => rfl), copyTrace_of_size_zero hsize]
    simp [TraceEntry.isGuestRead]
  · rw [hleaves.buffer, loadedByte_of_size_zero _ _ hsize]
  · rw [hleaves.registers, hashRegsOf_of_size_zero _ _ hsize]
    rfl

/-! ## What the result depends on (R200, R201) -/

theorem guestBytes_congr {m₁ m₂ : Memory} {a₁ a₂ : Word} {n : Nat}
    (h : ∀ k < n, m₁.read (guestAddr a₁ k) = m₂.read (guestAddr a₂ k)) : guestBytes m₁ a₁ n = guestBytes m₂ a₂ n :=
  List.map_congr_left fun k hk => h k (List.mem_range.1 hk)

/-- The registers are those of the input bytes, and for size 0 of the old buffer bytes. -/
theorem hashRegsOf_congr {g₁ g₂ b₁ b₂ : Memory} {p₁ p₂ : RequestParams} (hsize : p₁.inputSize = p₂.inputSize)
    (hinput : ∀ k < p₁.inputSize.toNat, g₁.read (guestAddr p₁.sourceAddress k) = g₂.read (guestAddr p₂.sourceAddress k))
    (hold : p₁.inputSize = 0#16 → ∀ k < 131072,
      b₁.read (firstHashedByte p₁.workAddress + k) = b₂.read (firstHashedByte p₂.workAddress + k)) :
    hashRegsOf g₁ b₁ p₁ = hashRegsOf g₂ b₂ p₂ := by
  by_cases h0 : p₁.inputSize = 0#16
  · rw [hashRegsOf_of_size_zero _ _ h0, hashRegsOf_of_size_zero _ _ (hsize ▸ h0)]
    exact congrArg _ (List.map_congr_left fun k hk => hold h0 k (List.mem_range.1 hk))
  · have hn : p₂.inputSize.toNat ≠ 0 := Nat.one_le_iff_ne_zero.1 (one_le_toNat (hsize ▸ h0))
    have hbytes := guestBytes_congr hinput
    rw [hsize] at hbytes
    simp only [hashRegsOf, mixedBytes, hsize, if_neg hn, hbytes]

/-- Settles O22: both results are `acc_b` of the same registers. -/
theorem resultDependsOnlyOnTheInput : Obligations.ResultDependsOnlyOnTheInput := by
  intro s₁ s₂ hs₁ hs₂ hf₁ hf₂ hsize hinput hold
  obtain ⟨t₁, ht₁, hleaves₁, -⟩ := exec_computeHash_completes hs₁ hf₁
  obtain ⟨t₂, ht₂, hleaves₂, -⟩ := exec_computeHash_completes hs₂ hf₂
  refine ⟨t₁, t₂, ht₁, ht₂, ?_⟩
  rw [hleaves₁.guestWord_output, hleaves₂.guestWord_output, hashRegsOf_congr hsize hinput hold]

end Sys2Proof.Machine
end

section
/-! The host port (spec/44_persistence_and_host.md): which values a `RESTORE` admits and what it loads (R88, R222), the value a `SAVE`
returns (R221), their round trip (R223), and the poll and the pop of `OUTQ` (R224, R225). -/

namespace Sys2Proof.Machine

/-! ## The snapshot value as a number (R88) -/

theorem snapCode_toNat (v : Word) : (v.extractLsb' 0 2).toNat = v.toNat % 4 := by
  rw [BitVec.extractLsb'_toNat, Nat.shiftRight_zero]

theorem snapReserved_toNat (v : Word) : (v.extractLsb' 3 29).toNat = v.toNat / 8 := by
  have hv : v.toNat < 2 ^ 32 := v.isLt
  rw [BitVec.extractLsb'_toNat, Nat.shiftRight_eq_div_pow]
  omega

/-- A value no save produces has a reserved bit set, or the reserved protocol code. -/
theorem snapBad_iff (v : Word) : snapBad v = true ↔ 8 ≤ v.toNat ∨ v.toNat % 4 = 3 := by
  have hreserved : v.extractLsb' 3 29 ≠ 0#29 ↔ 8 ≤ v.toNat := by
    rw [Ne, ← BitVec.toNat_inj, snapReserved_toNat, BitVec.toNat_ofNat]
    omega
  have hcode : v.extractLsb' 0 2 = 3#2 ↔ v.toNat % 4 = 3 := by
    rw [← BitVec.toNat_inj, snapCode_toNat]
    rfl
  rw [snapBad, Bool.or_eq_true, bne_iff_ne, beq_iff_eq, hreserved, hcode]

theorem snapPState_eq (v : Word) :
    snapPState v = if v.toNat % 4 = 0 then .aur else if v.toNat % 4 = 1 then .apa else .anc := by
  simp only [snapPState, ← BitVec.toNat_inj, snapCode_toNat, BitVec.toNat_ofNat, Nat.reducePow, Nat.reduceMod]

/-- Below 8 the upload bit is the top one. -/
theorem snapUpload_eq {v : Word} (hv : v.toNat < 8) : snapUpload v = decide (4 ≤ v.toNat) := by
  have hbit : v.toNat / 2 ^ 2 % 2 = 1 ↔ 4 ≤ v.toNat := by omega
  rw [snapUpload, ← BitVec.testBit_toNat, Nat.testBit_eq_decide_div_mod_eq, decide_eq_decide.2 hbit]

theorem snapValue_eq (p : PState) (upload : Bool) : snapValue p upload = BitVec.ofNat 32 (4 * upload.toNat +
    match p with
    | .aur => 0
    | .apa => 1
    | .anc => 2) := by
  cases p <;> cases upload <;> rfl

/-- What a restore reads back from a saved value: it is admitted, and both fields are those saved (R223). -/
theorem snapValue_restored (p : PState) (upload : Bool) :
    snapBad (snapValue p upload) = false ∧ snapPState (snapValue p upload) = p ∧ snapUpload (snapValue p upload) = upload := by
  cases p <;> cases upload <;> decide

/-! ## The port operations -/

section
variable {s : State} (hs : s.fault = none)
include hs

theorem exec_restore_admitted {v : Word} (hv : snapBad v = false) : ∃ t, exec (.restore v) s = .next t ∧
    t.arch = ({ s with pstate := snapPState v, upload := snapUpload v } : State).arch := by
  rw [exec_restore]
  exact command_ok_arch hs (by rw [hv]; rfl)

theorem exec_restore_bad {v : Word} (hv : snapBad v = true) : ∃ t, exec (.restore v) s = .next t ∧
    t.arch = ({ s with fault := some (.snapBadValue v) } : State).arch := by
  rw [exec_restore]
  exact ⟨_, command_raised hs (if_pos hv), rfl⟩

theorem exec_save_running : exec .save s = .next { s with result := .word s.snap } := by
  rw [exec_save, operation_running hs, finish_ok]

end

theorem exec_pop_nil {s : State} (hq : s.outq = []) : exec .pop s = .next { s with result := .empty } := by
  rw [exec_pop, execPop, hq]

theorem exec_pop_cons {s : State} {w : Word} {rest : List Word} (hq : s.outq = w :: rest) :
    exec .pop s = .next { s with outq := rest, result := .word w } := by
  rw [exec_pop, execPop, hq]

theorem irqPending_iff (s : State) : s.irqPending = true ↔ s.outq ≠ [] := by
  rw [State.irqPending, Bool.not_eq_true', List.isEmpty_eq_false_iff]

/-! ## The obligations -/

/-- Settles O12: the two clauses are `snapBad_iff`, and the fields loaded are the numbers in the value. -/
theorem restoreLoadsTheSnapshot : Obligations.RestoreLoadsTheSnapshot := by
  refine fun v s hs => ⟨fun hlt hcode => ?_, fun hbad => exec_restore_bad hs ((snapBad_iff v).2 hbad)⟩
  have hadmitted : snapBad v = false := by
    rw [Bool.eq_false_iff, Ne, snapBad_iff]
    omega
  rw [← snapPState_eq, ← snapUpload_eq hlt]
  exact exec_restore_admitted hs hadmitted

/-- Settles O13: the value `SAVE` returns is admitted, and `RESTORE` reads both fields back from it. -/
theorem saveRestoreRoundTrip : Obligations.SaveRestoreRoundTrip := by
  intro s u hs hu
  obtain ⟨hadmitted, hpstate, hupload⟩ := snapValue_restored s.pstate s.upload
  obtain ⟨r, hr, harch⟩ := exec_restore_admitted hu hadmitted
  rw [hpstate, hupload] at harch
  exact ⟨_, s.snap, r, exec_save_running hs, rfl, hr, harch⟩

/-- Settles O11: the snapshot view is the value, and only the returned value is written. -/
theorem saveReturnsTheSnapshot : Obligations.SaveReturnsTheSnapshot := fun s hs =>
  ⟨_, exec_save_running hs, rfl, congrArg OpResult.word (snapValue_eq s.pstate s.upload)⟩

/-- Settles O9, by cases on whether a word is pending. -/
theorem pollSignalsPendingMail : Obligations.PollSignalsPendingMail := by
  intro s hs
  rw [exec_poll]
  by_cases hq : s.outq = []
  · have hirq : ¬ s.irqPending = true := fun h => (irqPending_iff s).1 h hq
    exact command_ok_arch hs (by rw [if_neg hirq, if_pos hq])
  · exact command_ok_arch hs (by rw [if_pos ((irqPending_iff s).2 hq), if_neg hq, emit])

/-- Settles O10: `POP` does not read `FAULT`, so the two forms of `OUTQ` are all its cases. -/
theorem popTakesTheHead : Obligations.PopTakesTheHead := fun _ =>
  ⟨fun hq => ⟨_, exec_pop_nil hq, rfl, rfl⟩, fun _ _ hq => ⟨_, exec_pop_cons hq, rfl, rfl⟩⟩

end Sys2Proof.Machine
end

section
/-! Faults and events (spec/60_exceptions.md): a faulted block is stopped for good (R246), and each event comes from the operation
that the spec gives it to (R249, spec/40_protocol.md R112, R114, R119, R120). -/

namespace Sys2Proof.Machine

/-! ## A faulted block is stopped (R246) -/

/-- In every state with `FAULT` set it answers that it refuses, and writes nothing but that answer. -/
def RefusesWhenStopped (m : State → Host.Outcome State Fault Refusal) : Prop :=
  ∀ s : State, s.fault ≠ none → m s = .next { s with result := .refused }

theorem refusesWhenStopped_operation (body : State → Eff OpResult) : RefusesWhenStopped (operation body) :=
  fun _ hs => operation_stopped hs body

theorem refusesWhenStopped_command (body : State → Eff Unit) : RefusesWhenStopped (command body) :=
  fun _ hs => command_stopped hs body

/-- Each instruction but `POP` is a command or an operation. -/
theorem refusesWhenStopped_exec {i : Instr} (hi : i ≠ .pop) : RefusesWhenStopped (exec i) := by
  cases i with
  | pop => exact absurd rfl hi
  | save | readParameters | accReadWord | accReadNibble => exact refusesWhenStopped_operation _
  | forward | unlock | ignAur | params | newuc | resetuc | ignAnc | poll | restore | reset | runRequest | computeHash | combine
  | accSetGranularity | accSetBounds | accSetCursor | accWriteWord | accWriteNibble => exact refusesWhenStopped_command _

section
variable {s : State} (hs : s.fault ≠ none)
include hs

theorem fault_kept_of_exec {i : Instr} {t : State} (h : exec i s = .next t) : t.fault = s.fault := by
  obtain ⟨-, -, -, -, -, -, -, -, -, hfault⟩ := writtenBy_exec i s t h
  exact by_contra fun hne => hs (hfault hne)

theorem endsWell_stopped : s.endsWell = false :=
  Option.isNone_eq_false_iff.2 (Option.isSome_iff_ne_none.2 hs)

end

/-- `POP` takes the head of `OUTQ`, where there is one, in every state, stopped or not. -/
theorem exec_pop_arch (s : State) : ∃ t, exec .pop s = .next t ∧ t.arch = ({ s with outq := s.outq.tail } : State).arch := by
  cases hq : s.outq with
  | nil => exact ⟨_, exec_pop_nil hq, by rw [List.tail_nil, ← hq]; rfl⟩
  | cons w rest => exact ⟨_, exec_pop_cons hq, rfl⟩

theorem deliverAll_cons {op : HostOp} {s t : State} (h : exec (decodeOp s.context op) s = .next t) (rest : List HostOp) :
    deliverAll (op :: rest) s = deliverAll rest t := by
  rw [deliverAll, h]

theorem fault_kept_of_deliverAll (ops : List HostOp) {s : State} (hs : s.fault ≠ none) :
    (deliverAll ops s).fault = s.fault := by
  induction ops generalizing s with
  | nil => rfl
  | cons op rest ih =>
    obtain ⟨t, ht⟩ := answers_exec (decodeOp s.context op) s
    have hkept : t.fault = s.fault := fault_kept_of_exec hs ht
    rw [deliverAll_cons ht, ih (hkept ▸ hs), hkept]

/-- Settles O40: the refusal of every instruction but `POP`, `POP`'s one effect, and by induction on the host operations, none of
which writes a `FAULT` that is set. That a refused operation answers a next state is notes/assumptions/12.md; that the sub-operations are
refused too, 14.md. -/
theorem faultedBlockIsStopped : Obligations.FaultedBlockIsStopped := fun s hs =>
  ⟨fun _ hi => ⟨_, refusesWhenStopped_exec hi s hs, rfl⟩, exec_pop_arch s, endsWell_stopped hs,
    fun ops => fault_kept_of_deliverAll ops hs⟩

/-! ## The source of each event (R249, R112, R114, R119, R120) -/

/-- Instruction `i` in state `s` may emit event `e`. -/
def Emits (i : Instr) (s : State) (e : Event) : Prop :=
  (e = .hostIrq ∧ i = .poll ∧ s.outq ≠ []) ∨ (∃ w, e = .forward w ∧ i = .forward w) ∨
    (∃ w, e = .warn w ∧ (i = .ignAur w ∨ i = .ignAnc w)) ∨ (e = .switch s.cfg.defaultModuleId ∧ i = .resetuc)

/-- From `s` to `t` no event is appended, or one that `i` may emit. -/
def EventsFrom (i : Instr) (s t : State) : Prop :=
  t.events = s.events ∨ ∃ e, t.events = s.events ++ [e] ∧ Emits i s e

theorem EventsFrom.of_emit {i : Instr} {s : State} {e : Event} (h : Emits i s e) : EventsFrom i s (emit e s) := .inr ⟨e, rfl, h⟩

theorem Keeps.eventsFrom {s t : State} (h : Keeps s t) (i : Instr) : EventsFrom i s t := .inl h.untouched.events

theorem eventsFrom_operation {i : Instr} {body : State → Eff OpResult} (hb : ∀ s, EventsFrom i s (body s).state) :
    NextRelated (EventsFrom i) (operation body) :=
  nextRelated_operation (fun _ => .inl rfl) (fun _ _ _ h => h) fun s _ => hb s

theorem eventsFrom_command {i : Instr} {body : State → Eff Unit} (hb : ∀ s, EventsFrom i s (body s).state) :
    NextRelated (EventsFrom i) (command body) :=
  nextRelated_command (fun _ => .inl rfl) (fun _ _ _ h => h) fun s _ => hb s

/-- The read of the record and the hash emit nothing. -/
theorem events_runRequest (a : Word) (s : State) : (runRequest a s).state.events = s.events :=
  (untouched_hashRequest (readRecord a s)).events

theorem eventsFrom_exec (i : Instr) : NextRelated (EventsFrom i) (exec i) := by
  cases i with
  | forward w => exact eventsFrom_command fun _ => .of_emit (.inr (.inl ⟨w, rfl, rfl⟩))
  | ignAur w => exact eventsFrom_command fun _ => .of_emit (.inr (.inr (.inl ⟨w, rfl, .inl rfl⟩)))
  | ignAnc w => exact eventsFrom_command fun _ => .of_emit (.inr (.inr (.inl ⟨w, rfl, .inr rfl⟩)))
  | resetuc => exact eventsFrom_command fun _ => .of_emit (.inr (.inr (.inr ⟨rfl, rfl⟩)))
  | poll =>
    refine eventsFrom_command fun s => ?_
    by_cases hirq : s.irqPending = true
    · rw [if_pos hirq]
      exact .of_emit (.inl ⟨rfl, rfl, (irqPending_iff s).1 hirq⟩)
    · rw [if_neg hirq]
      exact .inl rfl
  | unlock | newuc | reset | combine | accSetGranularity | accSetCursor => exact eventsFrom_command fun _ => .inl rfl
  | save | readParameters => exact eventsFrom_operation fun _ => .inl rfl
  | pop =>
    intro s t h
    obtain ⟨u, hu, harch⟩ := exec_pop_arch s
    cases hu.symm.trans h
    exact .inl (congrArg State.events harch :)
  | restore v => exact eventsFrom_command fun _ => by split <;> exact .inl rfl
  | params w =>
    exact eventsFrom_command fun s => .inl (Eff.bind_state (P := fun u => u.events = s.events)
      (events_runRequest (recordAddress s.cfg w) s) fun _ _ h => h)
  | runRequest a => exact eventsFrom_command fun s => .inl (events_runRequest a s)
  | computeHash => exact eventsFrom_command fun s => .inl (untouched_hashRequest s).events
  | accSetBounds a e => exact eventsFrom_command fun s => (keeps_setBounds a e s).eventsFrom _
  | accReadWord => exact eventsFrom_operation fun s => Eff.bind_state ((keeps_readWord s).eventsFrom _) fun _ _ h => h
  | accReadNibble => exact eventsFrom_operation fun s => Eff.bind_state ((keeps_readNibble s).eventsFrom _) fun _ _ h => h
  | accWriteWord v => exact eventsFrom_command fun s => (keeps_writeWord v s).eventsFrom _
  | accWriteNibble v => exact eventsFrom_command fun s => (keeps_writeNibble v s).eventsFrom _

/-- Settles O43, by cases on the instruction: the four kinds of `Emits`, the hash, which emits nothing, and what every accelerator
operation keeps. -/
theorem eventsComeFromTheirInstruction : Obligations.EventsComeFromTheirInstruction := eventsFrom_exec

end Sys2Proof.Machine
end

section
/-! RESET and the hazards (spec/70_reset_and_hazards.md): the state a `RESET` leaves (R270, R271), the units a mode change leaves alone
(R277), and that no step of the host's reads what R272 leaves unspecified or an accelerator register of an earlier hash (R164). -/

namespace Sys2Proof.Machine

/-! ## RESET (R270, R271) -/

theorem exec_reset_running {s : State} (hs : s.fault = none) :
    exec .reset s = .next { restart s with result := .noValue } := by
  rw [exec_reset, command_runs hs]
  rfl

/-- Settles O14: the four writes of `restart`. -/
theorem resetWritesFourItems : Obligations.ResetWritesFourItems := fun _ hs =>
  ⟨_, exec_reset_running hs, rfl⟩

theorem snapValue_reset : snapValue .aur false = 0#32 := by decide

/-- Settles O15: construction leaves a running block with nothing in `OUTQ`, and `restart` does the rest. The hash registers, the
transients and `P` of `State.reset` are those of construction (notes/assumptions/5.md to 7.md). -/
theorem firstResetState : Obligations.FirstResetState :=
  ⟨fun c wbufInit guestMem => ⟨_, exec_reset_running (s := State.constructed c wbufInit guestMem) rfl,
    rfl, rfl, rfl, rfl, rfl, rfl, rfl, rfl, snapValue_reset, rfl, rfl⟩,
    exec_reset_running (s := State.constructed Config.construction [] []) rfl⟩

/-! ## A mode change rescales nothing (R277) -/

theorem exec_accSetGranularity_running {s : State} (hs : s.fault = none) (m : AccMode) :
    exec (.accSetGranularity m) s = .next { s with acc := { s.acc with mode := some m }, result := .noValue } :=
  command_ok hs (body := setGranularity m) rfl

/-- Settles O32: the mode is all that `set_granularity` writes, so the nibble read meets the cursor as the word operations left it. -/
theorem modeChangeKeepsTheUnits : Obligations.ModeChangeKeepsTheUnits := by
  intro s a e c hs hacc hl hu hw
  have hnibble : ({ s.acc with mode := some .nibble } : AccRegs) = ⟨some .nibble, some a, some e, some c⟩ := by rw [hacc]
  have hset := exec_accSetGranularity_running hs .nibble
  rw [hnibble] at hset
  exact ⟨_, _, hset, operation_bind_ok (s := { s with acc := ⟨some .nibble, some a, some e, some c⟩, result := .noValue }) hs .nibble
    (readNibble_ok rfl hl hu hw), rfl⟩

/-! ## Two ends of one part of an operation -/

/-- What R272 leaves unspecified, and the accelerator's registers, are all in which the two states may differ. -/
def SameVisible (s u : State) : Prop := s.visible = u.visible

/-- Two runs of one part end alike: both complete with one value, in states related by `R`, or both raise, in states that show the same. -/
inductive Eff.Agree {α : Type} (R : State → State → Prop) : Eff α → Eff α → Prop
  | ok {v : α} {s u : State} (h : R s u) : Agree R (.ok v s) (.ok v u)
  | raised {s u : State} (h : SameVisible s u) : Agree R (.raised s) (.raised u)

theorem Eff.Agree.bind {α β : Type} {R Q : State → State → Prop} {e e' : Eff α} {k k' : α → State → Eff β} (he : e.Agree R e')
    (hk : ∀ v s u, R s u → (k v s).Agree Q (k' v u)) : (e.bind k).Agree Q (e'.bind k') := by
  cases he with
  | ok h => exact hk _ _ _ h
  | raised h => exact .raised h

theorem Eff.Agree.state {α : Type} {e e' : Eff α} (h : e.Agree SameVisible e') : SameVisible e.state e'.state := by
  cases h with
  | ok h => exact h
  | raised h => exact h

/-! ## The load (R183): it reads neither the hash registers nor the transients but `byte_sum` -/

/-- The two states differ at most in the hash registers and in the transients other than `byte_sum`. -/
def SameForLoad (s u : State) : Prop :=
  ∃ (r : HashRegs) (t : Transients), u = { s with he := r, tr := { t with byteSum := s.tr.byteSum } }

section
variable {s u : State} (h : SameForLoad s u)
include h

theorem SameForLoad.agree_accPrologue : (accPrologue s).Agree SameForLoad (accPrologue u) := by
  obtain ⟨r, t, rfl⟩ := h
  unfold accPrologue
  dsimp only
  split
  · split
    · exact .raised rfl
    · exact .ok ⟨r, t, rfl⟩
  · exact .raised rfl

theorem SameForLoad.agree_wbWrite (i : Nat) (b : Byte) : (wbWrite i b s).Agree SameForLoad (wbWrite i b u) := by
  obtain ⟨r, t, rfl⟩ := h
  unfold wbWrite
  dsimp only
  split
  · exact .raised rfl
  · exact .ok ⟨r, t, rfl⟩

theorem SameForLoad.agree_accAdvance (w : AccWindow) : (accAdvance w s).Agree SameForLoad (accAdvance w u) := by
  obtain ⟨r, t, rfl⟩ := h
  unfold accAdvance
  split
  · exact .raised rfl
  · exact .ok ⟨r, t, rfl⟩

theorem SameForLoad.traced (e : TraceEntry) : SameForLoad (s.traced e) (u.traced e) := by
  obtain ⟨r, t, rfl⟩ := h
  exact ⟨r, t, rfl⟩

theorem SameForLoad.addByteSum (v : Word) : SameForLoad (addByteSum v s) (addByteSum v u) := by
  obtain ⟨r, t, rfl⟩ := h
  exact ⟨r, t, rfl⟩

theorem SameForLoad.agree_raise {α : Type} (f : BlockFault) : (raise f s : Eff α).Agree SameForLoad (raise f u) := by
  obtain ⟨r, t, rfl⟩ := h
  exact .raised rfl

theorem SameForLoad.cfg : u.cfg = s.cfg := by
  obtain ⟨r, t, rfl⟩ := h
  rfl

end

theorem SameForLoad.agree_writeWord {s u : State} (h : SameForLoad s u) (v : Half) :
    (writeWord v s).Agree SameForLoad (writeWord v u) := by
  unfold writeWord
  refine h.agree_accPrologue.bind fun w s1 u1 h1 => ?_
  rw [h1.cfg]
  split
  · exact h1.agree_raise _
  · exact (h1.agree_wbWrite _ _).bind fun _ _ _ h2 => (h2.agree_wbWrite _ _).bind fun _ _ _ h3 => (h3.traced _).agree_accAdvance w

theorem SameForLoad.agree_loadFrom {s u : State} (h : SameForLoad s u) (l : List Byte) (n : Nat) :
    (loadFrom l n s).Agree SameForLoad (loadFrom l n u) := by
  induction l, n, s using loadFrom.induct generalizing u with
  | case1 hi lo rest n s ih =>
    exact (h.agree_writeWord _).bind fun _ _ _ h1 => ih _ (h1.addByteSum _)
  | case2 hi lo rest s =>
    exact (h.agree_writeWord _).bind fun _ _ _ h1 => .ok (h1.addByteSum _)
  | case3 l n s h2 h1 =>
    rw [loadFrom.eq_3 l n s h2 h1, loadFrom.eq_3 l n u h2 h1]
    exact .ok h

/-- The load sets `byte_sum` to 0 itself, so of the transients it needs `LBUF` alone. -/
theorem agree_loadWords (s : State) (r : HashRegs) (t : Transients) :
    (loadWords s).Agree SameForLoad (loadWords { s with he := r, tr := { t with lbuf := s.tr.lbuf } }) :=
  SameForLoad.agree_loadFrom (s := { s with tr := { s.tr with byteSum := 0#32 } }) ⟨r, { t with lbuf := s.tr.lbuf }, rfl⟩ _ _

/-! ## The nibble phase (R186 to R189): it reads no transient it has not written -/

/-- The two states differ at most in the transients. -/
def SameButTransients (s u : State) : Prop := ∃ t, u = { s with tr := t }

theorem agree_hashNibbles {s : State} {e c : Word} {b : Nat} (h : s.acc = ⟨some .nibble, some 0#32, some e, some c⟩)
    (hb : c.toNat = 2 * b) (ho : e.toNat % 2 = 1) (t : Transients) :
    (hashNibbles s).Agree SameButTransients (hashNibbles { s with tr := t }) := by
  by_cases hfit : 2 * b + 2 * (combiningSteps s.req.inputSize.toNat + 1) ≤ e.toNat ∧
      b + combiningSteps s.req.inputSize.toNat + 1 ≤ s.cfg.wbufBytes
  · obtain ⟨_, -, h1⟩ := hashNibbles_ok h hb hfit.1 hfit.2
    obtain ⟨t2, -, h2⟩ := hashNibbles_ok (s := { s with tr := t }) h hb hfit.1 hfit.2
    rw [h1, h2]
    exact .ok ⟨t2, rfl⟩
  · obtain ⟨_, -, -, h1⟩ := hashNibbles_raises h hb ho hfit
    obtain ⟨_, -, -, h2⟩ := hashNibbles_raises (s := { s with tr := t }) h hb ho hfit
    rw [h1, h2]
    exact .raised rfl

/-! ## A whole hash: of what R272 leaves unspecified and of the accelerator it reads only the record (R164) -/

section
variable (s : State) (r : HashRegs) (t : Transients) (a : AccRegs)

theorem agree_hashBody : (hashBody s).Agree SameButTransients (hashBody { s with he := r, tr := t, acc := a }) := by
  rw [hashBody_eq, hashBody_eq]
  refine (agree_loadWords { copyInput s with acc := ⟨some .word, some 0#32, some wordWindowEnd, some s.req.workAddress⟩ } r t).bind
    fun _ s1 u1 h1 => ?_
  obtain ⟨r1, t1, rfl⟩ := h1
  exact agree_hashNibbles (s := { initState s1 with
    acc := ⟨some .nibble, some 0#32, some nibbleWindowEnd, some (nibbleCursor s1.req.workAddress)⟩ })
    rfl (nibbleCursor_even _) (by decide) { t1 with byteSum := s1.tr.byteSum }

theorem agree_hashRequest : (hashRequest s).Agree SameVisible (hashRequest { s with he := r, tr := t, acc := a }) := by
  refine (agree_hashBody s r t a).bind fun _ s1 u1 h1 => ?_
  obtain ⟨t1, rfl⟩ := h1
  exact .ok rfl

end

/-- `run_request` reads the record from guest memory first, so it reads nothing that is not visible. -/
theorem agree_runRequest (addr : Word) (s : State) : (runRequest addr s).Agree SameVisible (runRequest addr s.visible) :=
  agree_hashRequest (readRecord addr s) State.reset.he State.reset.tr State.reset.acc

/-! ## Every step of the host's (R272) -/

/-- From a state and from its visible part it answers next states that show the same. -/
def ReadsOnlyVisible (m : State → Host.Outcome State Fault Refusal) : Prop :=
  ∀ s : State, ∃ t u, m s = .next t ∧ m s.visible = .next u ∧ SameVisible t u

theorem readsOnlyVisible_command {body : State → Eff Unit} (hb : ∀ s : State, SameVisible (body s).state (body s.visible).state) :
    ReadsOnlyVisible (command body) := by
  intro s
  by_cases hs : s.fault = none
  · exact ⟨_, _, command_runs hs body, command_runs (s := s.visible) hs body,
      (congrArg (fun v : State => { v with result := .noValue }) (hb s) :)⟩
  · exact ⟨_, _, command_stopped hs body, command_stopped (s := s.visible) hs body, rfl⟩

theorem readsOnlyVisible_params (w : Word) : ReadsOnlyVisible (exec (.params w)) := by
  refine readsOnlyVisible_command fun s => ?_
  refine ((agree_runRequest (recordAddress s.cfg w) s).bind fun _ s1 u1 h1 => ?_).state
  have hcfg : u1.cfg = s1.cfg := (congrArg State.cfg h1.symm :)
  exact .ok (by
    rw [hcfg]
    exact (congrArg (fun v : State => { mailPush s1.cfg.doneMail v with pstate := .anc }) h1 :))

theorem readsOnlyVisible_poll : ReadsOnlyVisible (exec .poll) :=
  readsOnlyVisible_command fun s => by
    have hirq : s.visible.irqPending = s.irqPending := rfl
    rw [hirq]
    split <;> rfl

theorem readsOnlyVisible_restore (v : Word) : ReadsOnlyVisible (exec (.restore v)) :=
  readsOnlyVisible_command fun _ => by split <;> rfl

theorem readsOnlyVisible_pop : ReadsOnlyVisible (exec .pop) := by
  intro s
  cases hq : s.outq with
  | nil => exact ⟨_, _, exec_pop_nil hq, exec_pop_nil (s := s.visible) hq, rfl⟩
  | cons w rest => exact ⟨_, _, exec_pop_cons hq, exec_pop_cons (s := s.visible) hq, rfl⟩

theorem readsOnlyVisible_save : ReadsOnlyVisible (exec .save) := by
  intro s
  by_cases hs : s.fault = none
  · exact ⟨_, _, exec_save_running hs, exec_save_running (s := s.visible) hs, rfl⟩
  · exact ⟨_, _, operation_stopped hs _, operation_stopped (s := s.visible) hs _, rfl⟩

/-- Every row of R82: only `PARAMS` does more than write visible items. -/
theorem readsOnlyVisible_mail (c : Context) (w : Word) : ReadsOnlyVisible (exec (decodeMail c w)) := by
  rcases decodeMail_cases c w with ⟨h, -⟩ | ⟨h, -⟩ | ⟨h, -⟩ | ⟨h, -⟩ | ⟨h, -⟩ | ⟨h, -⟩ | ⟨h, -⟩ <;> rw [h]
  case inr.inr.inr.inl => -- the fourth row, `PARAMS`
    exact readsOnlyVisible_params w
  all_goals exact readsOnlyVisible_command fun _ => rfl

theorem readsOnlyVisible_decodeOp (c : Context) (op : HostOp) : ReadsOnlyVisible (exec (decodeOp c op)) := by
  cases op with
  | mail w => exact readsOnlyVisible_mail c w
  | poll => exact readsOnlyVisible_poll
  | pop => exact readsOnlyVisible_pop
  | save => exact readsOnlyVisible_save
  | restore v => exact readsOnlyVisible_restore v
  | reset => exact readsOnlyVisible_command fun _ => rfl

theorem visible_hostStoreWbuf (i : Nat) (b : Byte) (s : State) :
    SameVisible (hostStoreWbuf i b s) (hostStoreWbuf i b s.visible) := by
  have hcfg : s.visible.cfg = s.cfg := rfl
  rw [hostStoreWbuf, hostStoreWbuf, hcfg]
  split <;> rfl

theorem readsOnlyVisible_step : ReadsOnlyVisible step := by
  intro s
  cases hin : s.inbox with
  | nil => exact ⟨_, _, step_idle hin, step_idle (s := s.visible) hin, rfl⟩
  | cons action rest =>
    cases action with
    | request op =>
      rw [step_request hin, step_request (s := s.visible) hin]
      exact readsOnlyVisible_decodeOp s.context op { s with inbox := rest }
    | storeGuest a b => exact ⟨_, _, step_storeGuest hin, step_storeGuest (s := s.visible) hin, rfl⟩
    | storeWbuf i b =>
      exact ⟨_, _, step_storeWbuf hin, step_storeWbuf (s := s.visible) hin, visible_hostStoreWbuf i b { s with inbox := rest }⟩

/-- Settles O44: both steps show what the step from the common visible part shows. The values an unspecified item holds at reset and
between hashes are notes/assumptions/5.md to 7.md and 17.md. -/
theorem unspecifiedStateIsNeverRead : Obligations.UnspecifiedStateIsNeverRead := by
  intro s1 s2 h
  obtain ⟨t1, u1, ht1, hu1, hshow1⟩ := readsOnlyVisible_step s1
  obtain ⟨t2, u2, ht2, hu2, hshow2⟩ := readsOnlyVisible_step s2
  rw [h] at hu1
  cases hu1.symm.trans hu2
  exact ⟨t1, t2, ht1, ht2, hshow1.trans hshow2.symm⟩

end Sys2Proof.Machine
end

section
/-! One step and one placed word (spec/40_protocol.md R110, spec/44_persistence_and_host.md R226, R227), decode vectors
(spec/30_encoding.md R82, R83), and the order of the accesses of a `PARAMS` that completes (spec/20_memory.md R64). -/

namespace Sys2Proof.Machine

/-! ## The accesses of a hash request, in order (R64) -/

/-- A request that completes reads the record, hashes it, and stores the checksum: the latch and the registers that the accesses are
made from are those the final state still holds (notes/assumptions/17.md). -/
theorem runRequest_trace {a : Word} {s t : State} (hs : s.fault = none) (hf : hashFaultFree s.cfg (recordAt s.guest a))
    (h : runRequest a s = .ok () t) :
    t.trace = .guestWrite t.req.outputAddress t.he.accB :: (hashTrace t.req ++ (readRecord a s).trace) := by
  obtain ⟨u, hu, hleaves, -, -, htrace⟩ := hashRequest_ok (s := readRecord a s) hs hf
  cases hu.symm.trans h
  rw [htrace, hleaves.latch]

/-- Settles O7: the push comes after the accesses of the request, and the pushed word is the one the request left unchanged. -/
theorem paramsAccessOrder : Obligations.ParamsAccessOrder := by
  intro w s hs hf
  obtain ⟨t, ht, hleaves, -, -⟩ := runRequest_ok hs hf
  have htrace := runRequest_trace hs hf ht
  rw [readRecord_trace_eq, ← List.append_assoc] at htrace
  rw [exec_params]
  refine ⟨_, command_ok (t := { mailPush t.cfg.doneMail t with pstate := .anc }) hs (by rw [ht, Eff.bind_ok]), ?_⟩
  simp only [mailPush_trace, hleaves.cfg, htrace, mailPush_req, mailPush_he]

/-! ## A word placed at the port (R80, R82) -/

/-- A row with bits has a word, and the table decoder reads it as the mail decoder does in the word's context. -/
theorem decodeTableWord_eq {nbits : Nat} (hpos : nbits ≠ 0) (hle : nbits ≤ 32) (w : Nat) :
    decodeTableWord nbits w = some (decodeMail (tableContext (tableWord nbits w)) (tableWord nbits w)) := by
  have hdecode := decodeBytes_bytesOfWord (tableContext (tableWord nbits w)) (tableWord nbits w) []
  rw [List.append_nil] at hdecode
  rw [decodeTableWord, if_neg hpos, if_neg (Nat.not_lt.2 hle), hdecode]

/-- The step takes the placed word off the port and runs it in the context that was placed with it. -/
theorem step_withFetchWord (s : State) (nbits w : Nat) :
    step (s.withFetchWord nbits w) = exec (decodeMail (tableContext (tableWord nbits w)) (tableWord nbits w)) { s with
      upload := (tableContext (tableWord nbits w)).upload
      pstate := (tableContext (tableWord nbits w)).pstate } :=
  step_request (s := s.withFetchWord nbits w) (op := .mail (tableWord nbits w)) (rest := s.inbox) rfl

/-- Settles O37: decoder and step both use the context of the placed word, which is the word itself when it has 32 bits. -/
theorem placedWordRunsNext : Obligations.PlacedWordRunsNext := by
  intro s w hw
  have hword : tableWord 32 w = BitVec.ofNat 32 w := by rw [tableWord, Nat.mod_eq_of_lt hw]
  rw [← hword]
  exact ⟨_, decodeTableWord_eq (by decide) le_rfl w, step_withFetchWord s 32 w⟩

/-! ## One step (R226, R227, R256) -/

theorem guestAddr_zero (a : Word) : guestAddr a 0 = a.toNat :=
  congrArg BitVec.toNat (BitVec.add_zero a)

/-- A host write of one working-buffer byte changes the buffer alone, and there one byte that the buffer has (R56). -/
theorem hostStoreWbuf_eq (i : Nat) (b : Byte) (s : State) : ∃ m, hostStoreWbuf i b s = { s with wbuf := m } ∧
    ∀ x, m.read x = if x = i ∧ i < s.cfg.wbufBytes then b else s.wbuf.read x := by
  by_cases hi : s.cfg.wbufBytes ≤ i
  · exact ⟨s.wbuf, if_pos hi, fun x => by simp [Nat.not_lt.2 hi]⟩
  · exact ⟨s.wbuf.write i b, if_neg hi, fun x => by simp [Nat.not_le.1 hi]⟩

/-- Settles O36, by the next host action. -/
theorem stepRunsTheDecodedInstruction : Obligations.StepRunsTheDecodedInstruction := by
  intro s rest
  refine ⟨fun op hin => step_request hin, step_idle, fun a b hin => ?_, fun i b hin => ?_⟩
  · exact ⟨_, step_storeGuest hin, fun x => by rw [Memory.read_write, guestAddr_zero]⟩
  · obtain ⟨m, hstore, hread⟩ := hostStoreWbuf_eq i b { s with inbox := rest }
    exact ⟨m, (step_storeWbuf hin).trans (congrArg _ hstore), hread⟩

/-! ## Decode vectors (R82, R83) -/

/-- Settles O50: each word by its row's context and, for the rows of any other word, by its difference from the exact matches. -/
theorem decodedWords : Obligations.DecodedWords :=
  ⟨(decodeMail_eq_unlock_iff _ _).2 ⟨rfl, rfl, rfl⟩,
    (decodeMail_eq_ignAur_iff _ _ _).2 ⟨rfl, rfl, by decide, rfl⟩,
    (decodeMail_eq_params_iff _ _ _).2 ⟨rfl, rfl, rfl⟩,
    (decodeMail_eq_newuc_iff _ _).2 ⟨rfl, rfl, rfl⟩,
    (decodeMail_eq_resetuc_iff _ _).2 ⟨rfl, rfl, rfl⟩,
    (decodeMail_eq_ignAnc_iff _ _ _).2 ⟨rfl, rfl, by decide, by decide, rfl⟩,
    (decodeMail_eq_forward_iff _ _ _).2 ⟨rfl, rfl⟩⟩

end Sys2Proof.Machine
end
